-- ==== Sys2Proof/Word.lean ====
section
/-! DEFINITION. The word types of EQFIR: the 32-bit port words of rule R60, the byte lanes of rule R42,
the 16-bit coefficients and the 32-bit cells that hold one history sample (rule R40), and the 32 bits of
one binary32 value (rules R67 and R90). -/

namespace Sys2Proof

/-- A port word: `CW`, `AW` or `RW` (rule R60). -/
abbrev Word := BitVec 32

/-- One byte lane of a port word (rule R42). -/
abbrev Byte := BitVec 8

/-- One kernel coefficient: 16 bits, two's complement (rules R24 and R40). -/
abbrev Coeff := BitVec 16

/-- One float in the format of the numerics record's decision value: a binary32 bit pattern (rules R67
and R90; log 2). -/
abbrev F32 := BitVec 32

end Sys2Proof
end

