-- ==== Sys2Proof/Config.lean ====
section
/-! DEFINITION. What an instance of EQFIR fixes before reset (rules R5 and R34), the numerics record `NUM` (rule
R90) among it, and the free values: constants with no body for everything the spec leaves open. The parameters are
plain data and stand in `State` (logs 1 and 2), so that every statement about all states is a statement about all
parameter values. -/

namespace Sys2Proof

/-- The sample width `W`, one of 16, 24 and 32 bits (rule R5). -/
inductive SampleWidth where
  | w16
  | w24
  | w32
  deriving DecidableEq, Repr

/-- `W` as a number of bits. -/
def SampleWidth.bits : SampleWidth → Nat
  | .w16 => 16
  | .w24 => 24
  | .w32 => 32

/-! ### The numerics record (rule R90) -/

/-- What rounding to an integer can give: an integer, an infinity (clamped by its sign, rule R108) or nothing
that has a meaning. -/
inductive Rounded where
  | int (k : Int)
  | posInf
  | negInf
  | nan
  deriving DecidableEq, Repr, Inhabited

/-- The operations of rule R90 on floats of type `F`. A real literal `r` is given to `fconst` as numerator and
denominator; pi, which is no ratio, is a constant of its own (log 6). `isNaN` and `isFinite` are the words of rules
R154 and R91. -/
structure Num (F : Type) where
  fconst : Int → Nat → F
  pi : F
  ofInt : Int → F
  fadd : F → F → F
  fsub : F → F → F
  fmul : F → F → F
  fdiv : F → F → F
  fsqrt : F → F
  fsin : F → F
  fcos : F → F
  flog10 : F → F
  fpow10 : F → F
  fabs : F → F
  flt : F → F → Bool
  fle : F → F → Bool
  fround : F → Rounded
  ofBits32 : Word → F
  toBits32 : F → Word
  isNaN : F → Bool
  isFinite : F → Bool
  deriving Inhabited

/-- A float in the format of the instance's numerics record, by the number that stands for it; the format is a
parameter (rule R90, U7; log 2). Under binary32 the number is the bit pattern. -/
structure Flt where
  code : Nat
  deriving DecidableEq, Repr, Inhabited

/-- Which numerics record an instance is built with (rules R5, R34 and R90; log 2): the decision value, or another
one, of which nothing is known. -/
inductive Numerics where
  | binary32
  | other (k : Nat)
  deriving DecidableEq, Repr

/-- The implementation parameters of rule R5. `MAG_EPS` is the real number `magEpsNum / magEpsDen`. -/
structure Params where
  /-- `N`, the number of bands. -/
  numBands : Nat
  /-- `T`, the number of taps. -/
  numTaps : Nat
  /-- `W`, the sample width. -/
  sampleWidth : SampleWidth
  /-- `ACC_W`, the accumulator width. -/
  accWidth : Nat
  /-- `MAX_CH`, the largest channel count BEGIN accepts. -/
  maxChannels : Nat
  /-- Numerator of `MAG_EPS`. -/
  magEpsNum : Nat
  /-- Denominator of `MAG_EPS`. -/
  magEpsDen : Nat
  /-- `NUM`. -/
  numerics : Numerics
  deriving DecidableEq, Repr

/-- `ceil(log2(n))`, as rule R5 uses it for the accumulator's width. -/
def ceilLog2 (n : Nat) : Nat :=
  if n ≤ 1 then 0 else Nat.log2 (n - 1) + 1

/-- The constraints of rule R5 on the sizes and on `MAG_EPS`. -/
abbrev Params.Sizes (p : Params) : Prop :=
  1 ≤ p.numBands ∧ p.numBands ≤ 65535 ∧
  2 ≤ p.numTaps ∧ p.numTaps ≤ 65535 ∧
  2 * p.sampleWidth.bits ≤ p.accWidth ∧
  p.sampleWidth.bits + 16 + ceilLog2 p.numTaps ≤ p.accWidth ∧
  1 ≤ p.maxChannels ∧ p.maxChannels ≤ 65535 ∧
  0 < p.magEpsNum ∧ 0 < p.magEpsDen

/-- The instance that `State.reset` is: `N` and `T` are rule R5's scenario values, `MAG_EPS` and `NUM` have their
decision values; the spec states none for `W`, `ACC_W` and `MAX_CH`, and these are a DESIGN CHOICE (log 1). -/
def Params.scenario : Params where
  numBands := 12
  numTaps := 128
  sampleWidth := .w16
  accWidth := 40
  maxChannels := 2
  magEpsNum := 1
  magEpsDen := 1000000000
  numerics := .binary32

/-- Whose turn it is: one of the three agents of rule R183, or the reset event of rule R190. -/
inductive Turn where
  | cp
  | ap
  | eng
  | reset
  deriving DecidableEq, Repr, Inhabited

namespace Config

/-! ### Values the spec does not give -/

/-- FREE VALUE: the numerics record of a build whose `NUM` is not the decision value, one for each number (rule R90,
U7; log 2). Rule R91 is no part of it: it is a condition on a legal instance. -/
opaque otherNum : Nat → Num Flt

/-- FREE VALUE: sign and payload of the NaN that an invalid binary32 operation on these operands gives
(log 4). -/
opaque nanBits : F32 → F32 → F32
/-- FREE VALUE: the coefficient `K[n]` where the designer meets a NaN in `tf[n]` (rule R108, U6), a function
of all the designer's inputs: the parameters, `G`, `F`, `sr`, `WIN` and `n` (rule R106; log 5). -/
opaque nanCoeff : Params → List Flt → List Flt → Int → List Flt → Nat → Coeff
/-- FREE VALUE: `WIN[n]` right after the reset that has this number (rule R33, U2; log 7). -/
opaque winAtReset : Nat → Nat → Flt
/-- FREE VALUE: `CUR[ch]` right after the reset that has this number (rule R33, U2; log 7). -/
opaque curAtReset : Nat → Nat → Nat
/-- FREE VALUE: whether `KREF[ch].sel` names buffer B right after the reset that has this number (rule R33,
U2; log 7). -/
opaque selAtReset : Nat → Nat → Bool
/-- FREE VALUE: who takes the turn once the schedule held in the state is used up (rule R50, U8; log 11). -/
opaque freeTurn : Nat → Turn

end Config

end Sys2Proof
end

