-- ==== Sys2Proof/Syntax.lean ====
section
/-! DEFINITION. The thirteen operations of rule R63 as one inductive: one constructor per row of
spec/opcode_table.json, with the operands of rules R62 and R66. An index operand is the unsigned number of
rule R65; an argument word that an operation does not use (rule R62) is no part of its syntax. -/

namespace Sys2Proof

/-- The kernel selector `ksel` of KRD (rule R120): `FN[1:0]` = 0, 1, 2, 3. -/
inductive KSel where
  | act
  | stg
  | bufA
  | bufB
  deriving DecidableEq, Repr

/-- A command as the ports understand it (rule R63). -/
inductive Instr where
  /-- NOP (rule R150). -/
  | nop
  /-- BEGIN: `nch` is the channel count `IDX`, `sr` the argument word (rule R151). -/
  | begin_ (nch : Nat) (sr : Word)
  /-- END (rule R153). -/
  | end_
  /-- SETG: band `i`, gain bits `g` (rule R154). -/
  | setg (i : Nat) (g : Word)
  /-- SETGN: band `i`, normalised gain bits `v` (rule R155). -/
  | setgn (i : Nat) (v : Word)
  /-- GETG: `sel` is `FN[0]`, set for the committed gain (rule R156). -/
  | getg (sel : Bool) (i : Nat)
  /-- GETF: band `i` (rule R157). -/
  | getf (i : Nat)
  /-- UPDATE: `force` is `FN[0]` (rule R113). -/
  | update (force : Bool)
  /-- SETAUTO: `en` is `FN[0]` (rule R158). -/
  | setauto (en : Bool)
  /-- RDCSR: register number `r` (rule R159). -/
  | rdcsr (r : Nat)
  /-- KRD: selector `ksel`, tap `n` (rule R120). -/
  | krd (ksel : KSel) (n : Nat)
  /-- BLOCK (rule R137). -/
  | block
  /-- PROC: channel `ch`, argument word `x` (rule R130). -/
  | proc (ch : Nat) (x : Word)
  deriving DecidableEq, Repr

/-- The two command ports of rule R60: the control port CP and the audio port AP. -/
inductive PortId where
  | cp
  | ap
  deriving DecidableEq, Repr

/-- A command on a port: the command word and the argument word presented together (rule R60). -/
structure Command where
  cw : Word
  aw : Word
  deriving DecidableEq, Repr

end Sys2Proof
end

