-- ==== Sys2Proof/WellFormed.lean ====
section
/-! DEFINITION. Which terms of `Instr` are commands: an index operand fits the 16-bit field `IDX` of
rule R62. (Every other operand is as wide as its field by its type.) -/

namespace Sys2Proof

/-- A number that the 16-bit field `IDX` can carry (rules R62 and R65). -/
def fitsIdx (i : Nat) : Bool := decide (i < 65536)

/-- The check on a whole command, one line per operation with an index. -/
def Instr.wellFormed : Instr → Bool
  | .nop => true
  | .begin_ nch _ => fitsIdx nch
  | .end_ => true
  | .setg i _ => fitsIdx i
  | .setgn i _ => fitsIdx i
  | .getg _ i => fitsIdx i
  | .getf i => fitsIdx i
  | .update _ => true
  | .setauto _ => true
  | .rdcsr r => fitsIdx r
  | .krd _ n => fitsIdx n
  | .block => true
  | .proc ch _ => fitsIdx ch

end Sys2Proof
end

