-- ==== Sys2Proof/Decode.lean ====
section
/-! DEFINITION. The command encoding of spec/30_encoding.md: the fields of the command word, the table of
rule R63, port legality (rule R64), a decoder that is total and rejects by name (rule R69), the encoder, and
the byte lanes of rule R42. -/

namespace Sys2Proof

/-! ### Fields of the command word (rule R62) -/

/-- `OPC`, bits 31:28. -/
def opcField (cw : Word) : BitVec 4 := cw.extractLsb' 28 4
/-- `FN`, bits 27:24. -/
def fnField (cw : Word) : BitVec 4 := cw.extractLsb' 24 4
/-- `RSV`, bits 23:16. -/
def rsvField (cw : Word) : BitVec 8 := cw.extractLsb' 16 8
/-- `IDX`, bits 15:0. -/
def idxField (cw : Word) : BitVec 16 := cw.extractLsb' 0 16

/-- The kernel selector in `FN[1:0]` (rules R65 and R120). -/
def kselOfFn (fn : BitVec 4) : KSel :=
  match fn.getLsbD 1, fn.getLsbD 0 with
  | false, false => .act
  | false, true => .stg
  | true, false => .bufA
  | true, true => .bufB

/-- The `FN` bits of a kernel selector. -/
def fnOfKsel : KSel → BitVec 4
  | .act => 0
  | .stg => 1
  | .bufA => 2
  | .bufB => 3

/-- The `FN` bits of a one-bit modifier in `FN[0]`. -/
def fnOfFlag (b : Bool) : BitVec 4 := if b then 1 else 0

/-! ### Decoding -/

/-- Why a command is not one of the thirteen operations (rule R69); every such command answers ERR_ILLEGAL. -/
inductive DecodeError where
  /-- Fewer than the eight bytes of a `CW` and an `AW` (rule R71). -/
  | truncated
  /-- `OPC` is 0xB, 0xE or 0xF. -/
  | reservedOpcode
  /-- `RSV` is not 0. -/
  | reservedField
  /-- An `FN` bit is set that the operation does not define. -/
  | undefinedModifier
  /-- `IDX` is not 0 on an operation of shape Z or F. -/
  | nonzeroIndex
  deriving DecidableEq, Repr

/-- The checks every operation makes on the rest of its word: `RSV` is 0, no `FN` bit outside `fnBits`, and
`IDX` is 0 unless the operation is indexed (rules R62 and R69). -/
def checkFields (fnBits : BitVec 4) (indexed : Bool) (cw : Word) (i : Instr) : Except DecodeError Instr :=
  if rsvField cw ≠ 0 then .error .reservedField
  else if fnField cw &&& ~~~fnBits ≠ 0 then .error .undefinedModifier
  else if indexed = false ∧ idxField cw ≠ 0 then .error .nonzeroIndex
  else .ok i

/-- The command that a pair of port words stands for (rules R62, R63, R66 and R69). -/
def decodeCommand (cw aw : Word) : Except DecodeError Instr :=
  let idx := (idxField cw).toNat
  let flag := (fnField cw).getLsbD 0
  match (opcField cw).toNat with
  | 0x0 => checkFields 0 false cw .nop
  | 0x1 => checkFields 0 true cw (.begin_ idx aw)
  | 0x2 => checkFields 0 false cw .end_
  | 0x3 => checkFields 0 true cw (.setg idx aw)
  | 0x4 => checkFields 0 true cw (.setgn idx aw)
  | 0x5 => checkFields 1 true cw (.getg flag idx)
  | 0x6 => checkFields 0 true cw (.getf idx)
  | 0x7 => checkFields 1 false cw (.update flag)
  | 0x8 => checkFields 1 false cw (.setauto flag)
  | 0x9 => checkFields 0 true cw (.rdcsr idx)
  | 0xA => checkFields 3 true cw (.krd (kselOfFn (fnField cw)) idx)
  | 0xC => checkFields 0 false cw .block
  | 0xD => checkFields 0 true cw (.proc idx aw)
  | _ => .error .reservedOpcode

/-! ### Byte lanes (rule R42: the byte at the lowest address holds bits 7:0) -/

/-- The four byte lanes of a word, lowest address first. -/
def wordBytes (w : Word) : List Byte :=
  [w.extractLsb' 0 8, w.extractLsb' 8 8, w.extractLsb' 16 8, w.extractLsb' 24 8]

/-- The word whose byte lanes these are, lowest address first. -/
def wordOfBytes (b0 b1 b2 b3 : Byte) : Word := b3 ++ b2 ++ b1 ++ b0

/-- The decoder on bytes: a `CW`, then an `AW`, and the bytes after them (rule R71). -/
def decodeBytes : List Byte → Except DecodeError (Instr × List Byte)
  | c0 :: c1 :: c2 :: c3 :: a0 :: a1 :: a2 :: a3 :: rest =>
    match decodeCommand (wordOfBytes c0 c1 c2 c3) (wordOfBytes a0 a1 a2 a3) with
    | .ok i => .ok (i, rest)
    | .error e => .error e
  | _ => .error .truncated

/-! ### The table of rule R63 and port legality (rule R64) -/

/-- One row of the table of rule R63: `pattern` is the column `match`. -/
structure OpRow where
  mnemonic : String
  pattern : Word
  mask : Word
  deriving DecidableEq, Repr

/-- The column test of rule R63: `(c AND mask) = match`. -/
def OpRow.selects (r : OpRow) (cw : Word) : Bool := cw &&& r.mask == r.pattern

/-- The thirteen rows of rule R63. -/
def opTable : List OpRow := [
  ⟨"NOP", 0x00000000, 0xFFFFFFFF⟩,
  ⟨"BEGIN", 0x10000000, 0xFFFF0000⟩,
  ⟨"END", 0x20000000, 0xFFFFFFFF⟩,
  ⟨"SETG", 0x30000000, 0xFFFF0000⟩,
  ⟨"SETGN", 0x40000000, 0xFFFF0000⟩,
  ⟨"GETG", 0x50000000, 0xFEFF0000⟩,
  ⟨"GETF", 0x60000000, 0xFFFF0000⟩,
  ⟨"UPDATE", 0x70000000, 0xFEFFFFFF⟩,
  ⟨"SETAUTO", 0x80000000, 0xFEFFFFFF⟩,
  ⟨"RDCSR", 0x90000000, 0xFFFF0000⟩,
  ⟨"KRD", 0xA0000000, 0xFCFF0000⟩,
  ⟨"BLOCK", 0xC0000000, 0xFFFFFFFF⟩,
  ⟨"PROC", 0xD0000000, 0xFFFF0000⟩]

/-- The mnemonic of a command's row. -/
def Instr.mnemonic : Instr → String
  | .nop => "NOP"
  | .begin_ _ _ => "BEGIN"
  | .end_ => "END"
  | .setg _ _ => "SETG"
  | .setgn _ _ => "SETGN"
  | .getg _ _ => "GETG"
  | .getf _ => "GETF"
  | .update _ => "UPDATE"
  | .setauto _ => "SETAUTO"
  | .rdcsr _ => "RDCSR"
  | .krd _ _ => "KRD"
  | .block => "BLOCK"
  | .proc _ _ => "PROC"

/-- Whether a port accepts an operation: CP `OPC` 0x0 to 0xA, AP 0x0, 0xC and 0xD (rule R64). -/
def acceptedOn : PortId → Instr → Bool
  | .cp, .block => false
  | .cp, .proc _ _ => false
  | .cp, _ => true
  | .ap, .nop => true
  | .ap, .block => true
  | .ap, .proc _ _ => true
  | .ap, _ => false

/-! ### Encoding -/

/-- A command word from its fields, `RSV` being 0 (rule R62). -/
def commandWord (opc fn : BitVec 4) (idx : Nat) : Word :=
  opc ++ fn ++ (0 : BitVec 8) ++ BitVec.ofNat 16 idx

/-- The port words of a command; an argument word that the operation ignores is sent as 0 (rule R62). -/
def encode : Instr → Command
  | .nop => ⟨commandWord 0x0 0 0, 0⟩
  | .begin_ nch sr => ⟨commandWord 0x1 0 nch, sr⟩
  | .end_ => ⟨commandWord 0x2 0 0, 0⟩
  | .setg i g => ⟨commandWord 0x3 0 i, g⟩
  | .setgn i v => ⟨commandWord 0x4 0 i, v⟩
  | .getg sel i => ⟨commandWord 0x5 (fnOfFlag sel) i, 0⟩
  | .getf i => ⟨commandWord 0x6 0 i, 0⟩
  | .update force => ⟨commandWord 0x7 (fnOfFlag force) 0, 0⟩
  | .setauto en => ⟨commandWord 0x8 (fnOfFlag en) 0, 0⟩
  | .rdcsr r => ⟨commandWord 0x9 0 r, 0⟩
  | .krd ksel n => ⟨commandWord 0xA (fnOfKsel ksel) n, 0⟩
  | .block => ⟨commandWord 0xC 0 0, 0⟩
  | .proc ch x => ⟨commandWord 0xD 0 ch, x⟩

/-- Whether the operation reads its argument word: shape IA (rule R62). -/
def Instr.usesArgument : Instr → Bool
  | .begin_ _ _ => true
  | .setg _ _ => true
  | .setgn _ _ => true
  | .proc _ _ => true
  | _ => false

/-- The eight bytes of a command, lowest address first. -/
def encodeBytes (i : Instr) : List Byte := wordBytes (encode i).cw ++ wordBytes (encode i).aw

/-! ### The word numbering of spec/opcode_table.json -/

/-- The command whose bits are `w`, the command word in bits 31:0 and the argument word above it; bits from
`nbits` up are 0. -/
def commandOfTableWord (nbits w : Nat) : Command :=
  let bits := w % 2 ^ nbits
  ⟨BitVec.ofNat 32 bits, BitVec.ofNat 32 (bits / 2 ^ 32)⟩

/-- What the decoder reads from that command laid out in byte lanes. -/
def decodeTableWord (nbits w : Nat) : Option Instr :=
  let c := commandOfTableWord nbits w
  match decodeBytes (wordBytes c.cw ++ wordBytes c.aw) with
  | .ok (i, _) => some i
  | .error _ => none

end Sys2Proof
end

