-- ==== Sys2Proof/Machine/BandPlan.lean ====
section
/-! DEFINITION. Stage 1 of the kernel-synthesis pipeline: the band plan and the window table
(spec/40_bandplan_window.md). Each expression is evaluated in the order the spec's pseudocode writes it. -/

namespace Sys2Proof.Machine

variable {F : Type}

/-- The band plan: `n` centre frequencies for the sample rate `sr` (rules R80 and R81). -/
def bandPlan (num : Num F) (sr : Int) (n : Nat) : List F :=
  let srf := num.ofInt sr
  let nyq := num.fdiv srf (num.fconst 2 1)
  let l20 := num.flog10 (num.fconst 20 1)
  let lny := num.flog10 nyq
  if n = 1 then [num.fsqrt (num.fmul (num.fconst 20 1) nyq)]
  else (List.range n).map fun (i : Nat) =>
    num.fpow10 (num.fadd l20
      (num.fdiv (num.fmul (num.ofInt i) (num.fsub lny l20)) (num.ofInt ((n : Int) - 1))))

/-- The Blackman window of `t` entries (rule R84). -/
def window (num : Num F) (t : Nat) : List F :=
  let den := num.ofInt ((t : Int) - 1)
  (List.range t).map fun (n : Nat) =>
    let a := num.fdiv (num.fmul (num.fmul (num.fconst 2 1) num.pi) (num.ofInt n)) den
    let b := num.fdiv (num.fmul (num.fmul (num.fconst 4 1) num.pi) (num.ofInt n)) den
    num.fadd (num.fsub (num.fconst 42 100) (num.fmul (num.fconst 5 10) (num.fcos a)))
      (num.fmul (num.fconst 8 100) (num.fcos b))

end Sys2Proof.Machine
end

