-- ==== Sys2Proof/Machine/Designer.lean ====
section
/-! DEFINITION. Stage 2 of the kernel-synthesis pipeline: the kernel designer (spec/41_kernel_designer.md), a
pure function of the committed gains, the band plan, the sample rate and the window table (rule R92). One
definition per rule, composed by `design`. -/

namespace Sys2Proof.Machine

variable {F : Type}

/-- The centre tap `M = (T-1) div 2` (rule R93). -/
def centreTap (t : Nat) : Nat := (t - 1) / 2

/-- The identity kernel `ID[n]` (rule R24). -/
def identityKernel (t n : Nat) : Coeff := if n = centreTap t then 32767 else 0

/-- Step 1: the identity impulse (rule R93). -/
def impulse (num : Num F) (t : Nat) : List F :=
  (List.range t).map fun n => if n = centreTap t then num.fconst 1 1 else num.fconst 0 1

/-- A band of negligible gain, which step 2 skips (rule R94). -/
def negligible (num : Num F) (g : F) : Bool := num.flt (num.fabs g) (num.fconst 1 10)

/-- The linear delta of a gain in dB (rule R95). -/
def linDelta (num : Num F) (g : F) : F :=
  num.fsub (num.fpow10 (num.fdiv g (num.fconst 20 1))) (num.fconst 1 1)

/-- The passband edges at the -3 dB points (rule R96). -/
def edges0 (num : Num F) (fc : F) : F × F :=
  (num.fmul fc (num.fconst 707 1000), num.fmul fc (num.fconst 1414 1000))

/-- The minimum bandwidth and the lower clamp (rule R97). -/
def widen (num : Num F) (t : Nat) (flo fhi srf : F) : F × F :=
  let minbw := num.fdiv (num.fmul (num.fconst 4 1) srf) (num.ofInt t)
  let mid := num.fdiv (num.fadd flo fhi) (num.fconst 2 1)
  let half := num.fdiv minbw (num.fconst 2 1)
  let narrow := num.flt (num.fsub fhi flo) minbw
  let lo := if narrow then num.fsub mid half else flo
  let hi := if narrow then num.fadd mid half else fhi
  (if num.flt lo (num.fconst 1 1) then num.fconst 1 1 else lo, hi)

/-- Whether a normalised edge lies in `(0, 0.5]` (rule R98). -/
def edgeInside (num : Num F) (f : F) : Bool :=
  num.flt (num.fconst 0 1) f && num.fle f (num.fconst 5 10)

/-- Whether a band is kept (rule R98). -/
def usable (num : Num F) (flo fhi srf : F) : Bool :=
  if num.fle fhi flo then false
  else edgeInside num (num.fdiv flo srf) || edgeInside num (num.fdiv fhi srf)

/-- `sinc` (rule R99). -/
def sinc (num : Num F) (x : F) : F :=
  if num.flt (num.fabs x) (num.fconst 1 100000000) then num.fconst 1 1
  else num.fdiv (num.fsin (num.fmul num.pi x)) (num.fmul num.pi x)

/-- The windowed band-pass impulse response (rule R99). -/
def bandpass (num : Num F) (win : List F) (t : Nat) (fL fH : F) : List F :=
  (List.range t).map fun (n : Nat) =>
    let d := num.ofInt ((n : Int) - (centreTap t : Int))
    let a := num.fmul (num.fmul (num.fconst 2 1) fH) (sinc num (num.fmul (num.fmul (num.fconst 2 1) fH) d))
    let b := num.fmul (num.fmul (num.fconst 2 1) fL) (sinc num (num.fmul (num.fmul (num.fconst 2 1) fL) d))
    num.fmul (num.fsub a b) (win.getD n (num.fconst 0 1))

/-- The sums of rule R100 over the taps of `bp` from tap `n` on. -/
def dftFrom (num : Num F) (fcn : F) : List F → Nat → F × F → F × F
  | [], _, acc => acc
  | x :: bp, n, (re, im) =>
    let ph := num.fmul (num.fmul (num.fmul (num.fconst 2 1) num.pi) fcn) (num.ofInt n)
    dftFrom num fcn bp (n + 1)
      (num.fadd re (num.fmul x (num.fcos ph)), num.fadd im (num.fmul x (num.fsin ph)))

/-- The magnitude of the response at the centre frequency (rule R100). -/
def bpMag (num : Num F) (bp : List F) (fc srf : F) : F :=
  let (re, im) := dftFrom num (num.fdiv fc srf) bp 0 (num.fconst 0 1, num.fconst 0 1)
  num.fsqrt (num.fadd (num.fmul re re) (num.fmul im im))

/-- The normalisation factor and its guard (rule R101). -/
def normFactor (num : Num F) (p : Params) (mag : F) : F :=
  if num.flt mag (num.fconst p.magEpsNum p.magEpsDen) then num.fconst 1 1
  else num.fdiv (num.fconst 1 1) mag

/-- Adds one band's response to the taps (rule R102). -/
def accumulate (num : Num F) (tf bp : List F) (norm lin : F) : List F :=
  List.zipWith (fun x b => num.fadd x (num.fmul (num.fmul b norm) lin)) tf bp

/-- The body of the loop over the bands, for one band of gain `g` and centre `fc` (rule R104). -/
def addBand (num : Num F) (p : Params) (win : List F) (srf : F) (tf : List F) (g fc : F) : List F :=
  if negligible num g then tf
  else
    let e := widen num p.numTaps (edges0 num fc).1 (edges0 num fc).2 srf
    if usable num e.1 e.2 srf then
      let bp := bandpass num win p.numTaps (num.fdiv e.1 srf) (num.fdiv e.2 srf)
      accumulate num tf bp (normFactor num p (bpMag num bp fc srf)) (linDelta num g)
    else tf

/-- The loop over the bands, in ascending order (rules R94 and R104). -/
def addBands (num : Num F) (p : Params) (win : List F) (srf : F) : List F → List F → List F → List F
  | tf, g :: gs, fc :: fcs => addBands num p win srf (addBand num p win srf tf g fc) gs fcs
  | tf, _, _ => tf

/-- Clamps to the 16-bit range of a coefficient (rule R103). -/
def clampCoeff (k : Int) : Coeff := BitVec.ofInt 16 (min (max k (-32768)) 32767)

/-- One coefficient from a rounded tap; `free` is the coefficient where rounding has no meaning (rules R103 and
R108; log 5). -/
def quantiseTap (free : Coeff) : Rounded → Coeff
  | .int k => clampCoeff k
  | .posInf => 32767
  | .negInf => -32768
  | .nan => free

/-- Step 3: quantisation of the taps (rule R103). -/
def quantise (num : Num F) (free : Nat → Coeff) (tf : List F) : List Coeff :=
  tf.mapIdx fun n x => quantiseTap (free n) (num.fround (num.fmul x (num.fconst 32767 1)))

/-- The designer (rule R104): `T` coefficients. -/
def design (num : Num F) (p : Params) (free : Nat → Coeff) (gains freqs : List F) (sr : Int) (win : List F) :
    List Coeff :=
  quantise num free (addBands num p win (num.ofInt sr) (impulse num p.numTaps) gains freqs)

end Sys2Proof.Machine
end

