-- ==== Sys2Proof/Machine/Conditions.lean ====
section
/-! DEFINITION. What rule R91 demands of every numerics record. Conditions 1 to 4, with what other rules take for
granted of it, are `Num.Sound`; condition 5 is `Num.StaysFinite`, over lists of all the values that the functions of
spec/40 and spec/41 compute on the way to their results, in the order in which their pseudocode computes them, and of
all the values they divide by. -/

namespace Sys2Proof.Machine

variable {F : Type}

/-! ### Conditions 1 to 4 -/

/-- A gain in [-90.0, +12.0] dB; in particular no NaN (rule R13). -/
def gainInRange (num : Num F) (g : F) : Bool := num.fle (num.fconst (-90) 1) g && num.fle g (num.fconst 12 1)

end Sys2Proof.Machine

namespace Sys2Proof

open Sys2Proof.Machine

variable {F : Type}

/-- The record's floats that are no NaN stand for the extended real numbers that `val` gives, as rules R90 and R91
say: the finite ones for real numbers, the others for the two infinities. Condition 1 of rule R91 holds of every record,
whose operations are functions. -/
structure Num.Sound (num : Num F) (val : F → EReal) : Prop where
  /-- A finite float is no NaN. -/
  finite_not_nan : ∀ a, num.isFinite a = true → num.isNaN a = false
  /-- Of the floats that are no NaN the finite ones, and no others, stand for real numbers. -/
  finite_iff : ∀ a, num.isNaN a = false → (num.isFinite a = true ↔ val a ≠ ⊥ ∧ val a ≠ ⊤)
  /-- Condition 2: comparisons with a NaN are false. -/
  nan_false : ∀ a b, (num.isNaN a = true ∨ num.isNaN b = true) → num.flt a b = false ∧ num.fle a b = false
  /-- Condition 2: `flt` is the usual order on every two values that are no NaN, the infinities at its ends. -/
  lt_iff : ∀ a b, num.isNaN a = false → num.isNaN b = false → (num.flt a b = true ↔ val a < val b)
  /-- Condition 2: so is `fle`. -/
  le_iff : ∀ a b, num.isNaN a = false → num.isNaN b = false → (num.fle a b = true ↔ val a ≤ val b)
  /-- Condition 3: these literals are exact. -/
  literal_exact : ∀ k ∈ [0, 1, 2, 4, 20, 32767], num.isFinite (num.fconst k 1) = true ∧
    val (num.fconst k 1) = (k : ℝ)
  /-- Condition 3: small integers are exact. -/
  int_exact : ∀ k : Int, |k| ≤ 65535 → num.isFinite (num.ofInt k) = true ∧ val (num.ofInt k) = (k : ℝ)
  /-- Condition 4: full scale. -/
  full_scale : num.isFinite (num.fmul (num.fconst 1 1) (num.fconst 32767 1)) = true ∧
    val (num.fmul (num.fconst 1 1) (num.fconst 32767 1)) = (32767 : ℝ)
  /-- Condition 4: a product with zero. -/
  zero_mul : ∀ x, num.isFinite x = true → num.isFinite (num.fmul (num.fconst 0 1) x) = true ∧
    val (num.fmul (num.fconst 0 1) x) = 0
  /-- Condition 4: a sum of zeros. -/
  zero_add : num.isFinite (num.fadd (num.fconst 0 1) (num.fconst 0 1)) = true ∧
    val (num.fadd (num.fconst 0 1) (num.fconst 0 1)) = 0
  /-- Rule R90: `fround` of a finite float is the nearest integer, ties away from zero. -/
  round_nearest : ∀ a, num.isFinite a = true → ∃ k : Int, num.fround a = .int k ∧
    |(val a).toReal - k| ≤ 1 / 2 ∧ (|(val a).toReal - k| = 1 / 2 → |(val a).toReal| < |(k : ℝ)|)
  /-- Rule R108: `fround` hands an infinity on with its sign. -/
  round_infinite : ∀ a, num.isNaN a = false →
    (val a = ⊤ → num.fround a = .posInf) ∧ (val a = ⊥ → num.fround a = .negInf)
  /-- Rule R108: `fround` of a NaN has no meaning. -/
  round_nan : ∀ a, num.isNaN a = true → num.fround a = .nan
  /-- DEDUCED from rules R13 and R33 (log 2): the reset gain lies between the two bounds. -/
  zero_in_range : gainInRange num (num.fconst 0 1) = true
  /-- DEDUCED from rule R105, "in particular if every `G[i]` is 0.0" (log 2): the gain 0.0 is negligible. -/
  zero_negligible : negligible num (num.fconst 0 1) = true
  /-- DEDUCED from rules R13 and R155 (log 2): the image of a normalised value is a NaN only if the value is. -/
  image_not_nan : ∀ v, num.isNaN v = false →
    num.isNaN (num.fmul v (num.fconst 90 1)) = false ∧ num.isNaN (num.fmul v (num.fconst 12 1)) = false

end Sys2Proof

namespace Sys2Proof.Machine

variable {F : Type}

/-! ### Condition 5: the values on the way -/

/-- The literals of rules R80 to R104, `MAG_EPS` and the bounds of a gain among them. -/
def literals (num : Num F) (p : Params) : List F :=
  [num.fconst 0 1, num.fconst 1 1, num.fconst 2 1, num.fconst 4 1, num.fconst 20 1, num.fconst 32767 1,
    num.fconst 42 100, num.fconst 5 10, num.fconst 8 100, num.fconst 1 10, num.fconst 707 1000, num.fconst 1414 1000,
    num.fconst 1 100000000, num.fconst (-90) 1, num.fconst 12 1, num.fconst p.magEpsNum p.magEpsDen, num.pi]

/-- The values the band plan computes (rules R80 and R81). -/
def bandPlanParts (num : Num F) (sr : Int) (n : Nat) : List F :=
  let srf := num.ofInt sr
  let nyq := num.fdiv srf (num.fconst 2 1)
  let l20 := num.flog10 (num.fconst 20 1)
  let lny := num.flog10 nyq
  let span := num.fsub lny l20
  let den := num.ofInt ((n : Int) - 1)
  [srf, nyq, l20, lny] ++
  (if n = 1 then [num.fmul (num.fconst 20 1) nyq]
   else (List.range n).flatMap fun (i : Nat) =>
    let m := num.fmul (num.ofInt i) span
    [num.ofInt i, span, m, den, num.fdiv m den, num.fadd l20 (num.fdiv m den)]) ++
  bandPlan num sr n

/-- The values the window computes (rule R84). -/
def windowParts (num : Num F) (t : Nat) : List F :=
  let den := num.ofInt ((t : Int) - 1)
  let angle (c : F) (n : Nat) := num.fdiv (num.fmul (num.fmul c num.pi) (num.ofInt n)) den
  [num.fmul (num.fconst 2 1) num.pi, num.fmul (num.fconst 4 1) num.pi] ++
  ((List.range t).flatMap fun (n : Nat) =>
    let a := angle (num.fconst 2 1) n
    let b := angle (num.fconst 4 1) n
    let u := num.fmul (num.fconst 5 10) (num.fcos a)
    [num.ofInt n, den, num.fmul (num.fmul (num.fconst 2 1) num.pi) (num.ofInt n), a, num.fcos a, u,
      num.fsub (num.fconst 42 100) u,
      num.fmul (num.fmul (num.fconst 4 1) num.pi) (num.ofInt n), b, num.fcos b,
      num.fmul (num.fconst 8 100) (num.fcos b)]) ++
  window num t

/-- The values `sinc` computes (rule R99). -/
def sincParts (num : Num F) (x : F) : List F :=
  num.fabs x :: if num.flt (num.fabs x) (num.fconst 1 100000000) then [] else
    [num.fmul num.pi x, num.fsin (num.fmul num.pi x), num.fdiv (num.fsin (num.fmul num.pi x)) (num.fmul num.pi x)]

/-- The values one of the two terms of rule R99 computes, for the edge `f` and the distance `d`. -/
def sincTermParts (num : Num F) (f d : F) : List F :=
  let x := num.fmul (num.fmul (num.fconst 2 1) f) d
  [num.fmul (num.fconst 2 1) f, x] ++ sincParts num x ++ [num.fmul (num.fmul (num.fconst 2 1) f) (sinc num x)]

/-- The values the band-pass response computes (rule R99). -/
def bandpassParts (num : Num F) (win : List F) (t : Nat) (fL fH : F) : List F :=
  ((List.range t).flatMap fun (n : Nat) =>
    let d := num.ofInt ((n : Int) - (centreTap t : Int))
    let a := num.fmul (num.fmul (num.fconst 2 1) fH) (sinc num (num.fmul (num.fmul (num.fconst 2 1) fH) d))
    let b := num.fmul (num.fmul (num.fconst 2 1) fL) (sinc num (num.fmul (num.fmul (num.fconst 2 1) fL) d))
    [d] ++ sincTermParts num fH d ++ sincTermParts num fL d ++ [num.fsub a b]) ++
  bandpass num win t fL fH

/-- The values the sums of rule R100 compute, from tap `n` on. -/
def dftParts (num : Num F) (fcn : F) : List F → Nat → F × F → List F
  | [], _, _ => []
  | x :: bp, n, (re, im) =>
    let w := num.fmul (num.fmul (num.fconst 2 1) num.pi) fcn
    let ph := num.fmul w (num.ofInt n)
    let c := num.fmul x (num.fcos ph)
    let s := num.fmul x (num.fsin ph)
    [num.fmul (num.fconst 2 1) num.pi, w, num.ofInt n, ph, num.fcos ph, c, num.fadd re c, num.fsin ph, s, num.fadd im s] ++
      dftParts num fcn bp (n + 1) (num.fadd re c, num.fadd im s)

/-- The values the magnitude at the centre computes (rule R100). -/
def bpMagParts (num : Num F) (bp : List F) (fc srf : F) : List F :=
  let fcn := num.fdiv fc srf
  let z := dftFrom num fcn bp 0 (num.fconst 0 1, num.fconst 0 1)
  [fcn] ++ dftParts num fcn bp 0 (num.fconst 0 1, num.fconst 0 1) ++
    [num.fmul z.1 z.1, num.fmul z.2 z.2, num.fadd (num.fmul z.1 z.1) (num.fmul z.2 z.2), bpMag num bp fc srf]

/-- The values the accumulation computes (rule R102). -/
def accumulateParts (num : Num F) (tf bp : List F) (norm lin : F) : List F :=
  bp.flatMap (fun b => [num.fmul b norm, num.fmul (num.fmul b norm) lin]) ++ accumulate num tf bp norm lin

/-- The values that rules R96 and R97 compute for the centre `fc`. -/
def edgeParts (num : Num F) (t : Nat) (fc srf : F) : List F :=
  let lo := (edges0 num fc).1
  let hi := (edges0 num fc).2
  let minbw := num.fdiv (num.fmul (num.fconst 4 1) srf) (num.ofInt t)
  let mid := num.fdiv (num.fadd lo hi) (num.fconst 2 1)
  let half := num.fdiv minbw (num.fconst 2 1)
  [lo, hi, num.fmul (num.fconst 4 1) srf, num.ofInt t, minbw, num.fsub hi lo] ++
  (if num.flt (num.fsub hi lo) minbw then
    [num.fadd lo hi, mid, half, num.fsub mid half, num.fadd mid half] else []) ++
  [(widen num t lo hi srf).1, (widen num t lo hi srf).2]

/-- The values the body of the loop computes, for one band of gain `g` and centre `fc` (rule R104). -/
def bandParts (num : Num F) (p : Params) (win : List F) (srf : F) (tf : List F) (g fc : F) : List F :=
  let e := widen num p.numTaps (edges0 num fc).1 (edges0 num fc).2 srf
  let bp := bandpass num win p.numTaps (num.fdiv e.1 srf) (num.fdiv e.2 srf)
  g :: num.fabs g ::
  if negligible num g then []
  else
    [num.fdiv g (num.fconst 20 1), num.fpow10 (num.fdiv g (num.fconst 20 1)), linDelta num g] ++
    edgeParts num p.numTaps fc srf ++
    if num.fle e.2 e.1 then []
    else
      [num.fdiv e.1 srf, num.fdiv e.2 srf] ++
      if usable num e.1 e.2 srf then
        bandpassParts num win p.numTaps (num.fdiv e.1 srf) (num.fdiv e.2 srf) ++ bpMagParts num bp fc srf ++
        [normFactor num p (bpMag num bp fc srf)] ++
        accumulateParts num tf bp (normFactor num p (bpMag num bp fc srf)) (linDelta num g)
      else []

/-- The values the loop over the bands computes. -/
def bandsParts (num : Num F) (p : Params) (win : List F) (srf : F) : List F → List F → List F → List F
  | tf, g :: gs, fc :: fcs =>
    bandParts num p win srf tf g fc ++ bandsParts num p win srf (addBand num p win srf tf g fc) gs fcs
  | _, _, _ => []

/-- The values the designer computes (rule R104), down to the products that are rounded (rule R103). -/
def designParts (num : Num F) (p : Params) (gains freqs : List F) (sr : Int) (win : List F) : List F :=
  let srf := num.ofInt sr
  [srf] ++ impulse num p.numTaps ++ bandsParts num p win srf (impulse num p.numTaps) gains freqs ++
    (addBands num p win srf (impulse num p.numTaps) gains freqs).map fun x => num.fmul x (num.fconst 32767 1)

/-! ### Condition 5: the divisors -/

/-- Not zero: on one side of 0 in the order of rule R91. -/
def nonZero (num : Num F) (x : F) : Bool := num.flt (num.fconst 0 1) x || num.flt x (num.fconst 0 1)

/-- What the band plan divides by (rules R80 and R81). -/
def bandPlanDivisors (num : Num F) (n : Nat) : List F :=
  num.fconst 2 1 :: if n = 1 then [] else [num.ofInt ((n : Int) - 1)]

/-- What the window divides by (rule R84). -/
def windowDivisors (num : Num F) (t : Nat) : List F := [num.ofInt ((t : Int) - 1)]

/-- What `sinc` divides by (rule R99). -/
def sincDivisors (num : Num F) (x : F) : List F :=
  if num.flt (num.fabs x) (num.fconst 1 100000000) then [] else [num.fmul num.pi x]

/-- What the band-pass response divides by (rule R99). -/
def bandpassDivisors (num : Num F) (t : Nat) (fL fH : F) : List F :=
  (List.range t).flatMap fun (n : Nat) =>
    let d := num.ofInt ((n : Int) - (centreTap t : Int))
    sincDivisors num (num.fmul (num.fmul (num.fconst 2 1) fH) d) ++
      sincDivisors num (num.fmul (num.fmul (num.fconst 2 1) fL) d)

/-- What the normalisation divides by (rule R101). -/
def normDivisors (num : Num F) (p : Params) (mag : F) : List F :=
  if num.flt mag (num.fconst p.magEpsNum p.magEpsDen) then [] else [mag]

/-- What the body of the loop divides by, for one band of gain `g` and centre `fc` (rule R104). -/
def bandDivisors (num : Num F) (p : Params) (win : List F) (srf g fc : F) : List F :=
  let e := widen num p.numTaps (edges0 num fc).1 (edges0 num fc).2 srf
  let fL := num.fdiv e.1 srf
  let fH := num.fdiv e.2 srf
  if negligible num g then []
  else [num.fconst 20 1, num.ofInt p.numTaps, num.fconst 2 1, srf] ++
    if usable num e.1 e.2 srf then
      bandpassDivisors num p.numTaps fL fH ++ normDivisors num p (bpMag num (bandpass num win p.numTaps fL fH) fc srf)
    else []

/-- What the designer divides by (rule R104). -/
def designDivisors (num : Num F) (p : Params) (gains freqs : List F) (sr : Int) (win : List F) : List F :=
  (gains.zip freqs).flatMap fun b => bandDivisors num p win (num.ofInt sr) b.1 b.2

end Sys2Proof.Machine

namespace Sys2Proof

open Sys2Proof.Machine

/-- Condition 5 of rule R91, with the ranges of rules R83 and R108: the literals are finite, and whatever the sample
rate and the gains, every value that BEGIN and E-DESIGN compute is finite and nothing is divided by zero. The centre
frequencies and the window are those that BEGIN stores. -/
def Num.StaysFinite {F : Type} (num : Num F) (p : Params) : Prop :=
  (∀ x ∈ literals num p, num.isFinite x = true) ∧
  (∀ x ∈ windowParts num p.numTaps, num.isFinite x = true) ∧
  (∀ d ∈ windowDivisors num p.numTaps, nonZero num d = true) ∧
  ∀ sr : Int, 1 ≤ sr → sr < 2 ^ 31 →
    (∀ x ∈ bandPlanParts num sr p.numBands, num.isFinite x = true) ∧
    (∀ d ∈ bandPlanDivisors num p.numBands, nonZero num d = true) ∧
    ∀ gains : List F, gains.length = p.numBands → (∀ g ∈ gains, gainInRange num g = true) →
      (∀ x ∈ designParts num p gains (bandPlan num sr p.numBands) sr (window num p.numTaps), num.isFinite x = true) ∧
      ∀ d ∈ designDivisors num p gains (bandPlan num sr p.numBands) sr (window num p.numTaps), nonZero num d = true

end Sys2Proof
end

