-- ==== Sys2Proof/Machine/Float.lean ====
section
/-! DEFINITION. Binary32 arithmetic on bit patterns, the decision value of the numerics record `NUM` (rules
R67 and R90; log 2): every operation computes on exact integers and rounds once, to nearest, ties to even. -/

namespace Sys2Proof.Machine

/-! ### The parts of a pattern (rule R67) -/

/-- The sign bit, bit 31. -/
def sign32 (a : F32) : Bool := a.getLsbD 31
/-- The biased exponent, bits 30:23. -/
def exp32 (a : F32) : Nat := (a.extractLsb' 23 8).toNat
/-- The fraction, bits 22:0. -/
def frac32 (a : F32) : Nat := (a.extractLsb' 0 23).toNat

/-- Exponent 255 and a non-zero fraction. -/
def isNaN32 (a : F32) : Bool := exp32 a == 255 && frac32 a != 0
/-- Exponent 255 and a zero fraction. -/
def isInf32 (a : F32) : Bool := exp32 a == 255 && frac32 a == 0
/-- Neither a NaN nor an infinity. -/
def isFinite32 (a : F32) : Bool := exp32 a != 255
/-- Plus or minus zero. -/
def isZero32 (a : F32) : Bool := exp32 a == 0 && frac32 a == 0

/-- The magnitude of a finite value, in units of 2^-149: an exact integer. -/
def units32 (a : F32) : Nat :=
  if exp32 a = 0 then frac32 a else (2 ^ 23 + frac32 a) * 2 ^ (exp32 a - 1)

/-- A finite value in units of 2^-149. -/
def signedUnits32 (a : F32) : Int := if sign32 a then -(units32 a : Int) else units32 a

/-! ### Building patterns -/

/-- A pattern from its sign and its low 31 bits. -/
def pack32 (neg : Bool) (low : Nat) : F32 := BitVec.ofNat 32 ((if neg then 2 ^ 31 else 0) + low)

/-- Plus or minus infinity. -/
def inf32 (neg : Bool) : F32 := pack32 neg (255 * 2 ^ 23)

/-- The NaN an invalid operation gives: quiet, its sign and payload free (log 4). -/
def invalid32 (a b : F32) : F32 := Config.nanBits a b ||| 0x7FC00000

/-- Whether `q + r/d` rounds up to `q + 1` at the nearest integer, ties to even. -/
def roundsUp (q r d : Nat) : Bool := decide (d < 2 * r) || (decide (2 * r = d) && q % 2 == 1)

/-- The binary32 value nearest to `num / den` in magnitude, ties to even, with this sign. The quotient is taken
in units of 2^-149; a value of `L` bits above 24 keeps its top 24, and overflow gives infinity. -/
def roundRatio (neg : Bool) (num den : Nat) : F32 :=
  let x := num * 2 ^ 149
  let shift := Nat.log2 (x / den) - 23
  let d := den * 2 ^ shift
  let q := x / d
  let m := if roundsUp q (x % d) d then q + 1 else q
  let low := shift * 2 ^ 23 + m
  if 255 * 2 ^ 23 ≤ low then inf32 neg else pack32 neg low

/-! ### The operations of rule R90 -/

/-- The float nearest to the real number `num / den`. -/
def fconst32 (num : Int) (den : Nat) : F32 := roundRatio (decide (num < 0)) num.natAbs den

/-- The float nearest to the real number pi (log 6). -/
def pi32 : F32 := 0x40490FDB

/-- The float nearest to an integer. -/
def ofInt32 (k : Int) : F32 := fconst32 k 1

/-- The same magnitude with the other sign. -/
def neg32 (a : F32) : F32 := a ^^^ 0x80000000

/-- Absolute value: the sign bit cleared. -/
def fabs32 (a : F32) : F32 := a &&& 0x7FFFFFFF

/-- Sum. -/
def fadd32 (a b : F32) : F32 :=
  if isNaN32 a || isNaN32 b then invalid32 a b
  else if isInf32 a then (if isInf32 b && sign32 a != sign32 b then invalid32 a b else a)
  else if isInf32 b then b
  else
    let z := signedUnits32 a + signedUnits32 b
    if z = 0 then pack32 (sign32 a && sign32 b) 0
    else roundRatio (decide (z < 0)) z.natAbs (2 ^ 149)

/-- Difference. -/
def fsub32 (a b : F32) : F32 := fadd32 a (neg32 b)

/-- Product. -/
def fmul32 (a b : F32) : F32 :=
  let neg := sign32 a != sign32 b
  if isNaN32 a || isNaN32 b then invalid32 a b
  else if isInf32 a || isInf32 b then (if isZero32 a || isZero32 b then invalid32 a b else inf32 neg)
  else roundRatio neg (units32 a * units32 b) (2 ^ 149 * 2 ^ 149)

/-- Quotient. -/
def fdiv32 (a b : F32) : F32 :=
  let neg := sign32 a != sign32 b
  if isNaN32 a || isNaN32 b then invalid32 a b
  else if isInf32 a then (if isInf32 b then invalid32 a b else inf32 neg)
  else if isInf32 b then pack32 neg 0
  else if isZero32 b then (if isZero32 a then invalid32 a b else inf32 neg)
  else roundRatio neg (units32 a) (units32 b)

/-- The integer square root, found bit by bit: `r` is the root of the bits above position `k`. -/
def isqrtFrom : Nat → Nat → Nat → Nat
  | 0, _, r => r
  | k + 1, n, r => isqrtFrom k n (if (r + 2 ^ k) * (r + 2 ^ k) ≤ n then r + 2 ^ k else r)

/-- Square root. In half units of 2^-149 the root is `2 * r`, plus one when it is not exact. -/
def fsqrt32 (a : F32) : F32 :=
  if isNaN32 a then invalid32 a a
  else if isZero32 a then a
  else if sign32 a then invalid32 a a
  else if isInf32 a then a
  else
    let n := units32 a * 2 ^ 149
    let r := isqrtFrom 214 n 0
    roundRatio false (2 * r + if r * r = n then 0 else 1) (2 * 2 ^ 149)

/-- The place of a value in the usual order of the non-NaN values; the two zeros have one place. -/
def orderKey32 (a : F32) : Int :=
  let low : Int := (a.extractLsb' 0 31).toNat
  if sign32 a then -low else low

/-- `a < b`; false if either is a NaN (rule R91). -/
def flt32 (a b : F32) : Bool := !isNaN32 a && !isNaN32 b && decide (orderKey32 a < orderKey32 b)

/-- `a <= b`; false if either is a NaN (rule R91). -/
def fle32 (a b : F32) : Bool := !isNaN32 a && !isNaN32 b && decide (orderKey32 a ≤ orderKey32 b)

/-- The nearest integer, ties away from zero (rule R90). -/
def fround32 (a : F32) : Rounded :=
  if isNaN32 a then .nan
  else if isInf32 a then (if sign32 a then .negInf else .posInf)
  else
    let m : Int := ((2 * units32 a + 2 ^ 149) / (2 * 2 ^ 149) : Nat)
    .int (if sign32 a then -m else m)

end Sys2Proof.Machine
end

