-- ==== Sys2Proof/Machine/Numerics.lean ====
section
/-! DEFINITION. The decision value of the numerics record `NUM` (rule R90; log 2): binary32, over any four functions
in the places that rule R90 leaves open, and the same record on the numbers that stand for floats in the state. -/

namespace Sys2Proof.Machine

/-- The four functions rule R90 leaves open: "each is a named total function of the model's configuration". -/
structure OpenFns where
  sin : F32 → F32
  cos : F32 → F32
  log10 : F32 → F32
  pow10 : F32 → F32

/-- The decision value of `NUM`, with these functions in the open places (rule R90). -/
def binary32 (f : OpenFns) : Num F32 where
  fconst := fconst32
  pi := pi32
  ofInt := ofInt32
  fadd := fadd32
  fsub := fsub32
  fmul := fmul32
  fdiv := fdiv32
  fsqrt := fsqrt32
  fsin := f.sin
  fcos := f.cos
  flog10 := f.log10
  fpow10 := f.pow10
  fabs := fabs32
  flt := flt32
  fle := fle32
  fround := fround32
  ofBits32 := id
  toBits32 := id
  isNaN := isNaN32
  isFinite := isFinite32

end Sys2Proof.Machine

namespace Sys2Proof

/-- The pattern a number stands for under binary32. -/
def Flt.bits (x : Flt) : F32 := BitVec.ofNat 32 x.code

/-- The number that stands for a pattern. -/
def Flt.ofBits (w : F32) : Flt := ⟨w.toNat⟩

@[simp] theorem Flt.bits_ofBits (w : F32) : (Flt.ofBits w).bits = w := by simp [Flt.bits, Flt.ofBits]

/-- A record on patterns as a record on the numbers that stand for them. -/
def Num.coded (nm : Num F32) : Num Flt where
  fconst k d := Flt.ofBits (nm.fconst k d)
  pi := Flt.ofBits nm.pi
  ofInt k := Flt.ofBits (nm.ofInt k)
  fadd a b := Flt.ofBits (nm.fadd a.bits b.bits)
  fsub a b := Flt.ofBits (nm.fsub a.bits b.bits)
  fmul a b := Flt.ofBits (nm.fmul a.bits b.bits)
  fdiv a b := Flt.ofBits (nm.fdiv a.bits b.bits)
  fsqrt a := Flt.ofBits (nm.fsqrt a.bits)
  fsin a := Flt.ofBits (nm.fsin a.bits)
  fcos a := Flt.ofBits (nm.fcos a.bits)
  flog10 a := Flt.ofBits (nm.flog10 a.bits)
  fpow10 a := Flt.ofBits (nm.fpow10 a.bits)
  fabs a := Flt.ofBits (nm.fabs a.bits)
  flt a b := nm.flt a.bits b.bits
  fle a b := nm.fle a.bits b.bits
  fround a := nm.fround a.bits
  ofBits32 w := Flt.ofBits (nm.ofBits32 w)
  toBits32 a := nm.toBits32 a.bits
  isNaN a := nm.isNaN a.bits
  isFinite a := nm.isFinite a.bits

end Sys2Proof
end

