-- ==== Sys2Proof/Machine/Bounds.lean ====
section
/-! DEFINITION. How large the binary32 operations of rule R90 can come out. Condition 5 of rule R91 is about this, and
the file that introduces the four open functions rests on it. -/

namespace Sys2Proof.Machine

/-! ### The parts of a pattern, as numbers -/

theorem exp32_eq (a : F32) : exp32 a = a.toNat / 2 ^ 23 % 256 := by
  simp [exp32, BitVec.extractLsb'_toNat, Nat.shiftRight_eq_div_pow]

theorem frac32_eq (a : F32) : frac32 a = a.toNat % 2 ^ 23 := by
  simp [frac32, BitVec.extractLsb'_toNat]

theorem sign32_eq (a : F32) : sign32 a = decide (2 ^ 31 ≤ a.toNat) := by
  have h := a.isLt
  rw [sign32, BitVec.getLsbD, Nat.testBit_eq_decide_div_mod_eq, decide_eq_decide]
  omega

theorem low32_eq (a : F32) : (a.extractLsb' 0 31).toNat = a.toNat % 2 ^ 31 := by
  simp [BitVec.extractLsb'_toNat]

theorem pack32_toNat (neg : Bool) (low : Nat) (h : low < 2 ^ 31) :
    (pack32 neg low).toNat = (if neg then 2 ^ 31 else 0) + low := by
  cases neg <;> simp [pack32, BitVec.toNat_ofNat] <;> omega

@[simp] theorem sign32_pack32 (neg : Bool) {low : Nat} (h : low < 2 ^ 31) : sign32 (pack32 neg low) = neg := by
  rw [sign32_eq, pack32_toNat neg low h]; cases neg <;> simp <;> omega

theorem exp32_pack32 (neg : Bool) {low : Nat} (h : low < 2 ^ 31) : exp32 (pack32 neg low) = low / 2 ^ 23 := by
  rw [exp32_eq, pack32_toNat neg low h]; cases neg <;> (simp; omega)

theorem frac32_pack32 (neg : Bool) {low : Nat} (h : low < 2 ^ 31) : frac32 (pack32 neg low) = low % 2 ^ 23 := by
  rw [frac32_eq, pack32_toNat neg low h]; cases neg <;> simp <;> omega

theorem exp32_le (a : F32) : exp32 a ≤ 255 := by rw [exp32_eq]; omega

theorem frac32_lt (a : F32) : frac32 a < 2 ^ 23 := by rw [frac32_eq]; omega

/-- The low 31 bits are exponent and fraction. -/
theorem low32_parts (a : F32) : (a.extractLsb' 0 31).toNat = exp32 a * 2 ^ 23 + frac32 a := by
  rw [low32_eq, exp32_eq, frac32_eq]; omega

/-! ### NaNs and infinities -/

/-- An infinity is no NaN. -/
@[simp] theorem isNaN32_inf32 (neg : Bool) : isNaN32 (inf32 neg) = false := by cases neg <;> decide

/-- A pattern whose low bits stay below those of infinity is finite. -/
theorem isFinite32_pack32 (neg : Bool) {low : Nat} (h : low < 255 * 2 ^ 23) : isFinite32 (pack32 neg low) = true := by
  rw [isFinite32, exp32_pack32 neg (by omega)]; simp; omega

theorem isNaN32_of_finite {a : F32} (h : isFinite32 a = true) : isNaN32 a = false := by
  simp_all [isFinite32, isNaN32]

theorem isInf32_of_finite {a : F32} (h : isFinite32 a = true) : isInf32 a = false := by
  simp_all [isFinite32, isInf32]

/-- A finite value is zero exactly when its magnitude is. -/
theorem isZero32_iff {a : F32} : isZero32 a = true ↔ isFinite32 a = true ∧ units32 a = 0 := by
  by_cases h : exp32 a = 0
  · simp [isZero32, isFinite32, units32, h]
  · simp [isZero32, isFinite32, units32, h]

/-! ### Rounding -/

/-- The magnitude of a packed significand and shift. -/
theorem units32_pack32 (neg : Bool) {sh m : Nat} (hm : m ≤ 2 ^ 24) (h : sh = 0 ∨ 2 ^ 23 ≤ m)
    (hl : sh * 2 ^ 23 + m < 255 * 2 ^ 23) : units32 (pack32 neg (sh * 2 ^ 23 + m)) = m * 2 ^ sh := by
  rw [units32, exp32_pack32 neg (by omega), frac32_pack32 neg (by omega)]
  by_cases h1 : m < 2 ^ 23
  · have hs : sh = 0 := by omega
    subst hs
    rw [if_pos (by omega)]; omega
  · by_cases h2 : m = 2 ^ 24
    · have e1 : (sh * 2 ^ 23 + m) / 2 ^ 23 = sh + 2 := by omega
      have e2 : (sh * 2 ^ 23 + m) % 2 ^ 23 = 0 := by omega
      rw [e1, e2, if_neg (by omega), h2, show sh + 2 - 1 = sh + 1 by omega, pow_succ]; ring
    · have e1 : (sh * 2 ^ 23 + m) / 2 ^ 23 = sh + 1 := by omega
      have e2 : (sh * 2 ^ 23 + m) % 2 ^ 23 = m - 2 ^ 23 := by omega
      rw [e1, e2, if_neg (by omega), show sh + 1 - 1 = sh by omega, show 2 ^ 23 + (m - 2 ^ 23) = m by omega]

/-- What rounding a ratio does: in units of 2^-149 the ratio `x / den` is divided by a power of two so that at most 24
bits are left, the quotient is rounded to `m`, and the result is `m` times that power, or an infinity. -/
theorem roundRatio_spec (neg : Bool) (num den : Nat) :
    ∃ sh m, let q := num * 2 ^ 149 / (den * 2 ^ sh)
      sh = Nat.log2 (num * 2 ^ 149 / den) - 23 ∧ q < 2 ^ 24 ∧ (sh = 0 ∨ 2 ^ 23 ≤ q) ∧
      m = (if roundsUp q (num * 2 ^ 149 % (den * 2 ^ sh)) (den * 2 ^ sh) then q + 1 else q) ∧
      (255 * 2 ^ 23 ≤ sh * 2 ^ 23 + m → roundRatio neg num den = inf32 neg) ∧
      (sh * 2 ^ 23 + m < 255 * 2 ^ 23 → roundRatio neg num den = pack32 neg (sh * 2 ^ 23 + m) ∧
        isFinite32 (roundRatio neg num den) = true ∧ units32 (roundRatio neg num den) = m * 2 ^ sh) := by
  obtain ⟨v, hv⟩ : ∃ v, v = num * 2 ^ 149 / den := ⟨_, rfl⟩
  obtain ⟨sh, hsh⟩ : ∃ sh, sh = Nat.log2 v - 23 := ⟨_, rfl⟩
  have hq : num * 2 ^ 149 / (den * 2 ^ sh) = v / 2 ^ sh := by rw [hv, Nat.div_div_eq_div_mul]
  have hlt : v < 2 ^ (Nat.log2 v + 1) := Nat.lt_log2_self
  have hq1 : v / 2 ^ sh < 2 ^ 24 := by
    rw [Nat.div_lt_iff_lt_mul (by positivity), ← pow_add]
    exact lt_of_lt_of_le hlt (Nat.pow_le_pow_right (by decide) (by omega))
  have hq2 : sh = 0 ∨ 2 ^ 23 ≤ v / 2 ^ sh := by
    by_cases h0 : sh = 0
    · exact .inl h0
    · right
      have hne : v ≠ 0 := by rintro rfl; simp at hsh; omega
      rw [Nat.le_div_iff_mul_le (by positivity), ← pow_add, show 23 + sh = Nat.log2 v by omega]
      exact Nat.log2_self_le hne
  obtain ⟨m, hm⟩ : ∃ m, m = if roundsUp (num * 2 ^ 149 / (den * 2 ^ sh)) (num * 2 ^ 149 % (den * 2 ^ sh))
      (den * 2 ^ sh) then num * 2 ^ 149 / (den * 2 ^ sh) + 1 else num * 2 ^ 149 / (den * 2 ^ sh) := ⟨_, rfl⟩
  have hr : roundRatio neg num den =
      if 255 * 2 ^ 23 ≤ sh * 2 ^ 23 + m then inf32 neg else pack32 neg (sh * 2 ^ 23 + m) := by
    rw [hm, hsh, hv]; rfl
  refine ⟨sh, m, by rw [hsh, hv], by rw [hq]; exact hq1, by rw [hq]; exact hq2, hm, fun h => ?_, fun h => ?_⟩
  · rw [hr]; exact if_pos h
  · have e : roundRatio neg num den = pack32 neg (sh * 2 ^ 23 + m) := by
      rw [hr]; exact if_neg (Nat.not_le.mpr h)
    refine ⟨e, ?_, ?_⟩
    · rw [e]; exact isFinite32_pack32 neg h
    · rw [e]
      refine units32_pack32 neg ?_ ?_ h
      · rw [hm, hq]; split <;> omega
      · rcases hq2 with h0 | h0
        · exact .inl h0
        · right; rw [hm, hq]; split <;> omega

/-- A ratio of zero rounds to zero. -/
theorem roundRatio_zero (neg : Bool) (den : Nat) : roundRatio neg 0 den = pack32 neg 0 := by
  have hl : Nat.log2 0 = 0 := by decide
  unfold roundRatio
  cases den with
  | zero => simp [hl, roundsUp]
  | succ n => simp [hl, roundsUp]

/-- Rounding a ratio gives an infinity of its sign or a finite pattern of its sign. -/
theorem roundRatio_cases (neg : Bool) (num den : Nat) :
    roundRatio neg num den = inf32 neg ∨ ∃ low, low < 255 * 2 ^ 23 ∧ roundRatio neg num den = pack32 neg low := by
  unfold roundRatio
  dsimp only
  by_cases h : 255 * 2 ^ 23 ≤ (Nat.log2 (num * 2 ^ 149 / den) - 23) * 2 ^ 23 +
      (if roundsUp (num * 2 ^ 149 / (den * 2 ^ (Nat.log2 (num * 2 ^ 149 / den) - 23)))
        (num * 2 ^ 149 % (den * 2 ^ (Nat.log2 (num * 2 ^ 149 / den) - 23)))
        (den * 2 ^ (Nat.log2 (num * 2 ^ 149 / den) - 23)) = true
      then num * 2 ^ 149 / (den * 2 ^ (Nat.log2 (num * 2 ^ 149 / den) - 23)) + 1
      else num * 2 ^ 149 / (den * 2 ^ (Nat.log2 (num * 2 ^ 149 / den) - 23)))
  · exact .inl (if_pos h)
  · exact .inr ⟨_, Nat.lt_of_not_le h, if_neg h⟩

/-- Rounding a ratio never gives a NaN. -/
@[simp] theorem isNaN32_roundRatio (neg : Bool) (num den : Nat) : isNaN32 (roundRatio neg num den) = false := by
  rcases roundRatio_cases neg num den with h | ⟨low, hl, h⟩ <;> rw [h]
  · exact isNaN32_inf32 neg
  · exact isNaN32_of_finite (isFinite32_pack32 neg hl)

/-- Rounding a ratio keeps its sign. -/
@[simp] theorem sign32_roundRatio (neg : Bool) (num den : Nat) : sign32 (roundRatio neg num den) = neg := by
  rcases roundRatio_cases neg num den with h | ⟨low, hl, h⟩ <;> rw [h]
  · cases neg <;> decide
  · exact sign32_pack32 neg (by omega)

/-! ### Bounds -/

/-- Finite, and at most `2 ^ k` in magnitude. -/
def Bounded32 (a : F32) (k : Nat) : Prop := isFinite32 a = true ∧ units32 a ≤ 2 ^ (149 + k)

theorem Bounded32.mono {a : F32} {j k : Nat} (h : Bounded32 a j) (hk : j ≤ k) : Bounded32 a k :=
  ⟨h.1, le_trans h.2 (Nat.pow_le_pow_right (by decide) (by omega))⟩

theorem bounded32_of_zero {a : F32} (h : isZero32 a = true) (k : Nat) : Bounded32 a k := by
  rw [isZero32_iff] at h
  exact ⟨h.1, by rw [h.2]; exact Nat.zero_le _⟩

/-- A ratio of at most `2 ^ k` rounds to at most `2 ^ k`. -/
theorem bounded32_roundRatio (neg : Bool) {num den k : Nat} (hd : 0 < den) (hk : k ≤ 126) (h : num ≤ 2 ^ k * den) :
    Bounded32 (roundRatio neg num den) k := by
  obtain ⟨sh, m, hsh, hq1, hq2, hm, -, hfin⟩ := roundRatio_spec neg num den
  obtain ⟨v, hv⟩ : ∃ v, v = num * 2 ^ 149 / den := ⟨_, rfl⟩
  rw [← hv] at hsh
  have hvle : v ≤ 2 ^ (149 + k) := by
    rw [hv]
    refine Nat.div_le_of_le_mul ?_
    calc num * 2 ^ 149 ≤ 2 ^ k * den * 2 ^ 149 := Nat.mul_le_mul_right _ h
      _ = den * 2 ^ (149 + k) := by rw [pow_add]; ring
  have hlog : Nat.log2 v ≤ 149 + k := by
    by_cases h0 : v = 0
    · rw [h0]; simp
    · exact (Nat.log2_lt h0).mpr (lt_of_le_of_lt hvle (Nat.pow_lt_pow_right (by decide) (by omega))) |> Nat.lt_succ_iff.mp
  have hm1 : m ≤ 2 ^ 24 := by rw [hm]; split <;> omega
  obtain ⟨-, h1, h2⟩ := hfin (by omega)
  refine ⟨h1, ?_⟩
  rw [h2]
  by_cases hc : 24 + sh ≤ 149 + k
  · calc m * 2 ^ sh ≤ 2 ^ 24 * 2 ^ sh := Nat.mul_le_mul_right _ hm1
      _ = 2 ^ (24 + sh) := (pow_add 2 24 sh).symm
      _ ≤ 2 ^ (149 + k) := Nat.pow_le_pow_right (by decide) hc
  · have e1 : 23 + sh = 149 + k := by omega
    have hne : v ≠ 0 := by rintro rfl; simp at hsh; omega
    have hge : 2 ^ (149 + k) ≤ v := by
      rw [← e1, show 23 + sh = Nat.log2 v by omega]; exact Nat.log2_self_le hne
    have hx : num * 2 ^ 149 = 2 ^ 23 * (den * 2 ^ sh) := by
      apply le_antisymm
      · calc num * 2 ^ 149 ≤ 2 ^ k * den * 2 ^ 149 := Nat.mul_le_mul_right _ h
          _ = den * 2 ^ (149 + k) := by rw [pow_add]; ring
          _ = 2 ^ 23 * (den * 2 ^ sh) := by rw [← e1, pow_add]; ring
      · calc 2 ^ 23 * (den * 2 ^ sh) = 2 ^ (149 + k) * den := by rw [← e1, pow_add]; ring
          _ ≤ v * den := Nat.mul_le_mul_right _ hge
          _ ≤ num * 2 ^ 149 := by rw [hv]; exact Nat.div_mul_le_self _ _
    have hdp : 0 < den * 2 ^ sh := by positivity
    have hmq : m = 2 ^ 23 := by
      rw [hm, hx, Nat.mul_div_cancel _ hdp, Nat.mul_mod_left]
      rw [if_neg]
      simp only [roundsUp, Nat.mul_zero, Bool.or_eq_true, decide_eq_true_eq, Bool.and_eq_true]
      omega
    rw [hmq, ← pow_add, e1]

/-- A ratio of at least 1 rounds to at least 1. -/
theorem one_le_roundRatio (neg : Bool) {num den : Nat} (hd : 0 < den) (h : den ≤ num)
    (hf : isFinite32 (roundRatio neg num den) = true) : 2 ^ 149 ≤ units32 (roundRatio neg num den) := by
  obtain ⟨sh, m, hsh, hq1, hq2, hm, hinf, hfin⟩ := roundRatio_spec neg num den
  by_cases hl : sh * 2 ^ 23 + m < 255 * 2 ^ 23
  · obtain ⟨-, -, h2⟩ := hfin hl
    have hv : 2 ^ 149 ≤ num * 2 ^ 149 / den := by
      rw [Nat.le_div_iff_mul_le hd, mul_comm]; exact Nat.mul_le_mul_right _ h
    have hlog : 149 ≤ Nat.log2 (num * 2 ^ 149 / den) := (Nat.le_log2 (by
      have : 0 < 2 ^ 149 := by positivity
      omega)).mpr hv
    rw [h2]
    have : 2 ^ 23 ≤ m := by rw [hm]; split <;> omega
    calc 2 ^ 149 = 2 ^ 23 * 2 ^ 126 := by norm_num
      _ ≤ m * 2 ^ sh := Nat.mul_le_mul this (Nat.pow_le_pow_right (by decide) (by omega))
  · rw [hinf (by omega)] at hf
    cases neg <;> simp [isFinite32, inf32] at hf <;> exact absurd hf (by decide)

/-- A ratio of at least one unit of 2^-149 rounds to no zero. -/
theorem roundRatio_pos (neg : Bool) {num den : Nat} (hd : 0 < den) (h : den ≤ num * 2 ^ 149)
    (hf : isFinite32 (roundRatio neg num den) = true) : 0 < units32 (roundRatio neg num den) := by
  obtain ⟨sh, m, hsh, hq1, hq2, hm, hinf, hfin⟩ := roundRatio_spec neg num den
  by_cases hl : sh * 2 ^ 23 + m < 255 * 2 ^ 23
  · obtain ⟨-, -, h2⟩ := hfin hl
    have hv : 1 ≤ num * 2 ^ 149 / den := (Nat.one_le_div_iff hd).mpr h
    have hm0 : 0 < m := by
      rcases hq2 with h0 | h0
      · subst h0
        rw [hm, pow_zero, Nat.mul_one]; split <;> omega
      · rw [hm]; split <;> omega
    rw [h2]; positivity
  · rw [hinf (by omega)] at hf
    cases neg <;> exact absurd hf (by decide)

/-! ### The order of magnitudes -/

/-- Greater low bits mean a greater magnitude. -/
theorem units32_lt {a b : F32} (h : (a.extractLsb' 0 31).toNat < (b.extractLsb' 0 31).toNat) :
    units32 a < units32 b := by
  rw [low32_parts, low32_parts] at h
  have ha := frac32_lt a
  have hb := frac32_lt b
  by_cases he : exp32 a = exp32 b
  · have hf : frac32 a < frac32 b := by rw [he] at h; omega
    by_cases h0 : exp32 b = 0
    · rw [units32, units32, if_pos (by omega), if_pos h0]; exact hf
    · rw [units32, units32, if_neg (by omega), if_neg h0, he]
      exact Nat.mul_lt_mul_of_pos_right (by omega) (by positivity)
  · have hlt : exp32 a < exp32 b := by omega
    have hB : 2 ^ 23 * 2 ^ (exp32 b - 1) ≤ units32 b := by
      rw [units32, if_neg (by omega)]; exact Nat.mul_le_mul_right _ (by omega)
    refine lt_of_lt_of_le ?_ hB
    by_cases h0 : exp32 a = 0
    · rw [units32, if_pos h0]
      exact lt_of_lt_of_le ha (Nat.le_mul_of_pos_right _ (by positivity))
    · rw [units32, if_neg h0]
      calc (2 ^ 23 + frac32 a) * 2 ^ (exp32 a - 1) < 2 ^ 24 * 2 ^ (exp32 a - 1) :=
            Nat.mul_lt_mul_of_pos_right (by omega) (by positivity)
        _ = 2 ^ (23 + exp32 a) := by rw [← pow_add]; congr 1; omega
        _ ≤ 2 ^ (23 + (exp32 b - 1)) := Nat.pow_le_pow_right (by decide) (by omega)
        _ = 2 ^ 23 * 2 ^ (exp32 b - 1) := pow_add _ _ _

/-- Equal low bits mean equal magnitudes. -/
theorem units32_congr {a b : F32} (h : (a.extractLsb' 0 31).toNat = (b.extractLsb' 0 31).toNat) :
    units32 a = units32 b := by
  have ha := frac32_lt a
  have hb := frac32_lt b
  rw [low32_parts, low32_parts] at h
  have he : exp32 a = exp32 b := by omega
  rw [units32, units32, he, show frac32 a = frac32 b by omega]

/-- Magnitudes are in the order of the low bits. -/
theorem units32_le_iff (a b : F32) :
    units32 a ≤ units32 b ↔ (a.extractLsb' 0 31).toNat ≤ (b.extractLsb' 0 31).toNat := by
  constructor
  · intro h; by_contra hc; exact absurd (units32_lt (Nat.lt_of_not_le hc)) (by omega)
  · intro h
    rcases Nat.lt_or_eq_of_le h with h | h
    · exact (units32_lt h).le
    · exact (units32_congr h).le

/-- The places of values are in the order of the values. -/
theorem orderKey32_le_iff (a b : F32) : orderKey32 a ≤ orderKey32 b ↔ signedUnits32 a ≤ signedUnits32 b := by
  have h1 := units32_le_iff a b
  have h2 := units32_le_iff b a
  have h0 : ∀ x : F32, units32 x = 0 ↔ (x.extractLsb' 0 31).toNat = 0 := fun x => by
    have h := units32_le_iff x 0#32
    rw [show units32 0#32 = 0 by decide, show ((0#32).extractLsb' 0 31).toNat = 0 by decide] at h
    omega
  have ha := h0 a
  have hb := h0 b
  unfold orderKey32 signedUnits32
  cases sign32 a <;> cases sign32 b <;> simp only [if_true, if_false, Bool.false_eq_true] <;> omega

/-- On finite values `<=` is the order of the values (rule R91). -/
theorem fle32_iff {a b : F32} (ha : isNaN32 a = false) (hb : isNaN32 b = false) :
    fle32 a b = true ↔ signedUnits32 a ≤ signedUnits32 b := by
  simp [fle32, ha, hb, orderKey32_le_iff]

/-- On non-NaN values `<` is the negation of the reversed `<=`. -/
theorem flt32_eq_not_fle32 {a b : F32} (ha : isNaN32 a = false) (hb : isNaN32 b = false) :
    flt32 a b = !fle32 b a := by
  simp only [fle32, flt32, ha, hb, Bool.not_false, Bool.true_and]
  by_cases h : orderKey32 a < orderKey32 b <;> simp [h] <;> omega

/-! ### Bounds on the operations -/

theorem bounded32_notNaN {a : F32} {k : Nat} (h : Bounded32 a k) : isNaN32 a = false := isNaN32_of_finite h.1
theorem bounded32_notInf {a : F32} {k : Nat} (h : Bounded32 a k) : isInf32 a = false := isInf32_of_finite h.1

theorem isZero32_pack32 (neg : Bool) : isZero32 (pack32 neg 0) = true := by cases neg <;> decide

/-- Exponent and fraction are a matter of the low 31 bits. -/
theorem bounded32_congr {a b : F32} {k : Nat} (e : (a.extractLsb' 0 31).toNat = (b.extractLsb' 0 31).toNat)
    (h : Bounded32 b k) : Bounded32 a k := by
  have he : exp32 a = exp32 b := by
    have ha := frac32_lt a
    have hb := frac32_lt b
    rw [low32_parts, low32_parts] at e
    omega
  rw [Bounded32, isFinite32, units32_congr e, he]; exact h

theorem low32_neg32 (a : F32) : (neg32 a).extractLsb' 0 31 = a.extractLsb' 0 31 := by
  have h : ∀ i < 31, (0x80000000#32).getLsbD i = false := by decide
  ext i hi
  simp [neg32, h i hi]

theorem low32_fabs32 (a : F32) : (fabs32 a).extractLsb' 0 31 = a.extractLsb' 0 31 := by
  have h : ∀ i < 31, (0x7FFFFFFF#32).getLsbD i = true := by decide
  ext i hi
  simp [fabs32, h i hi]

theorem bounded32_neg32 {a : F32} {k : Nat} (h : Bounded32 a k) : Bounded32 (neg32 a) k :=
  bounded32_congr (by rw [low32_neg32]) h

theorem bounded32_fabs32 {a : F32} {k : Nat} (h : Bounded32 a k) : Bounded32 (fabs32 a) k :=
  bounded32_congr (by rw [low32_fabs32]) h

theorem bounded32_fadd32 {a b : F32} {j k n : Nat} (ha : Bounded32 a j) (hb : Bounded32 b k) (hj : j < n) (hk : k < n)
    (hn : n ≤ 126) : Bounded32 (fadd32 a b) n := by
  unfold fadd32
  simp only [bounded32_notNaN ha, bounded32_notNaN hb, bounded32_notInf ha, bounded32_notInf hb, Bool.or_self,
    Bool.false_eq_true, if_false]
  split
  · exact bounded32_of_zero (isZero32_pack32 _) _
  · refine bounded32_roundRatio _ (by positivity) hn ?_
    have h1 : units32 a ≤ 2 ^ (148 + n) := le_trans ha.2 (Nat.pow_le_pow_right (by decide) (by omega))
    have h2 : units32 b ≤ 2 ^ (148 + n) := le_trans hb.2 (Nat.pow_le_pow_right (by decide) (by omega))
    have h3 : 2 ^ n * 2 ^ 149 = 2 * 2 ^ (148 + n) := by rw [← pow_add, ← pow_succ']; congr 1; omega
    rw [h3]
    unfold signedUnits32
    split <;> split <;> omega

/-- A sum with a zero. -/
theorem bounded32_fadd32_zero {a b : F32} {k : Nat} (ha : Bounded32 a k) (hb : isZero32 b = true) (hk : k ≤ 126) :
    Bounded32 (fadd32 a b) k := by
  have hb0 := bounded32_of_zero hb 0
  have hu : units32 b = 0 := (isZero32_iff.mp hb).2
  unfold fadd32
  simp only [bounded32_notNaN ha, bounded32_notNaN hb0, bounded32_notInf ha, bounded32_notInf hb0, Bool.or_self,
    Bool.false_eq_true, if_false]
  split
  · exact bounded32_of_zero (isZero32_pack32 _) _
  · refine bounded32_roundRatio _ (by positivity) hk ?_
    have h3 : 2 ^ k * 2 ^ 149 = 2 ^ (149 + k) := by rw [← pow_add]; congr 1; omega
    have h1 := ha.2
    rw [h3]
    unfold signedUnits32
    rw [hu]
    split <;> split <;> omega

/-- A sum of zeros. -/
theorem isZero32_fadd32 {a b : F32} (ha : isZero32 a = true) (hb : isZero32 b = true) :
    isZero32 (fadd32 a b) = true := by
  have ha0 := bounded32_of_zero ha 0
  have hb0 := bounded32_of_zero hb 0
  have hz : signedUnits32 a + signedUnits32 b = 0 := by
    simp [signedUnits32, (isZero32_iff.mp ha).2, (isZero32_iff.mp hb).2]
  unfold fadd32
  simp only [bounded32_notNaN ha0, bounded32_notNaN hb0, bounded32_notInf ha0, bounded32_notInf hb0, Bool.or_self,
    Bool.false_eq_true, if_false, hz, if_true]
  exact isZero32_pack32 _

theorem bounded32_fsub32 {a b : F32} {j k n : Nat} (ha : Bounded32 a j) (hb : Bounded32 b k) (hj : j < n) (hk : k < n)
    (hn : n ≤ 126) : Bounded32 (fsub32 a b) n := bounded32_fadd32 ha (bounded32_neg32 hb) hj hk hn

theorem bounded32_fmul32 {a b : F32} {j k n : Nat} (ha : Bounded32 a j) (hb : Bounded32 b k) (hj : j + k ≤ n)
    (hn : n ≤ 126) : Bounded32 (fmul32 a b) n := by
  unfold fmul32
  simp only [bounded32_notNaN ha, bounded32_notNaN hb, bounded32_notInf ha, bounded32_notInf hb, Bool.or_self,
    Bool.false_eq_true, if_false]
  refine (bounded32_roundRatio _ (by positivity) (le_trans hj hn) ?_).mono hj
  calc units32 a * units32 b ≤ 2 ^ (149 + j) * 2 ^ (149 + k) := Nat.mul_le_mul ha.2 hb.2
    _ = 2 ^ (j + k) * (2 ^ 149 * 2 ^ 149) := by simp only [← pow_add]; congr 1; omega

/-- The sign of a product of finite values. -/
theorem sign32_fmul32 {a b : F32} (ha : isFinite32 a = true) (hb : isFinite32 b = true) :
    sign32 (fmul32 a b) = (sign32 a != sign32 b) := by
  unfold fmul32
  simp only [isNaN32_of_finite ha, isNaN32_of_finite hb, isInf32_of_finite ha, isInf32_of_finite hb, Bool.or_self,
    Bool.false_eq_true, if_false, sign32_roundRatio]

/-- A product with a zero. -/
theorem isZero32_fmul32 {a b : F32} (h : (isZero32 a = true ∧ isFinite32 b = true) ∨
    (isFinite32 a = true ∧ isZero32 b = true)) : isZero32 (fmul32 a b) = true := by
  have ha : isFinite32 a = true := by
    rcases h with h | h
    · exact (isZero32_iff.mp h.1).1
    · exact h.1
  have hb : isFinite32 b = true := by
    rcases h with h | h
    · exact h.2
    · exact (isZero32_iff.mp h.2).1
  have hu : units32 a * units32 b = 0 := by
    rcases h with h | h
    · rw [(isZero32_iff.mp h.1).2, Nat.zero_mul]
    · rw [(isZero32_iff.mp h.2).2, Nat.mul_zero]
  unfold fmul32
  simp only [isNaN32_of_finite ha, isNaN32_of_finite hb, isInf32_of_finite ha, isInf32_of_finite hb, Bool.or_self,
    Bool.false_eq_true, if_false, hu, roundRatio_zero]
  exact isZero32_pack32 _

/-- A quotient by a value of at least 1. -/
theorem bounded32_fdiv32 {a b : F32} {k : Nat} (ha : Bounded32 a k) (hb : isFinite32 b = true)
    (h1 : 2 ^ 149 ≤ units32 b) (hk : k ≤ 126) : Bounded32 (fdiv32 a b) k := by
  have hz : isZero32 b = false := by
    rw [Bool.eq_false_iff]; intro h
    have := (isZero32_iff.mp h).2
    have : 0 < 2 ^ 149 := by positivity
    omega
  unfold fdiv32
  simp only [bounded32_notNaN ha, isNaN32_of_finite hb, bounded32_notInf ha, isInf32_of_finite hb, hz, Bool.or_self,
    Bool.false_eq_true, if_false]
  refine bounded32_roundRatio _ (lt_of_lt_of_le (by positivity) h1) hk ?_
  calc units32 a ≤ 2 ^ (149 + k) := ha.2
    _ = 2 ^ k * 2 ^ 149 := by rw [← pow_add]; congr 1; omega
    _ ≤ 2 ^ k * units32 b := Nat.mul_le_mul_left _ h1

/-- The sign of a quotient of finite values, the divisor not zero. -/
theorem sign32_fdiv32 {a b : F32} (ha : isFinite32 a = true) (hb : isFinite32 b = true) (hz : isZero32 b = false) :
    sign32 (fdiv32 a b) = (sign32 a != sign32 b) := by
  unfold fdiv32
  simp only [isNaN32_of_finite ha, isNaN32_of_finite hb, isInf32_of_finite ha, isInf32_of_finite hb, hz, Bool.or_self,
    Bool.false_eq_true, if_false, sign32_roundRatio]

/-- A quotient of zero by a value that is not. -/
theorem isZero32_fdiv32 {a b : F32} (ha : isZero32 a = true) (hb : isFinite32 b = true) (h : 0 < units32 b) :
    isZero32 (fdiv32 a b) = true := by
  have hz : isZero32 b = false := by
    rw [Bool.eq_false_iff]; intro h'
    have := (isZero32_iff.mp h').2
    omega
  have ha0 := bounded32_of_zero ha 0
  unfold fdiv32
  simp only [bounded32_notNaN ha0, isNaN32_of_finite hb, bounded32_notInf ha0, isInf32_of_finite hb, hz, Bool.or_self,
    Bool.false_eq_true, if_false, (isZero32_iff.mp ha).2, roundRatio_zero]
  exact isZero32_pack32 _

/-- The integer square root is no greater than the root. -/
theorem isqrtFrom_sq_le (k n r : Nat) (h : r * r ≤ n) : isqrtFrom k n r * isqrtFrom k n r ≤ n := by
  induction k generalizing r with
  | zero => exact h
  | succ k ih => rw [isqrtFrom]; exact ih _ (by split <;> assumption)

theorem bounded32_fsqrt32 {a : F32} {k n : Nat} (ha : Bounded32 a k) (hs : sign32 a = false) (hk : k < n)
    (hn : n ≤ 126) : Bounded32 (fsqrt32 a) n := by
  unfold fsqrt32
  simp only [bounded32_notNaN ha, bounded32_notInf ha, hs, Bool.false_eq_true, if_false]
  split
  · exact ha.mono hk.le
  · refine bounded32_roundRatio _ (by positivity) hn ?_
    have h0 := isqrtFrom_sq_le 214 (units32 a * 2 ^ 149) 0 (Nat.zero_le _)
    have h1 : isqrtFrom 214 (units32 a * 2 ^ 149) 0 ≤ 2 ^ (149 + k) := by
      rw [← Nat.pow_le_pow_iff_left (n := 2) (by decide)]
      calc isqrtFrom 214 (units32 a * 2 ^ 149) 0 ^ 2 ≤ units32 a * 2 ^ 149 := by rw [sq]; exact h0
        _ ≤ 2 ^ (149 + k) * 2 ^ (149 + k) :=
            Nat.mul_le_mul ha.2 (Nat.pow_le_pow_right (by decide) (by omega))
        _ = (2 ^ (149 + k)) ^ 2 := (sq _).symm
    have h2 : 2 ^ n * (2 * 2 ^ 149) = 2 ^ (150 + n) := by rw [← pow_succ', ← pow_add]; congr 1; omega
    have h3 : 4 * 2 ^ (149 + k) ≤ 2 ^ (150 + n) := by
      rw [show 4 = 2 ^ 2 by norm_num, ← pow_add]; exact Nat.pow_le_pow_right (by decide) (by omega)
    have h4 : 0 < 2 ^ (149 + k) := by positivity
    rw [h2]
    split <;> omega

/-- The root of a zero. -/
theorem isZero32_fsqrt32 {a : F32} (h : isZero32 a = true) : isZero32 (fsqrt32 a) = true := by
  simp [fsqrt32, isNaN32_of_finite (isZero32_iff.mp h).1, h]

theorem bounded32_ofInt32 {k : Int} {n : Nat} (h : k.natAbs ≤ 2 ^ n) (hn : n ≤ 126) : Bounded32 (ofInt32 k) n := by
  unfold ofInt32 fconst32
  exact bounded32_roundRatio _ (by decide) hn (by simpa using h)

/-- A positive integer is at least 1. -/
theorem one_le_ofInt32 {k : Int} (h : 1 ≤ k) (hf : isFinite32 (ofInt32 k) = true) :
    2 ^ 149 ≤ units32 (ofInt32 k) := one_le_roundRatio _ (by decide) (by omega) hf

/-- A value between two finite bounds is finite. -/
theorem isFinite32_of_fle32 {a b c : F32} (h1 : fle32 a b = true) (h2 : fle32 b c = true) (ha : isFinite32 a = true)
    (hc : isFinite32 c = true) : isFinite32 b = true := by
  simp only [fle32, Bool.and_eq_true, Bool.not_eq_true', decide_eq_true_eq] at h1 h2
  have hb := h1.1.2
  have e1 := frac32_lt a
  have e2 := frac32_lt c
  have e3 := frac32_lt b
  have l1 := low32_parts a
  have l2 := low32_parts b
  have l3 := low32_parts c
  have x1 := exp32_le a
  have x2 := exp32_le b
  have x3 := exp32_le c
  have k1 := h1.2
  have k2 := h2.2
  simp only [orderKey32, l1, l2, l3] at k1 k2
  simp only [isFinite32, bne_iff_ne, ne_eq] at ha hc ⊢
  intro he
  rw [he] at k1 k2
  revert k1 k2
  cases sign32 a <;> cases sign32 b <;> cases sign32 c <;> simp only [if_true, if_false, Bool.false_eq_true] <;> omega

end Sys2Proof.Machine
end

