-- ==== Sys2Proof/Machine/OpenFunctions.lean ====
section
/-! DEFINITION. The four functions that rule R90 leaves open. Nothing is assumed of them but condition 5 of rule R91, for
the decision values of `NUM` and `MAG_EPS`: they are the components of a constant with no body, whose type carries that
condition (log 3). That such functions exist is shown first, on four constant ones. -/

namespace Sys2Proof.Machine

/-! ### Four functions that meet condition 5 -/

/-- Four constant functions. -/
def constantFns : OpenFns := ⟨fun _ => 0, fun _ => 0, fun _ => 0, fun _ => 0x3F800000⟩

/-- The record over them. -/
def constantNum : Num Flt := (binary32 constantFns).coded

/-- Finite and at most `2 ^ k`. -/
def Bounded (x : Flt) (k : Nat) : Prop := Bounded32 x.bits k

/-- Zero. -/
def Zero (x : Flt) : Prop := isZero32 x.bits = true

theorem Bounded.finite {x : Flt} {k : Nat} (h : Bounded x k) : constantNum.isFinite x = true := h.1
theorem Bounded.mono {x : Flt} {j k : Nat} (h : Bounded x j) (hk : j ≤ k) : Bounded x k := Bounded32.mono h hk
theorem Zero.bounded {x : Flt} (h : Zero x) (k : Nat) : Bounded x k := bounded32_of_zero h k

theorem bits_fconst (k : Int) (d : Nat) : (constantNum.fconst k d).bits = fconst32 k d := Flt.bits_ofBits _
theorem bits_pi : constantNum.pi.bits = pi32 := Flt.bits_ofBits _
theorem bits_ofInt (k : Int) : (constantNum.ofInt k).bits = ofInt32 k := Flt.bits_ofBits _

theorem bounded_fmul {a b : Flt} {j k n : Nat} (ha : Bounded a j) (hb : Bounded b k) (h : j + k ≤ n := by omega)
    (hn : n ≤ 126 := by omega) : Bounded (constantNum.fmul a b) n := by
  rw [Bounded, show (constantNum.fmul a b).bits = fmul32 a.bits b.bits from Flt.bits_ofBits _]
  exact bounded32_fmul32 ha hb h hn

theorem bounded_fadd {a b : Flt} {j k n : Nat} (ha : Bounded a j) (hb : Bounded b k) (hj : j < n := by omega)
    (hk : k < n := by omega) (hn : n ≤ 126 := by omega) : Bounded (constantNum.fadd a b) n := by
  rw [Bounded, show (constantNum.fadd a b).bits = fadd32 a.bits b.bits from Flt.bits_ofBits _]
  exact bounded32_fadd32 ha hb hj hk hn

theorem bounded_fsub {a b : Flt} {j k n : Nat} (ha : Bounded a j) (hb : Bounded b k) (hj : j < n := by omega)
    (hk : k < n := by omega) (hn : n ≤ 126 := by omega) : Bounded (constantNum.fsub a b) n := by
  rw [Bounded, show (constantNum.fsub a b).bits = fsub32 a.bits b.bits from Flt.bits_ofBits _]
  exact bounded32_fsub32 ha hb hj hk hn

theorem bounded_fdiv {a b : Flt} {k : Nat} (ha : Bounded a k) (hb : isFinite32 b.bits = true)
    (h1 : 2 ^ 149 ≤ units32 b.bits) (hk : k ≤ 126 := by omega) : Bounded (constantNum.fdiv a b) k := by
  rw [Bounded, show (constantNum.fdiv a b).bits = fdiv32 a.bits b.bits from Flt.bits_ofBits _]
  exact bounded32_fdiv32 ha hb h1 hk

theorem bounded_fabs {a : Flt} {k : Nat} (ha : Bounded a k) : Bounded (constantNum.fabs a) k := by
  rw [Bounded, show (constantNum.fabs a).bits = fabs32 a.bits from Flt.bits_ofBits _]
  exact bounded32_fabs32 ha

theorem bounded_fadd_zero {a b : Flt} {k : Nat} (ha : Bounded a k) (hb : Zero b) (hk : k ≤ 126 := by omega) :
    Bounded (constantNum.fadd a b) k := by
  rw [Bounded, show (constantNum.fadd a b).bits = fadd32 a.bits b.bits from Flt.bits_ofBits _]
  exact bounded32_fadd32_zero ha hb hk

theorem zero_fadd {a b : Flt} (ha : Zero a) (hb : Zero b) : Zero (constantNum.fadd a b) := by
  rw [Zero, show (constantNum.fadd a b).bits = fadd32 a.bits b.bits from Flt.bits_ofBits _]
  exact isZero32_fadd32 ha hb

theorem zero_fsub {a b : Flt} (ha : Zero a) (hb : Zero b) : Zero (constantNum.fsub a b) := by
  rw [Zero, show (constantNum.fsub a b).bits = fadd32 a.bits (neg32 b.bits) from Flt.bits_ofBits _]
  refine isZero32_fadd32 ha ?_
  have h := bounded32_neg32 (bounded32_of_zero hb 0)
  rw [isZero32_iff, units32_congr (b := b.bits) (by rw [low32_neg32])]
  exact ⟨h.1, (isZero32_iff.mp hb).2⟩

theorem zero_fsqrt {a : Flt} (h : Zero a) : Zero (constantNum.fsqrt a) := by
  rw [Zero, show (constantNum.fsqrt a).bits = fsqrt32 a.bits from Flt.bits_ofBits _]
  exact isZero32_fsqrt32 h

theorem zero_fmul {a b : Flt} {k : Nat} (ha : Bounded a k) (hb : Zero b) : Zero (constantNum.fmul a b) := by
  rw [Zero, show (constantNum.fmul a b).bits = fmul32 a.bits b.bits from Flt.bits_ofBits _]
  exact isZero32_fmul32 (.inr ⟨ha.1, hb⟩)

theorem zero_fdiv {a b : Flt} (ha : Zero a) (hb : isFinite32 b.bits = true) (h : 0 < units32 b.bits) :
    Zero (constantNum.fdiv a b) := by
  rw [Zero, show (constantNum.fdiv a b).bits = fdiv32 a.bits b.bits from Flt.bits_ofBits _]
  exact isZero32_fdiv32 ha hb h

theorem bounded_ofInt {k : Int} {n : Nat} (h : k.natAbs ≤ 2 ^ n) (hn : n ≤ 126 := by omega) :
    Bounded (constantNum.ofInt k) n := by
  rw [Bounded, bits_ofInt]; exact bounded32_ofInt32 h hn

theorem one_le_ofInt {k : Int} {n : Nat} (h : 1 ≤ k) (hb : Bounded (constantNum.ofInt k) n) :
    2 ^ 149 ≤ units32 (constantNum.ofInt k).bits := by
  rw [Bounded, bits_ofInt] at hb
  rw [bits_ofInt]; exact one_le_ofInt32 h hb.1

theorem zero_fsin (a : Flt) : Zero (constantNum.fsin a) := by
  rw [Zero, show (constantNum.fsin a).bits = 0 from Flt.bits_ofBits _]; decide
theorem zero_fcos (a : Flt) : Zero (constantNum.fcos a) := by
  rw [Zero, show (constantNum.fcos a).bits = 0 from Flt.bits_ofBits _]; decide
theorem zero_flog10 (a : Flt) : Zero (constantNum.flog10 a) := by
  rw [Zero, show (constantNum.flog10 a).bits = 0 from Flt.bits_ofBits _]; decide
theorem bits_fpow10 (a : Flt) : (constantNum.fpow10 a).bits = 0x3F800000 := Flt.bits_ofBits _
/-- The literals of rules R80 to R104 and of the decision value of `MAG_EPS`: each is finite and at most a power of
two. -/
theorem literal_bounds : ∀ c ∈ ([(1, 1, 0), (2, 1, 1), (4, 1, 2), (20, 1, 5), (707, 1000, 0), (1414, 1000, 1),
    (42, 100, 0), (5, 10, 0), (8, 100, 0), (32767, 1, 15),
    (0, 1, 0), (1, 10, 0), (1, 100000000, 0), (1, 1000000000, 0), (-90, 1, 7), (12, 1, 4)] : List (Int × Nat × Nat)),
    isFinite32 (fconst32 c.1 c.2.1) = true ∧ units32 (fconst32 c.1 c.2.1) ≤ 2 ^ (149 + c.2.2) := by decide +kernel

/-- What else the proofs need of the literals, in units of 2^-149. -/
theorem literal_units :
    isZero32 (fconst32 0 1) = true ∧ 2 ^ 149 ≤ units32 (fconst32 2 1) ∧ 2 ^ 149 ≤ units32 (fconst32 20 1) ∧
    2 ^ 122 ≤ signedUnits32 (fconst32 1 100000000) ∧ 0 < signedUnits32 (fconst32 1 1000000000) ∧
    signedUnits32 (fconst32 (-90) 1) = -90 * 2 ^ 149 ∧ signedUnits32 (fconst32 12 1) = 12 * 2 ^ 149 ∧
    2 ^ 149 ≤ units32 pi32 ∧ units32 pi32 ≤ 2 ^ 151 ∧ units32 0x3F800000 ≤ 2 ^ 149 := by decide +kernel

theorem bounded_literal {k : Int} {d n : Nat} (h : isFinite32 (fconst32 k d) = true ∧
    units32 (fconst32 k d) ≤ 2 ^ (149 + n)) : Bounded (constantNum.fconst k d) n := by
  rw [Bounded, bits_fconst]; exact h

theorem c0 : Zero (constantNum.fconst 0 1) := by rw [Zero, bits_fconst]; exact literal_units.1
theorem c1 : Bounded (constantNum.fconst 1 1) 0 := bounded_literal (literal_bounds (1, 1, 0) (by simp))
theorem c2 : Bounded (constantNum.fconst 2 1) 1 := bounded_literal (literal_bounds (2, 1, 1) (by simp))
theorem c4 : Bounded (constantNum.fconst 4 1) 2 := bounded_literal (literal_bounds (4, 1, 2) (by simp))
theorem c20 : Bounded (constantNum.fconst 20 1) 5 := bounded_literal (literal_bounds (20, 1, 5) (by simp))
theorem c707 : Bounded (constantNum.fconst 707 1000) 0 := bounded_literal (literal_bounds (707, 1000, 0) (by simp))
theorem c1414 : Bounded (constantNum.fconst 1414 1000) 1 := bounded_literal (literal_bounds (1414, 1000, 1) (by simp))
theorem c42 : Bounded (constantNum.fconst 42 100) 0 := bounded_literal (literal_bounds (42, 100, 0) (by simp))
theorem c50 : Bounded (constantNum.fconst 5 10) 0 := bounded_literal (literal_bounds (5, 10, 0) (by simp))
theorem c08 : Bounded (constantNum.fconst 8 100) 0 := bounded_literal (literal_bounds (8, 100, 0) (by simp))
theorem cScale : Bounded (constantNum.fconst 32767 1) 15 := bounded_literal (literal_bounds (32767, 1, 15) (by simp))
theorem bounded_fpow10 (a : Flt) : Bounded (constantNum.fpow10 a) 0 := by
  rw [Bounded, bits_fpow10]; exact ⟨by decide, literal_units.2.2.2.2.2.2.2.2.2⟩
theorem cTenth : Bounded (constantNum.fconst 1 10) 0 := bounded_literal (literal_bounds (1, 10, 0) (by simp))
theorem cSmall : Bounded (constantNum.fconst 1 100000000) 0 :=
  bounded_literal (literal_bounds (1, 100000000, 0) (by simp))
theorem cEps : Bounded (constantNum.fconst 1 1000000000) 0 :=
  bounded_literal (literal_bounds (1, 1000000000, 0) (by simp))
theorem cLow : Bounded (constantNum.fconst (-90) 1) 7 := bounded_literal (literal_bounds (-90, 1, 7) (by simp))
theorem cHigh : Bounded (constantNum.fconst 12 1) 4 := bounded_literal (literal_bounds (12, 1, 4) (by simp))
theorem cPi : Bounded constantNum.pi 2 := by
  rw [Bounded, bits_pi]; exact ⟨by decide, literal_units.2.2.2.2.2.2.2.2.1⟩

theorem two_unit : 2 ^ 149 ≤ units32 (constantNum.fconst 2 1).bits := by rw [bits_fconst]; exact literal_units.2.1
theorem twenty_unit : 2 ^ 149 ≤ units32 (constantNum.fconst 20 1).bits := by
  rw [bits_fconst]; exact literal_units.2.2.1

/-- Every float of the list is finite. -/
def AllFinite (l : List Flt) : Prop := ∀ x ∈ l, constantNum.isFinite x = true

theorem allFinite_nil : AllFinite [] := nofun
theorem allFinite_cons {x : Flt} {l : List Flt} {k : Nat} (hx : Bounded x k) (h : AllFinite l) : AllFinite (x :: l) :=
  List.forall_mem_cons.mpr ⟨hx.finite, h⟩
theorem allFinite_append {l m : List Flt} (h1 : AllFinite l) (h2 : AllFinite m) : AllFinite (l ++ m) :=
  List.forall_mem_append.mpr ⟨h1, h2⟩
theorem allFinite_flatMap {α : Type} {l : List α} {f : α → List Flt} (h : ∀ a ∈ l, AllFinite (f a)) :
    AllFinite (l.flatMap f) := fun x hx => by
  obtain ⟨a, ha, hx⟩ := List.mem_flatMap.mp hx
  exact h a ha x hx
theorem allFinite_of_bounded {l : List Flt} {k : Nat} (h : ∀ x ∈ l, Bounded x k) : AllFinite l :=
  fun x hx => (h x hx).finite

/-- A finite float of at least one unit is not zero. -/
theorem nonZero_of_units {x : Flt} {k : Nat} (hx : Bounded x k) (h : 0 < units32 x.bits) :
    nonZero constantNum x = true := by
  have z : signedUnits32 (constantNum.fconst 0 1).bits = 0 := by simp [signedUnits32, (isZero32_iff.mp c0).2]
  have hz := bounded32_notNaN (c0.bounded 0)
  have hn := bounded32_notNaN hx
  have e : nonZero constantNum x =
      (flt32 (constantNum.fconst 0 1).bits x.bits || flt32 x.bits (constantNum.fconst 0 1).bits) := rfl
  rw [e, flt32_eq_not_fle32 hz hn, flt32_eq_not_fle32 hn hz, ← Bool.not_and, Bool.not_eq_true', Bool.eq_false_iff, ne_eq,
    Bool.and_eq_true, fle32_iff hn hz, fle32_iff hz hn, z]
  unfold signedUnits32
  split <;> omega

/-- A finite float of at least 1 is not zero. -/
theorem nonZero_of_unit {x : Flt} {k : Nat} (hx : Bounded x k) (h : 2 ^ 149 ≤ units32 x.bits) :
    nonZero constantNum x = true := nonZero_of_units hx (lt_of_lt_of_le (by positivity) h)

/-- A positive integer that a float can hold is not zero. -/
theorem nonZero_ofInt {k : Int} {n : Nat} (h : 1 ≤ k) (hb : Bounded (constantNum.ofInt k) n) :
    nonZero constantNum (constantNum.ofInt k) = true := nonZero_of_unit hb (one_le_ofInt h hb)

/-- The literals are finite, at the decision value of `MAG_EPS`. -/
theorem finite_literals {p : Params} (h1 : p.magEpsNum = 1) (h2 : p.magEpsDen = 1000000000) :
    AllFinite (literals constantNum p) := by
  rw [AllFinite, literals, h1, h2]
  exact allFinite_cons (c0.bounded 0) <| allFinite_cons c1 <| allFinite_cons c2 <| allFinite_cons c4 <|
    allFinite_cons c20 <| allFinite_cons cScale <| allFinite_cons c42 <| allFinite_cons c50 <| allFinite_cons c08 <|
    allFinite_cons cTenth <| allFinite_cons c707 <| allFinite_cons c1414 <| allFinite_cons cSmall <|
    allFinite_cons cLow <| allFinite_cons cHigh <| allFinite_cons cEps <| allFinite_cons cPi allFinite_nil

/-! ### The band plan -/

section
variable {sr : Int} (h1 : 1 ≤ sr) (h2 : sr < 2 ^ 31)
include h1 h2

theorem bounded_srf : Bounded (constantNum.ofInt sr) 31 := bounded_ofInt (by omega)
theorem unit_srf : 2 ^ 149 ≤ units32 (constantNum.ofInt sr).bits := one_le_ofInt h1 (bounded_srf h1 h2)
theorem bounded_nyq : Bounded (constantNum.fdiv (constantNum.ofInt sr) (constantNum.fconst 2 1)) 31 :=
  bounded_fdiv (bounded_srf h1 h2) c2.1 two_unit

theorem bounded_sqrt20 : Bounded (constantNum.fsqrt (constantNum.fmul (constantNum.fconst 20 1)
    (constantNum.fdiv (constantNum.ofInt sr) (constantNum.fconst 2 1)))) 37 := by
  have hn := bounded_nyq h1 h2
  rw [Bounded, show (constantNum.fsqrt _).bits = fsqrt32 (constantNum.fmul _ _).bits from Flt.bits_ofBits _]
  refine bounded32_fsqrt32 (bounded_fmul (n := 36) c20 hn) ?_ (by omega) (by omega)
  rw [show (constantNum.fmul _ _).bits = fmul32 (constantNum.fconst 20 1).bits _ from Flt.bits_ofBits _,
    sign32_fmul32 c20.1 hn.1,
    show (constantNum.fdiv _ _).bits = fdiv32 (constantNum.ofInt sr).bits (constantNum.fconst 2 1).bits from
      Flt.bits_ofBits _,
    sign32_fdiv32 (bounded_srf h1 h2).1 c2.1 (by rw [bits_fconst]; decide +kernel), bits_ofInt, ofInt32,
    bits_fconst, bits_fconst]
  have hs : sign32 (fconst32 sr 1) = false := by rw [fconst32, sign32_roundRatio]; simp; omega
  rw [hs]
  decide +kernel

theorem bounded_bandPlan (n : Nat) : ∀ x ∈ bandPlan constantNum sr n, Bounded x 37 := by
  intro x hx
  unfold bandPlan at hx
  dsimp only at hx
  by_cases hn : n = 1
  · rw [if_pos hn, List.mem_singleton] at hx
    rw [hx]; exact bounded_sqrt20 h1 h2
  · rw [if_neg hn, List.mem_map] at hx
    obtain ⟨i, -, rfl⟩ := hx
    exact (bounded_fpow10 _).mono (by omega)

theorem finite_bandPlanParts {n : Nat} (hn : 1 ≤ n) (hn2 : n ≤ 65535) : AllFinite (bandPlanParts constantNum sr n) := by
  have hs := bounded_srf h1 h2
  have hq := bounded_nyq h1 h2
  refine allFinite_append (allFinite_append ?_ ?_) (allFinite_of_bounded (bounded_bandPlan h1 h2 n))
  · exact allFinite_cons hs <| allFinite_cons hq <| allFinite_cons ((zero_flog10 _).bounded 0) <|
      allFinite_cons ((zero_flog10 _).bounded 0) allFinite_nil
  · by_cases h : n = 1
    · rw [if_pos h]
      exact allFinite_cons (bounded_fmul (n := 36) c20 hq) allFinite_nil
    · rw [if_neg h]
      refine allFinite_flatMap fun i hi => ?_
      have hi := List.mem_range.mp hi
      have bi : Bounded (constantNum.ofInt i) 16 := bounded_ofInt (by omega)
      have bd : Bounded (constantNum.ofInt ((n : Int) - 1)) 16 := bounded_ofInt (by omega)
      have hd := one_le_ofInt (by omega) bd
      have z := zero_fsub (zero_flog10 (constantNum.fdiv (constantNum.ofInt sr) (constantNum.fconst 2 1)))
        (zero_flog10 (constantNum.fconst 20 1))
      have zm := zero_fmul bi z
      have zd := zero_fdiv zm bd.1 (lt_of_lt_of_le (by positivity) hd)
      exact allFinite_cons bi <| allFinite_cons (z.bounded 0) <| allFinite_cons (zm.bounded 0) <|
        allFinite_cons bd <| allFinite_cons (zd.bounded 0) <|
        allFinite_cons ((zero_fadd (zero_flog10 _) zd).bounded 0) allFinite_nil

end

theorem nonZero_bandPlanDivisors {n : Nat} (hn : 1 ≤ n) (hn2 : n ≤ 65535) :
    ∀ d ∈ bandPlanDivisors constantNum n, nonZero constantNum d = true := by
  refine List.forall_mem_cons.mpr ⟨nonZero_of_unit c2 two_unit, ?_⟩
  split
  · exact nofun
  · refine List.forall_mem_singleton.mpr (nonZero_ofInt (n := 16) (by omega) (bounded_ofInt (by omega)))

/-! ### The window -/

theorem bounded_window (t : Nat) : ∀ x ∈ window constantNum t, Bounded x 3 := by
  intro x hx
  obtain ⟨n, -, rfl⟩ := List.mem_map.mp hx
  exact bounded_fadd_zero ((bounded_fsub (n := 1) c42 ((zero_fmul c50 (zero_fcos _)).bounded 0)).mono (by omega))
    (zero_fmul c08 (zero_fcos _))

theorem finite_windowParts {t : Nat} (h : 2 ≤ t) (h2 : t ≤ 65535) : AllFinite (windowParts constantNum t) := by
  refine allFinite_append ?_ (allFinite_of_bounded (bounded_window t))
  refine allFinite_append (allFinite_cons (bounded_fmul (n := 3) c2 cPi) <| allFinite_cons (bounded_fmul (n := 4) c4 cPi)
    allFinite_nil) (allFinite_flatMap fun n hn => ?_)
  have hn := List.mem_range.mp hn
  have bn : Bounded (constantNum.ofInt n) 16 := bounded_ofInt (by omega)
  have bd : Bounded (constantNum.ofInt ((t : Int) - 1)) 16 := bounded_ofInt (by omega)
  have hd := one_le_ofInt (by omega) bd
  have a := bounded_fmul (n := 19) (bounded_fmul (n := 3) c2 cPi) bn
  have b := bounded_fmul (n := 20) (bounded_fmul (n := 4) c4 cPi) bn
  have u := fun x => (zero_fmul c50 (zero_fcos x)).bounded 0
  exact allFinite_cons bn <| allFinite_cons bd <| allFinite_cons a <| allFinite_cons (bounded_fdiv a bd.1 hd) <|
    allFinite_cons ((zero_fcos _).bounded 0) <| allFinite_cons (u _) <|
    allFinite_cons (bounded_fsub (n := 1) c42 (u _)) <| allFinite_cons b <|
    allFinite_cons (bounded_fdiv b bd.1 hd) <| allFinite_cons ((zero_fcos _).bounded 0) <|
    allFinite_cons ((zero_fmul c08 (zero_fcos _)).bounded 0) allFinite_nil

theorem nonZero_windowDivisors {t : Nat} (h : 2 ≤ t) (h2 : t ≤ 65535) :
    ∀ d ∈ windowDivisors constantNum t, nonZero constantNum d = true :=
  List.forall_mem_singleton.mpr (nonZero_ofInt (n := 16) (by omega) (bounded_ofInt (by omega)))

/-! ### The designer -/

/-- `sinc` is 0 or 1, and divides by no zero. -/
theorem bounded_sinc {x : Flt} {k : Nat} (hx : Bounded x k) (hk : k ≤ 100) :
    Bounded (sinc constantNum x) 0 ∧ AllFinite (sincParts constantNum x) ∧
    ∀ d ∈ sincDivisors constantNum x, nonZero constantNum d = true := by
  have ha := bounded_fabs hx
  unfold sinc sincParts sincDivisors
  by_cases h : constantNum.flt (constantNum.fabs x) (constantNum.fconst 1 100000000) = true
  · rw [if_pos h, if_pos h, if_pos h]
    exact ⟨c1, allFinite_cons ha allFinite_nil, nofun⟩
  · rw [if_neg h, if_neg h, if_neg h]
    have hp : Bounded (constantNum.fmul constantNum.pi x) (k + 2) := bounded_fmul cPi hx
    have hu : 0 < units32 (constantNum.fmul constantNum.pi x).bits := by
      have hc := cSmall.1
      have hf : flt32 (constantNum.fabs x).bits (constantNum.fconst 1 100000000).bits = false :=
        Bool.eq_false_iff.mpr h
      rw [flt32_eq_not_fle32 (bounded32_notNaN ha) (isNaN32_of_finite hc), Bool.not_eq_false',
        fle32_iff (isNaN32_of_finite hc) (bounded32_notNaN ha)] at hf
      have hx1 : units32 x.bits = units32 (constantNum.fabs x).bits := by
        rw [show (constantNum.fabs x).bits = fabs32 x.bits from Flt.bits_ofBits _]
        exact (units32_congr (by rw [low32_fabs32])).symm
      have hcu : 2 ^ 122 ≤ signedUnits32 (constantNum.fconst 1 100000000).bits := by
        rw [bits_fconst]; exact literal_units.2.2.2.1
      have hle : signedUnits32 (constantNum.fabs x).bits ≤ units32 (constantNum.fabs x).bits := by
        unfold signedUnits32; split <;> omega
      have hx2 : 2 ^ 122 ≤ units32 x.bits := by rw [hx1]; omega
      rw [Bounded, show (constantNum.fmul constantNum.pi x).bits = fmul32 pi32 x.bits by
        rw [← bits_pi]; exact Flt.bits_ofBits _] at hp
      rw [show (constantNum.fmul constantNum.pi x).bits = fmul32 pi32 x.bits by rw [← bits_pi]; exact Flt.bits_ofBits _]
      have hpf : isFinite32 pi32 = true := by decide
      have e : fmul32 pi32 x.bits = roundRatio (sign32 pi32 != sign32 x.bits) (units32 pi32 * units32 x.bits)
          (2 ^ 149 * 2 ^ 149) := by
        unfold fmul32
        simp only [isNaN32_of_finite hpf, isInf32_of_finite hpf, bounded32_notNaN hx, bounded32_notInf hx, Bool.or_self,
          Bool.false_eq_true, if_false]
      rw [e] at hp ⊢
      refine roundRatio_pos _ (by positivity) ?_ hp.1
      refine Nat.mul_le_mul_right _ ?_
      calc 2 ^ 149 ≤ 2 ^ 149 * 2 ^ 122 := Nat.le_mul_of_pos_right _ (by positivity)
        _ ≤ units32 pi32 * units32 x.bits := Nat.mul_le_mul literal_units.2.2.2.2.2.2.2.1 hx2
    have z := zero_fdiv (zero_fsin (constantNum.fmul constantNum.pi x)) hp.1 hu
    exact ⟨z.bounded 0, allFinite_cons ha <| allFinite_cons hp <| allFinite_cons ((zero_fsin _).bounded 0) <|
      allFinite_cons (z.bounded 0) allFinite_nil, List.forall_mem_singleton.mpr (nonZero_of_units hp hu)⟩

/-- One of the two terms of rule R99. -/
theorem bounded_sincTerm {f d : Flt} (hf : Bounded f 44) (hd : Bounded d 16) :
    Bounded (constantNum.fmul (constantNum.fmul (constantNum.fconst 2 1) f)
      (sinc constantNum (constantNum.fmul (constantNum.fmul (constantNum.fconst 2 1) f) d))) 45 ∧
    AllFinite (sincTermParts constantNum f d) ∧
    ∀ q ∈ sincDivisors constantNum (constantNum.fmul (constantNum.fmul (constantNum.fconst 2 1) f) d),
      nonZero constantNum q = true := by
  have h2 := bounded_fmul (n := 45) c2 hf
  have hx := bounded_fmul (n := 61) h2 hd
  obtain ⟨hs, hp, hq⟩ := bounded_sinc hx (by omega)
  have hr := bounded_fmul (n := 45) h2 hs
  exact ⟨hr, allFinite_append (allFinite_append (allFinite_cons h2 <| allFinite_cons hx allFinite_nil) hp)
    (allFinite_cons hr allFinite_nil), hq⟩

theorem bounded_getD {l : List Flt} {k : Nat} (h : ∀ x ∈ l, Bounded x k) (n : Nat) :
    Bounded (l.getD n (constantNum.fconst 0 1)) k := by
  rw [List.getD_eq_getElem?_getD]
  cases e : l[n]? with
  | none => exact c0.bounded k
  | some x => exact h x (List.mem_of_getElem? e)

theorem bounded_bandpass {t : Nat} {fL fH : Flt} {win : List Flt} (ht : t ≤ 65535) (hL : Bounded fL 44)
    (hH : Bounded fH 44) (hw : ∀ x ∈ win, Bounded x 3) :
    (∀ x ∈ bandpass constantNum win t fL fH, Bounded x 49) ∧ AllFinite (bandpassParts constantNum win t fL fH) ∧
    ∀ d ∈ bandpassDivisors constantNum t fL fH, nonZero constantNum d = true := by
  have hd : ∀ n < t, Bounded (constantNum.ofInt ((n : Int) - (centreTap t : Int))) 16 := fun n hn =>
    bounded_ofInt (by unfold centreTap; omega)
  have hb : ∀ x ∈ bandpass constantNum win t fL fH, Bounded x 49 := by
    intro x hx
    obtain ⟨n, hn, rfl⟩ := List.mem_map.mp hx
    have hd := hd n (List.mem_range.mp hn)
    exact bounded_fmul (bounded_fsub (n := 46) (bounded_sincTerm hH hd).1 (bounded_sincTerm hL hd).1) (bounded_getD hw n)
  refine ⟨hb, allFinite_append (allFinite_flatMap fun n hn => ?_) (allFinite_of_bounded hb), fun d hd' => ?_⟩
  rotate_left
  · obtain ⟨n, hn, hd'⟩ := List.mem_flatMap.mp hd'
    have hd := hd n (List.mem_range.mp hn)
    exact (List.mem_append.mp hd').elim ((bounded_sincTerm hH hd).2.2 d) ((bounded_sincTerm hL hd).2.2 d)
  have hd := hd n (List.mem_range.mp hn)
  have tH := bounded_sincTerm hH hd
  have tL := bounded_sincTerm hL hd
  exact allFinite_append (allFinite_append (allFinite_append (allFinite_cons hd allFinite_nil) tH.2.1) tL.2.1)
    (allFinite_cons (bounded_fsub (n := 46) tH.1 tL.1) allFinite_nil)

theorem zero_dft {fcn : Flt} (hf : Bounded fcn 44) (bp : List Flt) : ∀ (n : Nat) (z : Flt × Flt),
    n + bp.length ≤ 65536 → (∀ x ∈ bp, Bounded x 49) → Zero z.1 → Zero z.2 →
    (Zero (dftFrom constantNum fcn bp n z).1 ∧ Zero (dftFrom constantNum fcn bp n z).2) ∧
    AllFinite (dftParts constantNum fcn bp n z) := by
  induction bp with
  | nil => exact fun n z _ _ h1 h2 => ⟨⟨h1, h2⟩, allFinite_nil⟩
  | cons x bp ih =>
    intro n z hn hb h1 h2
    have hx := hb x List.mem_cons_self
    have bn : Bounded (constantNum.ofInt n) 16 := bounded_ofInt (by simp at hn; omega)
    have w := bounded_fmul (n := 47) (bounded_fmul (n := 3) c2 cPi) hf
    have ph := bounded_fmul (n := 63) w bn
    have c := zero_fmul hx (zero_fcos (constantNum.fmul (constantNum.fmul (constantNum.fmul (constantNum.fconst 2 1)
      constantNum.pi) fcn) (constantNum.ofInt n)))
    have s := zero_fmul hx (zero_fsin (constantNum.fmul (constantNum.fmul (constantNum.fmul (constantNum.fconst 2 1)
      constantNum.pi) fcn) (constantNum.ofInt n)))
    obtain ⟨i1, i2⟩ := ih (n + 1) (_, _) (by simp at hn; omega) (fun y hy => hb y (List.mem_cons_of_mem _ hy))
      (zero_fadd h1 c) (zero_fadd h2 s)
    exact ⟨i1, allFinite_append (allFinite_cons (bounded_fmul (n := 3) c2 cPi) <| allFinite_cons w <|
      allFinite_cons bn <| allFinite_cons ph <|
      allFinite_cons ((zero_fcos _).bounded 0) <| allFinite_cons (c.bounded 0) <|
      allFinite_cons ((zero_fadd h1 c).bounded 0) <| allFinite_cons ((zero_fsin _).bounded 0) <|
      allFinite_cons (s.bounded 0) <| allFinite_cons ((zero_fadd h2 s).bounded 0) allFinite_nil) i2⟩

theorem zero_bpMag {bp : List Flt} {fc srf : Flt} (hc : Bounded fc 37) (hs : isFinite32 srf.bits = true)
    (h1 : 2 ^ 149 ≤ units32 srf.bits) (hl : bp.length ≤ 65535) (hb : ∀ x ∈ bp, Bounded x 49) :
    Zero (bpMag constantNum bp fc srf) ∧ AllFinite (bpMagParts constantNum bp fc srf) := by
  have hf := bounded_fdiv hc hs h1
  obtain ⟨⟨z1, z2⟩, hp⟩ := zero_dft (hf.mono (by omega)) bp 0 (constantNum.fconst 0 1, constantNum.fconst 0 1)
    (by omega) hb c0 c0
  have q1 := zero_fmul (z1.bounded 0) z1
  have q2 := zero_fmul (z2.bounded 0) z2
  have q := zero_fadd q1 q2
  have m : Zero (bpMag constantNum bp fc srf) := zero_fsqrt q
  exact ⟨m, allFinite_append (allFinite_append (allFinite_cons hf allFinite_nil) hp)
    (allFinite_cons (q1.bounded 0) <| allFinite_cons (q2.bounded 0) <| allFinite_cons (q.bounded 0) <|
      allFinite_cons (m.bounded 0) allFinite_nil)⟩

/-- At the decision value of `MAG_EPS`, a zero magnitude meets the guard of rule R101. -/
theorem guard_zero {p : Params} (h1 : p.magEpsNum = 1) (h2 : p.magEpsDen = 1000000000) {m : Flt} (hm : Zero m) :
    constantNum.flt m (constantNum.fconst p.magEpsNum p.magEpsDen) = true := by
  have hc : isFinite32 (constantNum.fconst p.magEpsNum p.magEpsDen).bits = true := by
    rw [h1, h2]; exact cEps.1
  have hm0 := hm.bounded 0
  show flt32 m.bits (constantNum.fconst p.magEpsNum p.magEpsDen).bits = true
  rw [flt32_eq_not_fle32 (bounded32_notNaN hm0) (isNaN32_of_finite hc), Bool.not_eq_true', Bool.eq_false_iff, ne_eq,
    fle32_iff (isNaN32_of_finite hc) (bounded32_notNaN hm0)]
  have hu : signedUnits32 m.bits = 0 := by simp [signedUnits32, (isZero32_iff.mp hm).2]
  have hp : 0 < signedUnits32 (constantNum.fconst p.magEpsNum p.magEpsDen).bits := by
    rw [bits_fconst, h1, h2]; exact literal_units.2.2.2.2.1
  omega

theorem normFactor_zero {p : Params} (h1 : p.magEpsNum = 1) (h2 : p.magEpsDen = 1000000000) {m : Flt} (hm : Zero m) :
    normFactor constantNum p m = constantNum.fconst 1 1 := if_pos (guard_zero h1 h2 hm)

theorem bounded_accumulate {tf bp : List Flt} {lin : Flt} (htf : ∀ x ∈ tf, Bounded x 0) (hb : ∀ x ∈ bp, Bounded x 49)
    (hl : Zero lin) :
    (∀ x ∈ accumulate constantNum tf bp (constantNum.fconst 1 1) lin, Bounded x 0) ∧
    AllFinite (accumulateParts constantNum tf bp (constantNum.fconst 1 1) lin) := by
  have ha : ∀ x ∈ accumulate constantNum tf bp (constantNum.fconst 1 1) lin, Bounded x 0 := by
    intro x hx
    unfold accumulate at hx
    obtain ⟨i, hi, rfl⟩ := List.mem_iff_getElem.mp hx
    rw [List.getElem_zipWith]
    have hb := hb _ (List.getElem_mem (l := bp) (n := i) (by simp at hi; omega))
    exact bounded_fadd_zero (htf _ (List.getElem_mem _)) (zero_fmul (bounded_fmul (n := 49) hb c1) hl)
  refine ⟨ha, allFinite_append (allFinite_flatMap fun b hb' => ?_) (allFinite_of_bounded ha)⟩
  have hm := bounded_fmul (n := 49) (hb b hb') c1
  exact allFinite_cons hm <| allFinite_cons ((zero_fmul hm hl).bounded 0) allFinite_nil

theorem zero_linDelta (g : Flt) : Zero (linDelta constantNum g) := by
  rw [linDelta, Zero, show (constantNum.fsub _ _).bits = fsub32 (constantNum.fpow10 _).bits
    (constantNum.fconst 1 1).bits from Flt.bits_ofBits _, bits_fpow10, bits_fconst]
  decide +kernel

theorem bounded_ite {c : Bool} {x y : Flt} {k : Nat} (hx : Bounded x k) (hy : Bounded y k) :
    Bounded (if c = true then x else y) k := by
  cases c
  · exact hy
  · exact hx

/-- The edges of rules R96 and R97. -/
theorem bounded_edges {t : Nat} {fc srf : Flt} (ht : 2 ≤ t) (ht2 : t ≤ 65535) (hc : Bounded fc 37) (hs : Bounded srf 31) :
    Bounded (widen constantNum t (edges0 constantNum fc).1 (edges0 constantNum fc).2 srf).1 44 ∧
    Bounded (widen constantNum t (edges0 constantNum fc).1 (edges0 constantNum fc).2 srf).2 44 ∧
    AllFinite (edgeParts constantNum t fc srf) := by
  have lo : Bounded (edges0 constantNum fc).1 38 := bounded_fmul hc c707
  have hi : Bounded (edges0 constantNum fc).2 38 := bounded_fmul hc c1414
  have bt : Bounded (constantNum.ofInt t) 16 := bounded_ofInt (by omega)
  have h4 := bounded_fmul (n := 33) c4 hs
  have mb := bounded_fdiv h4 bt.1 (one_le_ofInt (by omega) bt)
  have df := bounded_fsub (n := 39) hi lo
  have sm := bounded_fadd (n := 39) lo hi
  have mid := bounded_fdiv sm c2.1 two_unit
  have half := bounded_fdiv mb c2.1 two_unit
  have a := bounded_fsub (n := 40) mid half
  have b := bounded_fadd (n := 40) mid half
  have w2 : Bounded (widen constantNum t (edges0 constantNum fc).1 (edges0 constantNum fc).2 srf).2 44 :=
    bounded_ite (b.mono (by omega)) (hi.mono (by omega))
  have w1 : Bounded (widen constantNum t (edges0 constantNum fc).1 (edges0 constantNum fc).2 srf).1 44 :=
    bounded_ite (c1.mono (by omega)) (bounded_ite (a.mono (by omega)) (lo.mono (by omega)))
  refine ⟨w1, w2, allFinite_append (allFinite_append ?_ ?_) ?_⟩
  · exact allFinite_cons lo <| allFinite_cons hi <| allFinite_cons h4 <| allFinite_cons bt <| allFinite_cons mb <|
      allFinite_cons df allFinite_nil
  · split
    · exact allFinite_cons sm <| allFinite_cons mid <| allFinite_cons half <| allFinite_cons a <|
        allFinite_cons b allFinite_nil
    · exact allFinite_nil
  · exact allFinite_cons w1 <| allFinite_cons w2 allFinite_nil

section
variable {p : Params} (hp : p.Sizes) (he1 : p.magEpsNum = 1) (he2 : p.magEpsDen = 1000000000) {win : List Flt}
  (hw : ∀ x ∈ win, Bounded x 3) {srf : Flt} (hs : Bounded srf 31) (hs1 : 2 ^ 149 ≤ units32 srf.bits)
include hp he1 he2 hw hs hs1

theorem bounded_addBand {tf : List Flt} {g fc : Flt} (htf : ∀ x ∈ tf, Bounded x 0) (hg : Bounded g 7)
    (hc : Bounded fc 37) :
    (∀ x ∈ addBand constantNum p win srf tf g fc, Bounded x 0) ∧ AllFinite (bandParts constantNum p win srf tf g fc) := by
  have ha := bounded_fabs hg
  unfold addBand bandParts
  dsimp only
  split
  · exact ⟨htf, allFinite_cons hg <| allFinite_cons ha allFinite_nil⟩
  · obtain ⟨w1, w2, hE⟩ := bounded_edges hp.2.2.1 hp.2.2.2.1 hc hs
    have q := bounded_fdiv hg c20.1 twenty_unit
    have n1 := bounded_fdiv w1 hs.1 hs1
    have n2 := bounded_fdiv w2 hs.1 hs1
    obtain ⟨hb, hbp, -⟩ := bounded_bandpass hp.2.2.2.1 n1 n2 hw
    obtain ⟨m, hm⟩ := zero_bpMag hc hs.1 hs1 (by simp [bandpass]; exact hp.2.2.2.1) hb
    rw [normFactor_zero he1 he2 m]
    obtain ⟨k1, k2⟩ := bounded_accumulate htf hb (zero_linDelta g)
    refine ⟨?_, allFinite_cons hg <| allFinite_cons ha <| allFinite_append (allFinite_append (allFinite_cons q <|
      allFinite_cons (bounded_fpow10 _) <| allFinite_cons ((zero_linDelta g).bounded 0) allFinite_nil) hE) ?_⟩
    · split
      · exact k1
      · exact htf
    · split
      · exact allFinite_nil
      · refine allFinite_append (allFinite_cons n1 <| allFinite_cons n2 allFinite_nil) ?_
        split
        · exact allFinite_append (allFinite_append (allFinite_append hbp hm) (allFinite_cons c1 allFinite_nil)) k2
        · exact allFinite_nil

/-- The body of the loop divides by no zero. -/
theorem nonZero_bandDivisors {g fc : Flt} (hc : Bounded fc 37) :
    ∀ d ∈ bandDivisors constantNum p win srf g fc, nonZero constantNum d = true := by
  unfold bandDivisors
  dsimp only
  split
  · exact nofun
  · obtain ⟨w1, w2, -⟩ := bounded_edges hp.2.2.1 hp.2.2.2.1 hc hs
    obtain ⟨hb, -, hd⟩ := bounded_bandpass hp.2.2.2.1 (bounded_fdiv w1 hs.1 hs1) (bounded_fdiv w2 hs.1 hs1) hw
    have m := (zero_bpMag hc hs.1 hs1 (by simp [bandpass]; exact hp.2.2.2.1) hb).1
    refine List.forall_mem_append.mpr ⟨?_, ?_⟩
    · have ht := nonZero_ofInt (k := p.numTaps) (n := 16) (by have := hp.2.2.1; omega)
        (bounded_ofInt (by have := hp.2.2.2.1; omega))
      simp only [List.forall_mem_cons]
      exact ⟨nonZero_of_unit c20 twenty_unit, ht, nonZero_of_unit c2 two_unit, nonZero_of_unit hs hs1, nofun⟩
    · split
      · refine List.forall_mem_append.mpr ⟨hd, ?_⟩
        rw [normDivisors, if_pos (guard_zero he1 he2 m)]
        exact nofun
      · exact nofun

theorem bounded_addBands : ∀ (gs fcs tf : List Flt), (∀ x ∈ tf, Bounded x 0) → (∀ g ∈ gs, Bounded g 7) →
    (∀ x ∈ fcs, Bounded x 37) →
    (∀ x ∈ addBands constantNum p win srf tf gs fcs, Bounded x 0) ∧
    AllFinite (bandsParts constantNum p win srf tf gs fcs)
  | [], _, tf, htf, _, _ => ⟨htf, allFinite_nil⟩
  | _ :: _, [], tf, htf, _, _ => ⟨htf, allFinite_nil⟩
  | g :: gs, fc :: fcs, tf, htf, hg, hf => by
    obtain ⟨h1, h2⟩ := bounded_addBand hp he1 he2 hw hs hs1 htf (hg g List.mem_cons_self) (hf fc List.mem_cons_self)
    obtain ⟨h3, h4⟩ := bounded_addBands gs fcs _ h1 (fun x hx => hg x (List.mem_cons_of_mem _ hx))
      (fun x hx => hf x (List.mem_cons_of_mem _ hx))
    exact ⟨h3, allFinite_append h2 h4⟩

end

/-- A gain in range is bounded. -/
theorem bounded_gain {g : Flt} (h : gainInRange constantNum g = true) : Bounded g 7 := by
  simp only [gainInRange, Bool.and_eq_true] at h
  obtain ⟨h1, h2⟩ := h
  have e1 : fle32 (fconst32 (-90) 1) g.bits = true := by rw [← bits_fconst]; exact h1
  have e2 : fle32 g.bits (fconst32 12 1) = true := by rw [← bits_fconst]; exact h2
  have f := isFinite32_of_fle32 e1 e2 (by rw [← bits_fconst]; exact cLow.1) (by rw [← bits_fconst]; exact cHigh.1)
  refine ⟨f, ?_⟩
  rw [← bits_fconst, fle32_iff (bounded32_notNaN cLow) (isNaN32_of_finite f), bits_fconst] at e1
  rw [← bits_fconst, fle32_iff (isNaN32_of_finite f) (bounded32_notNaN cHigh), bits_fconst] at e2
  obtain ⟨-, -, -, -, -, k1, k2, -⟩ := literal_units
  rw [k1] at e1
  rw [k2] at e2
  unfold signedUnits32 at e1 e2
  split at e1 <;> rename_i h <;> simp only [h, if_true, if_false, Bool.false_eq_true] at e2 <;> omega

theorem bounded_impulse (t : Nat) : ∀ x ∈ impulse constantNum t, Bounded x 0 := by
  intro x hx
  obtain ⟨n, -, rfl⟩ := List.mem_map.mp hx
  split
  · exact c1
  · exact c0.bounded 0

/-- The four constant functions meet condition 5 of rule R91. -/
theorem constantNum_staysFinite {p : Params} (hp : p.Sizes) (he1 : p.magEpsNum = 1) (he2 : p.magEpsDen = 1000000000) :
    constantNum.StaysFinite p := by
  refine ⟨finite_literals he1 he2, finite_windowParts hp.2.2.1 hp.2.2.2.1, nonZero_windowDivisors hp.2.2.1 hp.2.2.2.1,
    fun sr h1 h2 => ⟨finite_bandPlanParts h1 h2 hp.1 hp.2.1, nonZero_bandPlanDivisors hp.1 hp.2.1,
      fun gains _ hg => ⟨?_, fun d hd => ?_⟩⟩⟩
  rotate_left
  · obtain ⟨b, hb, hd⟩ := List.mem_flatMap.mp hd
    exact nonZero_bandDivisors hp he1 he2 (bounded_window p.numTaps) (bounded_srf h1 h2) (unit_srf h1 h2)
      (bounded_bandPlan h1 h2 _ _ (List.of_mem_zip hb).2) d hd
  have hs := bounded_srf h1 h2
  obtain ⟨a, b⟩ := bounded_addBands hp he1 he2 (bounded_window p.numTaps) hs (unit_srf h1 h2) gains
    (bandPlan constantNum sr p.numBands) _ (bounded_impulse p.numTaps) (fun g h => bounded_gain (hg g h))
    (bounded_bandPlan h1 h2 _)
  refine allFinite_append (allFinite_append (allFinite_append (allFinite_cons hs allFinite_nil)
    (allFinite_of_bounded (bounded_impulse _))) b) ?_
  intro x hx
  obtain ⟨y, hy, rfl⟩ := List.mem_map.mp hx
  exact (bounded_fmul (n := 15) (a y hy) cScale).finite

/-! ### The four open functions, and the record of an instance -/

/-- Four functions in the open places of rule R90 that meet condition 5 of rule R91, whatever the sizes of the instance,
at the decision value of `MAG_EPS`. -/
structure LegalFns where
  fns : OpenFns
  staysFinite : ∀ p : Params, p.Sizes → p.magEpsNum = 1 → p.magEpsDen = 1000000000 →
    (binary32 fns).coded.StaysFinite p

end Sys2Proof.Machine

namespace Sys2Proof

open Sys2Proof.Machine

/-- FREE VALUE: `fsin`, `fcos`, `flog10` and `fpow10` of the decision record, "each a named total function of the
model's configuration about which the model assumes nothing except the conditions of rule R91" (rule R90; log 3). The
argument only says that such functions exist. -/
opaque Config.anyOpenFns [Inhabited LegalFns] : LegalFns

/-- The four open functions. -/
def Config.openFns : LegalFns := @Config.anyOpenFns ⟨⟨constantFns, fun _ => constantNum_staysFinite⟩⟩

/-- `NUM`: the record an instance is built with (rules R5, R34 and R90; log 2). -/
def Params.num (p : Params) : Num Flt :=
  match p.numerics with
  | .binary32 => (binary32 Config.openFns.fns).coded
  | .other k => Config.otherNum k

/-- A legal instance: the constraints of rule R5, and a record that meets rule R91. -/
def Params.Legal (p : Params) : Prop :=
  p.Sizes ∧ (∃ val : Flt → EReal, p.num.Sound val) ∧ p.num.StaysFinite p

end Sys2Proof
end

