-- ==== Sys2Proof/Machine/State.lean ====
section
/-! DEFINITION. The state of EQFIR (rule R10) as plain data, with what stands around it: the two ports
(rule R60), the order of turns (rule R50), and the reset value (rules R33 and R190). The reasons a step can
stop are here too. -/

namespace Sys2Proof.Machine

/-! ### Storage (rule R40) -/

/-- A storage space: the elements written so far, each with its index, indices strictly rising. An element
that is not listed holds nothing (rule R33; log 8). The index is the spec's element index, since no space has
byte addresses (rule R40; log 9). -/
abbrev Memory (w : Nat) := List (Nat × BitVec w)

/-- The canonical form: indices strictly rising, so that equal memories are equal lists. -/
abbrev Memory.wf {w : Nat} (m : Memory w) : Prop := (m.map Prod.fst).Pairwise (· < ·)

/-! ### Pieces of the state -/

/-- The two kernel buffers (rule R20): buffer 0 is the source's `A`, buffer 1 its `B`. -/
inductive Buffer where
  | bufA
  | bufB
  deriving DecidableEq, Repr

/-- How far the rebuild engine has got (rule R28). -/
inductive Phase where
  | idle
  | commit
  | design
  | swap
  deriving DecidableEq, Repr

/-- The registers of one band (rules R11, R13, R14 and R15): pending gain, committed gain, centre frequency; floats in
the format of the instance's `NUM` (rule R12; log 2). -/
structure Band where
  /-- `GP[i]`. -/
  gp : Flt
  /-- `GC[i]`. -/
  gc : Flt
  /-- `FREQ[i]`. -/
  freq : Flt
  deriving DecidableEq, Repr

/-- A convolver's kernel reference `KREF[ch]` (rule R27). -/
structure KRef where
  valid : Bool
  sel : Buffer
  deriving DecidableEq, Repr

/-- The state of one channel (rules R25, R26 and R27). -/
structure Channel where
  /-- `HMEM[ch]`: each listed cell holds one `W`-bit sample in its low bits, the bits above being 0. -/
  hist : Memory 32
  /-- `CUR[ch]`. -/
  cur : Nat
  /-- `KREF[ch]`. -/
  kref : KRef
  deriving DecidableEq, Repr

/-- The status `ST` of an answer (rule R68); no other value is ever produced. -/
inductive Status where
  | ok
  | errIllegal
  | errIndex
  | errConfig
  | errNotCfg
  | busy
  | notNeeded
  | errValue
  deriving DecidableEq, Repr

/-- One answer: `ST` and `RW` (rule R60). -/
structure Answer where
  st : Status
  rw : Word
  deriving DecidableEq, Repr

/-- A port (rules R60 and R61; log 10): the commands its master has yet to present, in issue order, and the
answers given so far, newest first. -/
structure Port where
  pending : List Command
  answers : List Answer
  deriving DecidableEq, Repr

/-- The machine. The fields down to `apWait` are rule R10's complete list; the others stand for the ports and
for the order of turns, which rule R34 makes parameters of the step relation. -/
structure State where
  /-- The build parameters, which no step changes (rule R5; log 1). -/
  params : Params
  /-- `GP`, `GC` and `FREQ`, one record per band. -/
  bands : List Band
  /-- `WIN`, the window table. -/
  win : List Flt
  /-- `SRATE`, a 32-bit two's-complement integer (rule R16). -/
  srate : Word
  /-- `NCHAN` (rule R17). -/
  nchan : Nat
  /-- `IS_UPDATING` (rule R18). -/
  isUpdating : Bool
  /-- `GAINS_DIRTY` (rule R19). -/
  gainsDirty : Bool
  /-- `AUTO` (rule R21). -/
  autoUpdate : Bool
  /-- `ASEL`: the active buffer (rule R20). -/
  asel : Buffer
  /-- `KMEM[0]`. -/
  kmemA : Memory 16
  /-- `KMEM[1]`. -/
  kmemB : Memory 16
  /-- `HMEM`, `CUR` and `KREF`, one record for each of the `MAX_CH` channels. -/
  channels : List Channel
  /-- `PHASE` (rule R28). -/
  phase : Phase
  /-- `AP_WAIT` (rule R29). -/
  apWait : Bool
  /-- The port whose command is being executed; the step sets it before every command (log 14). -/
  port : PortId
  /-- The control port. -/
  cp : Port
  /-- The audio port. -/
  ap : Port
  /-- The order in which the agents are to move, next first (rule R50; log 11). -/
  turns : List Turn
  /-- How many free values have been drawn; the model's own (logs 7, 11 and 22). -/
  freeCount : Nat
  deriving DecidableEq, Repr

/-! ### Why a step stops -/

/-- The faults. None is reachable from reset (rule R33): an element that nothing has written is read. Safe: the
model stops where the spec says a read is impossible. -/
inductive Fault where
  /-- PROC or KRD reads `KMEM[b][n]` before anything has written it (rule R33; log 8). Safe. -/
  | unwrittenKernelTap (b : Buffer) (n : Nat)
  /-- PROC reads ring position `j` of a channel before anything has written it (rule R33; log 8). Safe. -/
  | unwrittenHistory (j : Nat)
  deriving DecidableEq, Repr

/-- The refusals. -/
inductive Refusal where
  /-- An instruction with no meaning yet, raised by `exec` alone. No arm of this model raises it. Safe. -/
  | notModelled (mnemonic : String)
  deriving DecidableEq, Repr

/-! ### Reset -/

/-- A port whose master has nothing to present and that has answered nothing. -/
def Port.empty : Port := ⟨[], []⟩

/-- The state right after reset of the instance with these parameters (rule R33). `k` numbers the reset: the
elements that rule R33 calls unspecified hold values that depend on it and that nothing else is known of
(log 7). -/
def State.resetOf (p : Params) (k : Nat) : State where
  params := p
  bands := List.replicate p.numBands ⟨p.num.fconst 0 1, p.num.fconst 0 1, p.num.fconst 0 1⟩
  win := (List.range p.numTaps).map (Config.winAtReset k)
  srate := 0
  nchan := 0
  isUpdating := false
  gainsDirty := false
  autoUpdate := false
  asel := .bufA
  kmemA := []
  kmemB := []
  channels := (List.range p.maxChannels).map fun ch =>
    ⟨[], Config.curAtReset k ch, ⟨false, if Config.selAtReset k ch then .bufB else .bufA⟩⟩
  phase := .idle
  apWait := false
  port := .cp
  cp := Port.empty
  ap := Port.empty
  turns := []
  freeCount := k + 1

/-- The machine right after reset (rules R33 and R191), with the parameters of `Params.scenario` (log 1). -/
def State.reset : State := State.resetOf Params.scenario 0

end Sys2Proof.Machine
end

