-- ==== Sys2Proof/Machine/Ops.lean ====
section
/-! DEFINITION. The named operations over the state that the meanings share: reading and writing the storage
spaces and registers (rules R7, R40 and R44), completing a command (rules R7, R60 and R176), the rebuild
request (rule R112), and what the outside does at the ports and to the order of turns (rules R50, R61 and
R190). -/

namespace Sys2Proof.Machine

/-! ### Storage spaces: `MemRead` and `MemWrite` of one whole element (rules R7 and R40) -/

/-- The element at an index, if one has been written. -/
def Memory.read {w : Nat} : Memory w → Nat → Option (BitVec w)
  | [], _ => none
  | (a, v) :: m, i => if a = i then some v else Memory.read m i

/-- Writes one element, keeping the canonical form. -/
def Memory.write {w : Nat} : Memory w → Nat → BitVec w → Memory w
  | [], i, v => [(i, v)]
  | (a, u) :: m, i, v =>
    if i < a then (i, v) :: (a, u) :: m
    else if i = a then (i, v) :: m
    else (a, u) :: Memory.write m i v

/-- The loop `for n in 0 .. t-1: MemWrite(m, n, f n)`. -/
def Memory.writeAll {w : Nat} (m : Memory w) (f : Nat → BitVec w) (t : Nat) : Memory w :=
  (List.range t).foldl (fun m n => m.write n (f n)) m

/-! ### Buffers, bands and channels -/

/-- The numerics record of the instance (rule R34). -/
def State.num (s : State) : Num Flt := s.params.num

/-- The other buffer: `1 - b` (rule R20). -/
def Buffer.other : Buffer → Buffer
  | .bufA => .bufB
  | .bufB => .bufA

/-- The number of a buffer as one bit (rule R20). -/
def Buffer.bit : Buffer → Bool
  | .bufA => false
  | .bufB => true

/-- `KMEM[b]`. -/
def State.kmem (s : State) : Buffer → Memory 16
  | .bufA => s.kmemA
  | .bufB => s.kmemB

/-- Replaces the contents of `KMEM[b]`. -/
def State.setKmem (s : State) (b : Buffer) (m : Memory 16) : State :=
  { s with
    kmemA := if b = .bufA then m else s.kmemA
    kmemB := if b = .bufB then m else s.kmemB }

/-- The registers of band `i`; all zeros where the register file has no such band (log 20). -/
def State.band (s : State) (i : Nat) : Band := s.bands.getD i ⟨⟨0⟩, ⟨0⟩, ⟨0⟩⟩

/-- `GP[i] <- g`. -/
def State.setPending (s : State) (i : Nat) (g : Flt) : State :=
  { s with bands := s.bands.modify i fun b => { b with gp := g } }

/-- The state of channel `ch`; empty, with no kernel assigned, where there is no such channel (log 20). -/
def State.channel (s : State) (ch : Nat) : Channel := s.channels.getD ch ⟨[], 0, ⟨false, .bufA⟩⟩

/-- Replaces the state of channel `ch`. -/
def State.setChannel (s : State) (ch : Nat) (c : Channel) : State :=
  { s with channels := s.channels.set ch c }

/-! ### Completing a command (rules R7 and R60) -/

/-- The port with this name. -/
def State.portOf (s : State) : PortId → Port
  | .cp => s.cp
  | .ap => s.ap

/-- Delivers an answer on a port. -/
def State.answerOn (s : State) (p : PortId) (a : Answer) : State :=
  { s with
    cp := if p = .cp then { s.cp with answers := a :: s.cp.answers } else s.cp
    ap := if p = .ap then { s.ap with answers := a :: s.ap.answers } else s.ap }

/-- Delivers an answer on the port whose command is being executed. -/
def State.respond (s : State) (st : Status) (rw : Word) : State := s.answerOn s.port ⟨st, rw⟩

/-- `respond(st, rw)`: the command completes with this answer (rule R7). -/
def respond (st : Status) (rw : Word) (s : State) : Host.Outcome State Fault Refusal :=
  .next (s.respond st rw)

/-- `raise Err(code)`: the command completes with `ST = code`, `RW = 0` and no state change. It is no trap:
nothing is saved and no control is transferred (rules R7 and R176). -/
def raiseErr (code : Status) (s : State) : Host.Outcome State Fault Refusal := respond code 0 s

/-- Runs a meaning on the port that accepts it; on the other port the command is illegal (rule R64). -/
def onPort (p : PortId) (s : State) (body : Host.Outcome State Fault Refusal) :
    Host.Outcome State Fault Refusal :=
  if s.port = p then body else raiseErr .errIllegal s

/-! ### The rebuild request (rule R112) -/

/-- What a rebuild request returns. -/
inductive RequestResult where
  | notCfg
  | busy
  | notNeeded
  | started
  deriving DecidableEq, Repr

/-- Whether the block is configured: `SRATE > 0`, as a signed number (rule R16). -/
def State.configured (s : State) : Bool := decide (0 < s.srate.toInt)

/-- What a request would return in this state (rule R112). -/
def State.requestResult (s : State) (force : Bool) : RequestResult :=
  if s.configured = false then .notCfg
  else if s.isUpdating then .busy
  else if force = false ∧ s.gainsDirty = false then .notNeeded
  else .started

/-- The claim: the set half of the test-and-set (rules R56 and R112). -/
def State.claim (s : State) : State := { s with isUpdating := true, phase := .commit }

/-- The rebuild request procedure (rule R112): it writes only when it returns STARTED. -/
def rebuildRequest (force : Bool) (s : State) : RequestResult × State :=
  let r := s.requestResult force
  (r, if r = .started then s.claim else s)

/-! ### Ports, turns and reset -/

/-- Who moves next, and the state in which that move is made: the schedule's next entry, or a free one once the
schedule is used up (rule R50; log 11). -/
def State.nextTurn (s : State) : Turn × State :=
  match s.turns with
  | t :: ts => (t, { s with turns := ts })
  | [] => (Config.freeTurn s.freeCount, { s with freeCount := s.freeCount + 1 })

/-- The next command of a port's master and the state in which it is executed; none if the master has nothing
to present (rule R61). -/
def State.fetch (s : State) (p : PortId) : Option (Command × State) :=
  match p with
  | .cp =>
    match s.cp.pending with
    | [] => none
    | c :: cs => some (c, { s with cp := { s.cp with pending := cs }, port := .cp })
  | .ap =>
    match s.ap.pending with
    | [] => none
    | c :: cs => some (c, { s with ap := { s.ap with pending := cs }, port := .ap })

/-- The reset event (rule R190): every element of rule R10's list takes its reset value, and a BLOCK whose
answer was withheld stays without one. What the masters have yet to present, what has been answered and the
order of turns are outside the block and stay (log 13). -/
def State.resetEvent (s : State) : State :=
  { State.resetOf s.params s.freeCount with
    port := s.port, cp := s.cp, ap := s.ap, turns := s.turns }

/-- The port a command word is meant for: AP for BLOCK and PROC, CP for all others (rule R64). -/
def portForWord (cw : Word) : PortId :=
  if opcField cw = 0xC ∨ opcField cw = 0xD then .ap else .cp

/-- The master of port `p` presents a command and its agent moves next. On AP the hold is lifted, since AP
accepts no command while it lasts (rules R61 and R138; log 17). -/
def State.present (s : State) (p : PortId) (c : Command) : State :=
  match p with
  | .cp => { s with cp := { s.cp with pending := c :: s.cp.pending }, turns := .cp :: s.turns }
  | .ap =>
    { s with ap := { s.ap with pending := c :: s.ap.pending }, turns := .ap :: s.turns, apWait := false }

end Sys2Proof.Machine
end

