-- ==== Sys2Proof/Machine/Operands.lean ====
section
/-! DEFINITION. How operands are read and results formed: `AW` and `RW` (rule R66), the kernel selector
(rule R120), ring positions (rule R41), and the integer arithmetic of the MAC datapath (rules R134 and
R135). -/

namespace Sys2Proof.Machine

/-! ### Argument and response words (rule R66) -/

/-- `sext_32(AW)`: BEGIN's sample rate in Hz. -/
def sampleRateOf (aw : Word) : Int := aw.toInt

/-- `sext_W(AW[W-1:0])`: a sample; the bits above `W` are ignored. It also reads a history cell, which holds
the low `W` bits (rule R44). -/
def sampleOf (w : SampleWidth) (aw : Word) : Int := (aw.setWidth w.bits).toInt

/-- The history cell that holds a sample: its low `W` bits (rule R44). -/
def cellOf (w : SampleWidth) (aw : Word) : Word := (aw.setWidth w.bits).setWidth 32

/-- `sext_16` of a stored coefficient (rule R44). -/
def coeffValue (v : Coeff) : Int := v.toInt

/-- An integer as a 32-bit two's-complement response word. -/
def responseOf (k : Int) : Word := BitVec.ofInt 32 k

/-- A count or size as a 32-bit response word (rule R22). -/
def responseOfNat (n : Nat) : Word := BitVec.ofNat 32 n

/-! ### Selectors and positions -/

/-- The buffer that a kernel selector names (rule R120). -/
def State.selected (s : State) : KSel → Buffer
  | .act => s.asel
  | .stg => s.asel.other
  | .bufA => .bufA
  | .bufB => .bufB

/-- The ring position of the sample of age `k`, for `k < t`: `(c - k) mod t` (rules R41 and R133). -/
def ringPos (t c k : Nat) : Nat := (c + t - k) % t

/-- The cursor after `c` (rule R133). -/
def nextCursor (t c : Nat) : Nat := (c + 1) % t

/-! ### Datapath arithmetic -/

/-- `acc >>a 15`: `floor(acc / 32768)` (rule R135). -/
def descale (acc : Int) : Int := acc / 32768

/-- `sat_W` (rules R6 and R135). -/
def saturate (w : SampleWidth) (v : Int) : Int :=
  min (max v (-2 ^ (w.bits - 1))) (2 ^ (w.bits - 1) - 1)

/-- The multiply-accumulate over the taps in the list, on top of `acc`: coefficient `k` of `kern` with the
sample of age `k` in `hist`, exactly (rules R130 and R134). It faults where an element was never written. -/
def macOver (w : SampleWidth) (t c : Nat) (hist : Memory 32) (b : Buffer) (kern : Memory 16) :
    List Nat → Int → Except Fault Int
  | [], acc => .ok acc
  | k :: ks, acc =>
    match hist.read (ringPos t c k) with
    | none => .error (.unwrittenHistory (ringPos t c k))
    | some x =>
      match kern.read k with
      | none => .error (.unwrittenKernelTap b k)
      | some v => macOver w t c hist b kern ks (acc + sampleOf w x * coeffValue v)

end Sys2Proof.Machine
end

