-- ==== Sys2Proof/Machine/Flags.lean ====
section
/-! DEFINITION. The status and parameter registers that RDCSR reads: views of the state, none with storage of
its own (rule R22). EQFIR has no arithmetic flags (rule R141). -/

namespace Sys2Proof.Machine

/-- `KREF_VALID`: some channel exists and channel 0 has a kernel (rule R22). -/
def State.krefValid (s : State) : Bool := decide (0 < s.nchan) && (s.channel 0).kref.valid

/-- `STATUS`, bit 0 to bit 5: CONFIGURED, IS_UPDATING, GAINS_DIRTY, AUTO_UPDATE, ACTIVE_SEL, KREF_VALID; bits
31:6 read as 0 (rule R22). -/
def State.statusWord (s : State) : Word :=
  (0 : BitVec 26) ++ BitVec.ofBool s.krefValid ++ BitVec.ofBool s.asel.bit ++ BitVec.ofBool s.autoUpdate ++
    BitVec.ofBool s.gainsDirty ++ BitVec.ofBool s.isUpdating ++ BitVec.ofBool s.configured

/-- The value of control and status register `r`, for `r < 8` (rule R22). -/
def State.csr (s : State) : Nat → Word
  | 0 => s.statusWord
  | 1 => s.srate
  | 2 => responseOfNat s.nchan
  | 3 => responseOfNat s.params.numBands
  | 4 => responseOfNat s.params.numTaps
  | 5 => responseOfNat s.params.sampleWidth.bits
  | 6 => responseOfNat s.params.maxChannels
  | 7 => responseOfNat s.params.accWidth
  | _ => 0

/-- The number `ST` that encodes a status (rule R68). -/
def Status.code : Status → BitVec 4
  | .ok => 0
  | .errIllegal => 1
  | .errIndex => 2
  | .errConfig => 3
  | .errNotCfg => 4
  | .busy => 5
  | .notNeeded => 6
  | .errValue => 7

end Sys2Proof.Machine
end

