-- ==== Sys2Proof/Machine/Convolver.lean ====
section
/-! DEFINITION. The audio path: PROC and BLOCK (spec/43_convolver.md). -/

namespace Sys2Proof.Machine

/-- PROC (rules R130 to R135): bypass while no kernel is assigned, else one sample through the channel's ring and
kernel. -/
def execProc (ch : Nat) (x : Word) (s : State) : Host.Outcome State Fault Refusal :=
  onPort .ap s <|
    let w := s.params.sampleWidth
    let t := s.params.numTaps
    let c := s.channel ch
    if s.nchan ≤ ch then raiseErr .errIndex s
    else if c.kref.valid = false then respond .ok (responseOf (sampleOf w x)) s
    else
      let hist := c.hist.write c.cur (cellOf w x)
      match macOver w t c.cur hist c.kref.sel (s.kmem c.kref.sel) (List.range t) 0 with
      | .error f => .fault f
      | .ok acc =>
        respond .ok (responseOf (saturate w (descale acc)))
          (s.setChannel ch { c with hist := hist, cur := nextCursor t c.cur })

/-- BLOCK (rules R137 and R138): with auto-update on it requests a rebuild; if that starts one, the port is held
and the answer withheld until E-SWAP. -/
def execBlock (s : State) : Host.Outcome State Fault Refusal :=
  onPort .ap s <|
    if s.autoUpdate = false then respond .ok 0 s
    else
      match rebuildRequest false s with
      | (.started, t) => .next { t with apWait := true }
      | (.busy, _) => respond .ok 2 s
      | (.notNeeded, _) => respond .ok 3 s
      | (.notCfg, _) => respond .ok 4 s

end Sys2Proof.Machine
end

