-- ==== Sys2Proof/Machine/Facade.lean ====
section
/-! DEFINITION. The facade's control operations: NOP, BEGIN, END, SETG, SETGN, GETG, GETF, SETAUTO and RDCSR
(spec/44_facade_control.md). Each is one atomic step (rule R50). -/

namespace Sys2Proof.Machine

/-- NOP, on either port (rule R150). -/
def execNop (s : State) : Host.Outcome State Fault Refusal := respond .ok 0 s

/-! ### Configuration -/

/-- Takes in a band plan: `FREQ[i] <- F[i]` (rule R151). -/
def State.setFreqs (s : State) (plan : List Flt) : State :=
  { s with bands := s.bands.mapIdx fun i b => { b with freq := plan.getD i b.freq } }

/-- Clears `KREF[ch].valid` of every channel (rules R151 and R153). -/
def State.clearKrefs (s : State) : State :=
  { s with channels := s.channels.map fun c => { c with kref := { c.kref with valid := false } } }

/-- Zeroes the ring and the cursor of every channel below `nch` (rule R151). -/
def State.clearHistories (s : State) (nch : Nat) : State :=
  { s with
    channels := s.channels.mapIdx fun ch c =>
      if ch < nch then { c with hist := c.hist.writeAll (fun _ => 0) s.params.numTaps, cur := 0 } else c }

/-- Writes the identity kernel into both buffers (rules R24 and R151). -/
def State.initKernels (s : State) : State :=
  { s with
    kmemA := s.kmemA.writeAll (identityKernel s.params.numTaps) s.params.numTaps
    kmemB := s.kmemB.writeAll (identityKernel s.params.numTaps) s.params.numTaps }

/-- What BEGIN does to the state before it requests the rebuild (rule R151). -/
def State.configure (s : State) (nch : Nat) (sr : Word) : State :=
  let s1 := { s with srate := sr, nchan := nch, win := window s.num s.params.numTaps }
  let s2 := s1.setFreqs (bandPlan s.num (sampleRateOf sr) s.params.numBands)
  (s2.clearKrefs.clearHistories nch).initKernels

/-- BEGIN (rules R151 and R152): ERR_CONFIG before BUSY; the gains, `GAINS_DIRTY`, `AUTO` and `ASEL` stay. -/
def execBegin (nch : Nat) (sr : Word) (s : State) : Host.Outcome State Fault Refusal :=
  onPort .cp s <|
    if sampleRateOf sr ≤ 0 then raiseErr .errConfig s
    else if nch = 0 ∨ s.params.maxChannels < nch then raiseErr .errConfig s
    else if s.isUpdating then raiseErr .busy s
    else respond .ok 0 (rebuildRequest true (s.configure nch sr)).2

/-- END (rule R153). -/
def execEnd (s : State) : Host.Outcome State Fault Refusal :=
  onPort .cp s <|
    if s.isUpdating then raiseErr .busy s
    else respond .ok 0 { s with srate := 0, nchan := 0 }.clearKrefs

/-! ### The band-gain accumulator -/

/-- The clamp of a gain to [-90.0, +12.0] dB (rule R154). -/
def gclamp {F : Type} (num : Num F) (g : F) : F :=
  if num.flt g (num.fconst (-90) 1) then num.fconst (-90) 1
  else if num.flt (num.fconst 12 1) g then num.fconst 12 1
  else g

/-- The gain of a normalised value: `90 v` below zero, `12 v` from zero on (rule R155). -/
def normalisedGain {F : Type} (num : Num F) (v : F) : F :=
  if num.flt v (num.fconst 0 1) then num.fmul v (num.fconst 90 1) else num.fmul v (num.fconst 12 1)

/-- What SETG and SETGN write: the clamped gain and the dirty mark (rules R154 and R155). -/
def State.storeGain (s : State) (i : Nat) (g : Flt) : State :=
  { s.setPending i (gclamp s.num g) with gainsDirty := true }

/-- SETG (rule R154). -/
def execSetg (i : Nat) (g : Word) (s : State) : Host.Outcome State Fault Refusal :=
  onPort .cp s <|
    if s.params.numBands ≤ i then raiseErr .errIndex s
    else if s.num.isNaN (s.num.ofBits32 g) then raiseErr .errValue s
    else respond .ok 0 (s.storeGain i (s.num.ofBits32 g))

/-- SETGN (rule R155). -/
def execSetgn (i : Nat) (v : Word) (s : State) : Host.Outcome State Fault Refusal :=
  onPort .cp s <|
    if s.params.numBands ≤ i then raiseErr .errIndex s
    else if s.num.isNaN (s.num.ofBits32 v) then raiseErr .errValue s
    else respond .ok 0 (s.storeGain i (normalisedGain s.num (s.num.ofBits32 v)))

/-- GETG (rule R156): the pending gain, or with `sel` the committed one. -/
def execGetg (sel : Bool) (i : Nat) (s : State) : Host.Outcome State Fault Refusal :=
  onPort .cp s <|
    if s.params.numBands ≤ i then raiseErr .errIndex s
    else respond .ok (s.num.toBits32 (if sel then (s.band i).gc else (s.band i).gp)) s

/-- GETF (rule R157). -/
def execGetf (i : Nat) (s : State) : Host.Outcome State Fault Refusal :=
  onPort .cp s <|
    if s.params.numBands ≤ i then raiseErr .errIndex s
    else respond .ok (s.num.toBits32 (s.band i).freq) s

/-! ### Mode and observation -/

/-- SETAUTO (rule R158). -/
def execSetauto (en : Bool) (s : State) : Host.Outcome State Fault Refusal :=
  onPort .cp s <| respond .ok 0 { s with autoUpdate := en }

/-- RDCSR (rule R159). -/
def execRdcsr (r : Nat) (s : State) : Host.Outcome State Fault Refusal :=
  onPort .cp s <| if 8 ≤ r then raiseErr .errIndex s else respond .ok (s.csr r) s

end Sys2Proof.Machine
end

