-- ==== Sys2Proof/Machine/KernelStore.lean ====
section
/-! DEFINITION. The double-buffered kernel store: UPDATE, KRD and the three steps of the rebuild engine
(spec/42_kernel_store.md). -/

namespace Sys2Proof.Machine

/-- UPDATE (rule R113): split-phase, it answers at the claim. -/
def execUpdate (force : Bool) (s : State) : Host.Outcome State Fault Refusal :=
  onPort .cp s <|
    match rebuildRequest force s with
    | (.notCfg, _) => raiseErr .errNotCfg s
    | (.busy, _) => raiseErr .busy s
    | (.notNeeded, _) => raiseErr .notNeeded s
    | (.started, t) => respond .ok 1 t

/-- KRD (rule R120): ERR_INDEX, ERR_NOTCFG and BUSY in that order. -/
def execKrd (ksel : KSel) (n : Nat) (s : State) : Host.Outcome State Fault Refusal :=
  onPort .cp s <|
    if s.params.numTaps ≤ n then raiseErr .errIndex s
    else if s.configured = false then raiseErr .errNotCfg s
    else if s.isUpdating ∧ s.selected ksel = s.asel.other then raiseErr .busy s
    else
      match (s.kmem (s.selected ksel)).read n with
      | none => .fault (.unwrittenKernelTap (s.selected ksel) n)
      | some v => respond .ok (responseOf (coeffValue v)) s

/-! ### The rebuild engine (rule R115) -/

/-- E-COMMIT: all pending gains become committed in one step (rule R116). -/
def State.eCommit (s : State) : State :=
  { s with bands := s.bands.map fun b => { b with gc := b.gp }, phase := .design }

/-- The kernel that E-DESIGN computes from the committed gains (rules R104 and R117). -/
def State.designed (s : State) : List Coeff :=
  let gains := s.bands.map Band.gc
  let freqs := s.bands.map Band.freq
  design s.num s.params (Config.nanCoeff s.params gains freqs s.srate.toInt s.win) gains freqs s.srate.toInt s.win

/-- E-DESIGN: the new kernel goes into the staging buffer (rule R117). -/
def State.eDesign (s : State) : State :=
  { s.setKmem s.asel.other
      ((s.kmem s.asel.other).writeAll (fun n => s.designed.getD n 0) s.params.numTaps) with phase := .swap }

/-- Points every channel that exists at a buffer (rules R27 and R118). -/
def State.assignKrefs (s : State) (b : Buffer) : State :=
  { s with channels := s.channels.mapIdx fun ch c => if ch < s.nchan then { c with kref := ⟨true, b⟩ } else c }

/-- E-SWAP (rule R118). Where the audio port was held, the BLOCK that started the rebuild is answered now
(rules R137 and R138; log 15). -/
def State.eSwap (s : State) : State :=
  { s.assignKrefs s.asel.other with
    asel := s.asel.other, gainsDirty := false, isUpdating := false, phase := .idle, apWait := false,
    ap := if s.apWait then { s.ap with answers := ⟨.ok, 1⟩ :: s.ap.answers } else s.ap }

/-- The engine's enabled step, if there is one (rule R115). -/
def State.engineStep (s : State) : State :=
  match s.phase with
  | .idle => s
  | .commit => s.eCommit
  | .design => s.eDesign
  | .swap => s.eSwap

end Sys2Proof.Machine
end

