-- ==== Sys2Proof/Machine/Dispatch.lean ====
section
/-! DEFINITION. The one match from an operation to its meaning (rule R63). -/

namespace Sys2Proof.Machine

/-- Runs one command on the port that the state names. -/
def exec (i : Instr) (s : State) : Host.Outcome State Fault Refusal :=
  match i with
  | .nop => Sys2Proof.Machine.execNop s
  | .begin_ nch sr => Sys2Proof.Machine.execBegin nch sr s
  | .end_ => Sys2Proof.Machine.execEnd s
  | .setg n g => Sys2Proof.Machine.execSetg n g s
  | .setgn n v => Sys2Proof.Machine.execSetgn n v s
  | .getg sel n => Sys2Proof.Machine.execGetg sel n s
  | .getf n => Sys2Proof.Machine.execGetf n s
  | .update force => Sys2Proof.Machine.execUpdate force s
  | .setauto en => Sys2Proof.Machine.execSetauto en s
  | .rdcsr r => Sys2Proof.Machine.execRdcsr r s
  | .krd ksel n => Sys2Proof.Machine.execKrd ksel n s
  | .block => Sys2Proof.Machine.execBlock s
  | .proc ch x => Sys2Proof.Machine.execProc ch x s

end Sys2Proof.Machine
end

