-- ==== Sys2Proof/Machine/Step.lean ====
section
/-! DEFINITION. One step of the machine: one agent's move, or the reset event (rules R50, R183 and R190). -/

namespace Sys2Proof.Machine

/-- A port agent's move: its master's next command is executed, and a word that is no operation is answered
ERR_ILLEGAL (rule R69). With nothing to present the turn passes. -/
def runPort (p : PortId) (s : State) : Host.Outcome State Fault Refusal :=
  match s.fetch p with
  | none => .next s
  | some (c, t) =>
    match decodeCommand c.cw c.aw with
    | .error _ => raiseErr .errIllegal t
    | .ok i => exec i t

/-- One atomic step (rule R50). The audio port has no enabled step while `AP_WAIT = 1` (rule R138). -/
def step (s : State) : Host.Outcome State Fault Refusal :=
  match s.nextTurn with
  | (.cp, t) => runPort .cp t
  | (.ap, t) => if t.apWait then .next t else runPort .ap t
  | (.eng, t) => .next t.engineStep
  | (.reset, t) => .next t.resetEvent

/-- `s` with the command whose bits are `w` presented on the port that takes it, and that port's agent to move
next (log 17). -/
def State.withFetchWord (s : State) (nbits w : Nat) : State :=
  s.present (portForWord (commandOfTableWord nbits w).cw) (commandOfTableWord nbits w)

end Sys2Proof.Machine
end

