-- ==== Sys2Proof/Safety.lean ====
section
/-! DEFINITION. The terms claims use: the invariant of rule R31, runs of the machine, the engine's weak fairness
(rule R57), and what it means that a run is safe. -/

namespace Sys2Proof.Machine

/-! ### The invariant -/

/-- The register files and tables have the sizes that the parameters give them (rule R10). -/
abbrev State.Shaped (s : State) : Prop :=
  s.bands.length = s.params.numBands ∧ s.win.length = s.params.numTaps ∧
    s.channels.length = s.params.maxChannels

/-- What holds at every instant between steps (rule R31), with the shape of the state (rules R5 and R10) and with
what rule R33 says of the elements that have not been written: none that can be read. -/
structure State.Inv (s : State) : Prop where
  /-- The instance is legal (rules R5 and R91). -/
  legal : s.params.Legal
  /-- The sizes of rule R10. -/
  shaped : s.Shaped
  /-- The kernel memories are in canonical form. -/
  kernelsCanonical : s.kmemA.wf ∧ s.kmemB.wf
  /-- The history memories are in canonical form. -/
  historiesCanonical : ∀ c ∈ s.channels, c.hist.wf
  /-- A history cell holds `W` bits (rule R40). -/
  samplesFit : ∀ c ∈ s.channels, ∀ e ∈ c.hist, e.2.toNat < 2 ^ s.params.sampleWidth.bits
  /-- Rule R31 item 7 and rule R14. -/
  gainsInRange : ∀ b ∈ s.bands, gainInRange s.num b.gp = true ∧ gainInRange s.num b.gc = true
  /-- Rule R31 item 3. -/
  updatingPhase : s.isUpdating = true ↔ s.phase ≠ .idle
  /-- Rule R31 item 4. -/
  updatingConfigured : s.isUpdating = true → s.configured = true
  /-- Rule R31 item 5. -/
  waitUpdating : s.apWait = true → s.isUpdating = true
  /-- Rule R16: no negative value is ever stored. -/
  rateNonneg : 0 ≤ s.srate.toInt
  /-- Rule R17. -/
  channelsConfigured : 0 < s.nchan ↔ s.configured = true
  /-- Rule R17. -/
  channelsBound : s.nchan ≤ s.params.maxChannels
  /-- Rule R31 item 6. -/
  cursors : ∀ ch < s.nchan, (s.channel ch).cur < s.params.numTaps
  /-- Rules R80 to R86: once configured, the centre frequencies are those of the sample rate. -/
  freqsPlanned : s.configured = true → s.bands.map Band.freq = bandPlan s.num s.srate.toInt s.params.numBands
  /-- Rules R84 and R86: once configured, the window is the table of `T`. -/
  windowFilled : s.configured = true → s.win = window s.num s.params.numTaps
  /-- Rule R33: once configured, both kernels have been written. -/
  kernelsWritten : s.configured = true → ∀ b, ∀ n < s.params.numTaps, ((s.kmem b).read n).isSome = true
  /-- Rule R33: the ring of a channel that exists has been written. -/
  historiesWritten : ∀ ch < s.nchan, ∀ j < s.params.numTaps, ((s.channel ch).hist.read j).isSome = true
  /-- Rule R27: a valid reference names the active buffer. -/
  krefActive : ∀ ch, (s.channel ch).kref.valid = true → (s.channel ch).kref.sel = s.asel
  /-- Rule R27: the references of the channels that exist agree (log 19). -/
  krefAgree : ∀ ch < s.nchan, (s.channel ch).kref.valid = (s.channel 0).kref.valid
  /-- Rule R27: a channel that does not exist has no kernel. -/
  krefAbsent : ∀ ch, s.nchan ≤ ch → (s.channel ch).kref.valid = false

/-! ### Values that claims read -/

/-- The sample at a ring position, as a number (rule R44); 0 where nothing has been written. -/
def State.sampleAt (s : State) (ch j : Nat) : Int :=
  match (s.channel ch).hist.read j with
  | some v => sampleOf s.params.sampleWidth v
  | none => 0

/-- A coefficient as a number (rule R44); 0 where nothing has been written. -/
def State.coeffAt (s : State) (b : Buffer) (n : Nat) : Int :=
  match (s.kmem b).read n with
  | some v => v.toInt
  | none => 0

/-- The extended real number that a binary32 pattern stands for, if it is no NaN (rules R67 and R91). -/
noncomputable def value32 (a : F32) : EReal :=
  if isInf32 a then (if sign32 a then ⊥ else ⊤) else ((signedUnits32 a / 2 ^ 149 : ℝ) : EReal)

/-- The binary32 value `r` is the real number `x * 2^-149`, correctly rounded (rule R90): to nearest, at a tie to the
value with the even fraction, with the sign of `x`; and, PRESUMED (log 2: rule R90 does not say when a result overflows),
to an infinity from halfway past the greatest finite value on. -/
def RoundsTo (x : ℝ) (r : F32) : Prop :=
  (x < 0 → sign32 r = true) ∧ (0 < x → sign32 r = false) ∧
  (|x| < (2 ^ 25 - 1) * 2 ^ 252 → isFinite32 r = true ∧ ∀ f, isFinite32 f = true →
    |x - signedUnits32 r| ≤ |x - signedUnits32 f| ∧
    (|x - signedUnits32 r| = |x - signedUnits32 f| → signedUnits32 f = signedUnits32 r ∨ frac32 r % 2 = 0)) ∧
  ((2 ^ 25 - 1) * 2 ^ 252 ≤ |x| → isInf32 r = true)

/-! ### Runs -/

/-- A step that goes on: it answers neither a fault nor a refusal. -/
def State.Steps (s t : State) : Prop := step s = .next t

/-- An infinite run: every state is followed by what `step` answers (rule R50). -/
def Execution (tr : Nat → State) : Prop := ∀ n, (tr n).Steps (tr (n + 1))

/-- ENG is weakly fair: whenever its step is enabled, it gets a turn later on (rule R57; log 12). -/
def EngineFair (tr : Nat → State) : Prop :=
  ∀ n, (tr n).phase ≠ .idle → ∃ m, n ≤ m ∧ (tr m).nextTurn.1 = .eng

/-- A safe run: no state of it breaks the invariant (rule R31). -/
def SafeRun (tr : Nat → State) : Prop := ∀ n, (tr n).Inv

/-- Several commands executed on one port with nothing between them, as far as they go on. -/
def execAll : List Instr → State → Host.Outcome State Fault Refusal
  | [], s => .next s
  | i :: is, s =>
    match exec i s with
    | .next t => execAll is t
    | .fault f => .fault f
    | .refused r => .refused r

/-- A whole rebuild with nothing between its steps: the claim of a forced request, E-COMMIT, E-DESIGN and E-SWAP
(rules R9 and R112 to R118). -/
def State.rebuild (s : State) : State := s.claim.eCommit.eDesign.eSwap

end Sys2Proof.Machine
end

