-- ==== Sys2Proof/Certificates/Slice0/Obligations.lean ====
section
/-! DEFINITION. The statements for the provers. Each docstring names the rule of spec/ it formalises, or says that
it is derived and from what. `s` is the state before and `t` the state after throughout; a clause of the form
`{ t with field := s.field } = …` is the frame: every field not named in it is as on the right. -/

open Sys2Proof Sys2Proof.Machine

/-! ### Encoding (spec/30_encoding.md) -/

/-- The command words of the vectors V-ENC-1 to V-ENC-14 decode to the operations they stand for, or to none
(derived from rules R62, R63 and R69). -/
def Obligations.VectorWordsDecode : Prop :=
  decodeCommand 0x00000000 0xDEADBEEF = .ok .nop ∧
  decodeCommand 0x10000002 0x0000AC44 = .ok (.begin_ 2 44100) ∧
  decodeCommand 0x20000000 7 = .ok .end_ ∧
  decodeCommand 0x30000000 0xC3480000 = .ok (.setg 0 0xC3480000) ∧
  decodeCommand 0x40000003 0xBF000000 = .ok (.setgn 3 0xBF000000) ∧
  decodeCommand 0x5100000B 1 = .ok (.getg true 11) ∧
  decodeCommand 0x6000000B 0 = .ok (.getf 11) ∧
  decodeCommand 0x71000000 0 = .ok (.update true) ∧
  decodeCommand 0x81000000 0 = .ok (.setauto true) ∧
  decodeCommand 0x90000004 0 = .ok (.rdcsr 4) ∧
  decodeCommand 0xA300007F 0 = .ok (.krd .bufB 127) ∧
  decodeCommand 0xC0000000 0 = .ok .block ∧
  decodeCommand 0xD0000001 0xFFFFFFFF = .ok (.proc 1 0xFFFFFFFF) ∧
  decodeCommand 0xB0000000 0 = .error .reservedOpcode ∧
  decodeCommand 0x00000001 0 = .error .nonzeroIndex ∧
  decodeCommand 0x72000000 0 = .error .undefinedModifier ∧
  decodeCommand 0x30800000 0 = .error .reservedField

/-- Every well-formed command is read back from its words and from its bytes, with every operand at every value
(derived from rules R62, R63, R66, R42 and R71). -/
def Obligations.DecodeEncodeRoundTrip : Prop :=
  ∀ i : Instr, i.wellFormed = true →
    decodeCommand (encode i).cw (encode i).aw = .ok i ∧
    ∀ rest, decodeBytes (encodeBytes i ++ rest) = .ok (i, rest)

/-- A command that the decoder reads is well formed and has those words, but for an argument word it ignores
(derived from rules R62 and R63). -/
def Obligations.EncodeDecodeRoundTrip : Prop :=
  ∀ cw aw i, decodeCommand cw aw = .ok i →
    i.wellFormed = true ∧ (encode i).cw = cw ∧ (i.usesArgument = true → (encode i).aw = aw)

/-- The decoder reads an operation from a word exactly when that operation's row selects the word: `(c AND mask)
= match` (derived: the columns `match` and `mask` of rule R63). -/
def Obligations.DecoderAgreesWithTheTable : Prop :=
  (∀ cw aw, ∀ r ∈ opTable,
    (r.selects cw = true ↔ ∃ i, decodeCommand cw aw = .ok i ∧ i.mnemonic = r.mnemonic)) ∧
  ∀ cw aw i, decodeCommand cw aw = .ok i → ∃ r ∈ opTable, r.mnemonic = i.mnemonic

/-- Rule R69: which words are illegal, and that such a word answers ERR_ILLEGAL with `RW = 0`, changes no state
and does not hold the port. -/
def Obligations.IllegalWordAnswersErrIllegal : Prop :=
  (∀ cw : Word, (∀ r ∈ opTable, r.selects cw = false) ↔
    (opcField cw = 0xB ∨ opcField cw = 0xE ∨ opcField cw = 0xF) ∨ rsvField cw ≠ 0 ∨
    (fnField cw &&& ~~~(if opcField cw = 5 ∨ opcField cw = 7 ∨ opcField cw = 8 then 1
      else if opcField cw = 0xA then 3 else 0) ≠ 0) ∨
    ((opcField cw = 0 ∨ opcField cw = 2 ∨ opcField cw = 0xC ∨ opcField cw = 7 ∨ opcField cw = 8) ∧
      idxField cw ≠ 0)) ∧
  (∀ (s : State) ts c cs, s.turns = .cp :: ts → s.cp.pending = c :: cs → (∀ r ∈ opTable, r.selects c.cw = false) →
    step s = .next ({ s with turns := ts, cp := { s.cp with pending := cs }, port := .cp }.respond .errIllegal 0)) ∧
  ∀ (s : State) ts c cs, s.turns = .ap :: ts → s.apWait = false → s.ap.pending = c :: cs →
    (∀ r ∈ opTable, r.selects c.cw = false) →
    step s = .next ({ s with turns := ts, ap := { s.ap with pending := cs }, port := .ap }.respond .errIllegal 0)

/-- Rule R64: CP takes `OPC` 0x0 to 0xA, AP takes 0x0, 0xC and 0xD, and any other operation presented there answers
ERR_ILLEGAL and changes nothing; what a port takes is never answered so. (That it is answered at all, or held, is
EveryCommandIsAnsweredOnce.) -/
def Obligations.PortLegality : Prop :=
  ∀ i s, i.wellFormed = true →
    if (s.port = .cp ∧ opcField (encode i).cw ≤ 0xA) ∨
        (s.port = .ap ∧ (opcField (encode i).cw = 0 ∨ opcField (encode i).cw = 0xC ∨ opcField (encode i).cw = 0xD))
    then ∀ t st rw, exec i s = .next t → (t.portOf s.port).answers = ⟨st, rw⟩ :: (s.portOf s.port).answers →
      st ≠ .errIllegal
    else exec i s = .next (s.respond .errIllegal 0)

/-! ### The step (rules R50, R61, R115, R138 and R190) -/

/-- A port agent's turn executes exactly its master's next command, on its own port (derived from rules R50 and
R61; the queue of commands and the list of turns are logs 10 and 11). -/
def Obligations.StepRunsTheNextCommand : Prop :=
  (∀ (s : State) ts c cs i, s.turns = .cp :: ts → s.cp.pending = c :: cs → decodeCommand c.cw c.aw = .ok i →
    step s = exec i { s with turns := ts, cp := { s.cp with pending := cs }, port := .cp }) ∧
  (∀ (s : State) ts c cs i, s.turns = .ap :: ts → s.apWait = false → s.ap.pending = c :: cs →
    decodeCommand c.cw c.aw = .ok i →
    step s = exec i { s with turns := ts, ap := { s.ap with pending := cs }, port := .ap }) ∧
  (∀ (s : State) ts, s.turns = .cp :: ts → s.cp.pending = [] → step s = .next { s with turns := ts }) ∧
  (∀ (s : State) ts, s.turns = .ap :: ts → s.ap.pending = [] → step s = .next { s with turns := ts })

/-- While `AP_WAIT = 1` a turn of the audio port does nothing, whatever its master has to present (derived from
rule R138, first two sentences, and U16; that the turn of a held port is an idle step is log 16). -/
def Obligations.HeldAudioPortWaits : Prop :=
  ∀ (s : State) ts, s.turns = .ap :: ts → s.apWait = true → step s = .next { s with turns := ts }

/-- Which engine step a phase enables and to which phase it leads; in IDLE the engine's turn does nothing (derived
from rule R115, the table; that an idle turn is a step is log 11). -/
def Obligations.EngineFollowsItsPhase : Prop :=
  ∀ (s : State) ts, s.turns = .eng :: ts →
    ∃ t, step s = .next t ∧
      (s.phase = .idle → t = { s with turns := ts }) ∧
      (s.phase = .commit → t.phase = .design ∧ t = { s with turns := ts }.eCommit) ∧
      (s.phase = .design → t.phase = .swap ∧ t = { s with turns := ts }.eDesign) ∧
      (s.phase = .swap → t.phase = .idle ∧ t = { s with turns := ts }.eSwap)

/-- The reset event restores the reset values, abandons a rebuild in flight and leaves a held BLOCK unanswered
(derived from rule R190; what stays is log 13). -/
def Obligations.ResetEventAbandonsEverything : Prop :=
  ∀ (s : State) ts, s.turns = .reset :: ts →
    ∃ t, step s = .next t ∧ t.phase = .idle ∧ t.isUpdating = false ∧ t.apWait = false ∧ t.srate = 0 ∧ t.nchan = 0 ∧
      t.gainsDirty = false ∧ t.autoUpdate = false ∧ t.asel = .bufA ∧
      (∀ i < s.params.numBands, t.band i = ⟨s.num.fconst 0 1, s.num.fconst 0 1, s.num.fconst 0 1⟩) ∧ (∀ ch, (t.channel ch).kref.valid = false) ∧
      t.params = s.params ∧ t.cp = s.cp ∧ t.ap = s.ap ∧ t.turns = ts

/-! ### Facade control (spec/44_facade_control.md) -/

/-- NOP, on either port, and on AP only while `AP_WAIT = 0` (derived from rule R150; that the turn of a held port is an
idle step is log 16). -/
def Obligations.NopAnswersOk : Prop :=
  (∀ aw, decodeCommand 0 aw = .ok .nop) ∧ (∀ s, exec .nop s = .next (s.respond .ok 0)) ∧
  ∀ (s : State) ts aw cs, s.turns = .ap :: ts → s.ap.pending = ⟨0, aw⟩ :: cs → s.apWait = true →
    step s = .next { s with turns := ts }

/-- Rule R151: what BEGIN refuses and in which order, and all that a successful BEGIN writes and leaves alone
(and, with it, what rule R152 says of the gains). -/
def Obligations.BeginConfiguresTheBlock : Prop :=
  ∀ nch sr s, s.port = .cp → s.Shaped →
    (BitVec.toInt sr ≤ 0 → exec (.begin_ nch sr) s = .next (s.respond .errConfig 0)) ∧
    (0 < BitVec.toInt sr → (nch = 0 ∨ s.params.maxChannels < nch) →
      exec (.begin_ nch sr) s = .next (s.respond .errConfig 0)) ∧
    (0 < BitVec.toInt sr → 1 ≤ nch → nch ≤ s.params.maxChannels → s.isUpdating = true →
      exec (.begin_ nch sr) s = .next (s.respond .busy 0)) ∧
    (0 < BitVec.toInt sr → 1 ≤ nch → nch ≤ s.params.maxChannels → s.isUpdating = false →
      ∃ t, exec (.begin_ nch sr) s = .next t ∧ t.srate = sr ∧ t.nchan = nch ∧
        (∀ i < s.params.numBands,
          (t.band i).freq = (bandPlan s.num (BitVec.toInt sr) s.params.numBands).getD i ⟨0⟩ ∧
          (t.band i).gp = (s.band i).gp ∧ (t.band i).gc = (s.band i).gc) ∧
        t.win = window s.num s.params.numTaps ∧
        (∀ ch, (t.channel ch).kref.valid = false) ∧
        (∀ ch < nch, (t.channel ch).cur = 0 ∧
          ∀ j < s.params.numTaps, (t.channel ch).hist.read j = some 0) ∧
        (∀ ch, nch ≤ ch → (t.channel ch).cur = (s.channel ch).cur ∧ (t.channel ch).hist = (s.channel ch).hist) ∧
        (∀ b, ∀ n < s.params.numTaps,
          (t.kmem b).read n = some (if n = (s.params.numTaps - 1) / 2 then 32767 else 0)) ∧
        t.isUpdating = true ∧ t.phase = .commit ∧ t.configured = true ∧ t.krefValid = false ∧
        { t with srate := s.srate, nchan := s.nchan, bands := s.bands, win := s.win, channels := s.channels,
                 kmemA := s.kmemA, kmemB := s.kmemB, isUpdating := s.isUpdating, phase := s.phase } =
          s.respond .ok 0)

/-- Rule R153: END, what stays, and what PROC, UPDATE and KRD answer afterwards. -/
def Obligations.EndReleasesTheChannels : Prop :=
  ∀ s, s.port = .cp →
    (s.isUpdating = true → exec .end_ s = .next (s.respond .busy 0)) ∧
    (s.isUpdating = false → ∃ t, exec .end_ s = .next t ∧ t.srate = 0 ∧ t.nchan = 0 ∧
      t.configured = false ∧ t.krefValid = false ∧
      (∀ ch, (t.channel ch).kref.valid = false ∧ (t.channel ch).hist = (s.channel ch).hist ∧
        (t.channel ch).cur = (s.channel ch).cur) ∧
      { t with srate := s.srate, nchan := s.nchan, channels := s.channels } = s.respond .ok 0 ∧
      (∀ ch x, exec (.proc ch x) { t with port := .ap } = .next ({ t with port := .ap }.respond .errIndex 0)) ∧
      (∀ force, exec (.update force) t = .next (t.respond .errNotCfg 0)) ∧
      ∀ ksel, ∀ n < t.params.numTaps, exec (.krd ksel n) t = .next (t.respond .errNotCfg 0)) ∧
    (s.Inv → s.configured = false → exec .end_ s = .next (s.respond .ok 0))

/-- Rule R154: SETG, with the clamp and the order of its two checks. -/
def Obligations.SetgStoresTheClampedGain : Prop :=
  (∀ (F : Type) (nm : Num F) g,
    (nm.flt g (nm.fconst (-90) 1) = true → gclamp nm g = nm.fconst (-90) 1) ∧
    (nm.flt g (nm.fconst (-90) 1) = false → nm.flt (nm.fconst 12 1) g = true → gclamp nm g = nm.fconst 12 1) ∧
    (nm.flt g (nm.fconst (-90) 1) = false → nm.flt (nm.fconst 12 1) g = false → gclamp nm g = g)) ∧
  ∀ i aw s, s.port = .cp → s.Shaped →
    (s.params.numBands ≤ i → exec (.setg i aw) s = .next (s.respond .errIndex 0)) ∧
    (i < s.params.numBands → s.num.isNaN (s.num.ofBits32 aw) = true →
      exec (.setg i aw) s = .next (s.respond .errValue 0)) ∧
    (i < s.params.numBands → s.num.isNaN (s.num.ofBits32 aw) = false → ∃ t, exec (.setg i aw) s = .next t ∧
      t.band i = { s.band i with gp := gclamp s.num (s.num.ofBits32 aw) } ∧ (∀ j, j ≠ i → t.band j = s.band j) ∧ t.gainsDirty = true ∧
      { t with bands := s.bands, gainsDirty := s.gainsDirty } = s.respond .ok 0)

/-- Rule R155: SETGN, with its piecewise linear mapping. -/
def Obligations.SetgnStoresTheMappedGain : Prop :=
  ∀ i aw s, s.port = .cp → s.Shaped →
    let v := s.num.ofBits32 aw
    (s.params.numBands ≤ i → exec (.setgn i aw) s = .next (s.respond .errIndex 0)) ∧
    (i < s.params.numBands → s.num.isNaN v = true → exec (.setgn i aw) s = .next (s.respond .errValue 0)) ∧
    (i < s.params.numBands → s.num.isNaN v = false → ∃ t, exec (.setgn i aw) s = .next t ∧
      t.band i = { s.band i with
        gp := gclamp s.num (if s.num.flt v (s.num.fconst 0 1) then s.num.fmul v (s.num.fconst 90 1)
          else s.num.fmul v (s.num.fconst 12 1)) } ∧
      (∀ j, j ≠ i → t.band j = s.band j) ∧ t.gainsDirty = true ∧
      { t with bands := s.bands, gainsDirty := s.gainsDirty } = s.respond .ok 0)

/-- What SETG and SETGN store is in [-90.0, +12.0] dB and no NaN, and a gain in that range is stored unchanged,
for every numerics record that meets rule R91 (derived from rules R13, R154 and R155; that the bounds lie around 0.0
and that no image is a NaN are log 2). -/
def Obligations.StoredGainsAreInRange : Prop :=
  ∀ (F : Type) (nm : Num F) (val : F → EReal), nm.Sound val →
    (∀ g, nm.isNaN g = false → gainInRange nm (gclamp nm g) = true) ∧
    (∀ g, gainInRange nm g = true → nm.isNaN g = false ∧ gclamp nm g = g) ∧
    (∀ v, nm.isNaN v = false → gainInRange nm (gclamp nm (normalisedGain nm v)) = true)

/-- Rule R156: GETG. -/
def Obligations.GetgReadsAGain : Prop :=
  ∀ sel i s, s.port = .cp →
    (s.params.numBands ≤ i → exec (.getg sel i) s = .next (s.respond .errIndex 0)) ∧
    (i < s.params.numBands →
      exec (.getg sel i) s = .next (s.respond .ok (s.num.toBits32 (if sel then (s.band i).gc else (s.band i).gp))))

/-- Rule R157: GETF; it works when not configured, with +0.0 after reset and the last plan after END. -/
def Obligations.GetfReadsTheCentreFrequency : Prop :=
  (∀ i s, s.port = .cp →
    (s.params.numBands ≤ i → exec (.getf i) s = .next (s.respond .errIndex 0)) ∧
    (i < s.params.numBands → exec (.getf i) s = .next (s.respond .ok (s.num.toBits32 (s.band i).freq)))) ∧
  (∀ p k i, i < p.numBands →
    exec (.getf i) (State.resetOf p k) = .next ((State.resetOf p k).respond .ok (p.num.toBits32 (p.num.fconst 0 1))) ∧
    (p.numerics = .binary32 → p.num.toBits32 (p.num.fconst 0 1) = 0)) ∧
  ∀ i s t, s.port = .cp → i < s.params.numBands → exec .end_ s = .next t →
    exec (.getf i) t = .next (t.respond .ok (s.num.toBits32 (s.band i).freq))

/-- Rule R160: outside `[0, N)` no setter or getter of a band changes anything, and each answers the defined
failure with the sentinel 0. -/
def Obligations.BandIndexOutOfRangeChangesNothing : Prop :=
  ∀ i s w, s.port = .cp → s.params.numBands ≤ i →
    ∀ c ∈ [Instr.setg i w, .setgn i w, .getg false i, .getg true i, .getf i],
      exec c s = .next (s.respond .errIndex 0)

/-- Rule R158: SETAUTO; a hold in progress is not affected. -/
def Obligations.SetautoWritesOnlyAuto : Prop :=
  ∀ en s, s.port = .cp → ∃ t, exec (.setauto en) s = .next t ∧ t.autoUpdate = en ∧ t.apWait = s.apWait ∧
    { t with autoUpdate := s.autoUpdate } = s.respond .ok 0

/-- RDCSR answers the register's value, `STATUS` bit by bit, and changes nothing (derived from rules R159 and R22; that
`ACC_W` is answered modulo 2^32 is log 23). -/
def Obligations.RdcsrReadsTheRegisterMap : Prop :=
  ∀ r s, s.port = .cp →
    (8 ≤ r → exec (.rdcsr r) s = .next (s.respond .errIndex 0)) ∧
    (r < 8 → ∃ v : Word, exec (.rdcsr r) s = .next (s.respond .ok v) ∧
      (r = 0 → v.getLsbD 0 = decide (0 < s.srate.toInt) ∧ v.getLsbD 1 = s.isUpdating ∧ v.getLsbD 2 = s.gainsDirty ∧
        v.getLsbD 3 = s.autoUpdate ∧ v.getLsbD 4 = decide (s.asel = .bufB) ∧
        v.getLsbD 5 = (decide (0 < s.nchan) && (s.channel 0).kref.valid) ∧ ∀ k, 6 ≤ k → v.getLsbD k = false) ∧
      (r = 1 → v = s.srate) ∧ (r = 2 → v = BitVec.ofNat 32 s.nchan) ∧
      (r = 3 → v = BitVec.ofNat 32 s.params.numBands) ∧ (r = 4 → v = BitVec.ofNat 32 s.params.numTaps) ∧
      (r = 5 → v = BitVec.ofNat 32 s.params.sampleWidth.bits) ∧
      (r = 6 → v = BitVec.ofNat 32 s.params.maxChannels) ∧ (r = 7 → v = BitVec.ofNat 32 s.params.accWidth))

/-! ### Kernel store and rebuild engine (spec/42_kernel_store.md) -/

/-- The rebuild request procedure, its three tests in order and what it writes (derived from rule R112, the
pseudocode; that a started rebuild reaches E-SWAP is EveryRebuildSwapsUnlessReset). -/
def Obligations.RebuildRequestIsATestAndSet : Prop :=
  ∀ force s,
    (s.srate.toInt ≤ 0 → rebuildRequest force s = (.notCfg, s)) ∧
    (0 < s.srate.toInt → s.isUpdating = true → rebuildRequest force s = (.busy, s)) ∧
    (0 < s.srate.toInt → s.isUpdating = false → force = false → s.gainsDirty = false →
      rebuildRequest force s = (.notNeeded, s)) ∧
    (0 < s.srate.toInt → s.isUpdating = false → (force = true ∨ s.gainsDirty = true) →
      rebuildRequest force s = (.started, { s with isUpdating := true, phase := .commit }))

/-- Rule R113: UPDATE answers at the claim, leaves `GAINS_DIRTY` alone, and its forced form skips only the test of
`GAINS_DIRTY`. -/
def Obligations.UpdateClaimsOrDrops : Prop :=
  ∀ force s, s.port = .cp →
    (s.srate.toInt ≤ 0 → exec (.update force) s = .next (s.respond .errNotCfg 0)) ∧
    (0 < s.srate.toInt → s.isUpdating = true → exec (.update force) s = .next (s.respond .busy 0)) ∧
    (0 < s.srate.toInt → s.isUpdating = false → force = false → s.gainsDirty = false →
      exec (.update force) s = .next (s.respond .notNeeded 0)) ∧
    (0 < s.srate.toInt → s.isUpdating = false → (force = true ∨ s.gainsDirty = true) →
      ∃ t, exec (.update force) s = .next t ∧ t.isUpdating = true ∧ t.phase = .commit ∧
        t.gainsDirty = s.gainsDirty ∧
        { t with isUpdating := s.isUpdating, phase := s.phase } = s.respond .ok 1)

/-- KRD answers a coefficient of the selected buffer, or ERR_INDEX, ERR_NOTCFG or BUSY in that order, and writes
nothing (derived from rule R120; the premise that the element has been written is the model's, log 8, and holds
under the invariant). -/
def Obligations.KrdReadsTheSelectedBuffer : Prop :=
  ∀ ksel n s, s.port = .cp →
    let b := match ksel with | .act => s.asel | .stg => s.asel.other | .bufA => .bufA | .bufB => .bufB
    (s.params.numTaps ≤ n → exec (.krd ksel n) s = .next (s.respond .errIndex 0)) ∧
    (n < s.params.numTaps → s.srate.toInt ≤ 0 → exec (.krd ksel n) s = .next (s.respond .errNotCfg 0)) ∧
    (n < s.params.numTaps → 0 < s.srate.toInt → s.isUpdating = true → b = s.asel.other →
      exec (.krd ksel n) s = .next (s.respond .busy 0)) ∧
    (∀ v, n < s.params.numTaps → 0 < s.srate.toInt → (s.isUpdating = false ∨ b = s.asel) →
      (s.kmem b).read n = some v → exec (.krd ksel n) s = .next (s.respond .ok (v.signExtend 32))) ∧
    (n < s.params.numTaps → 0 < s.srate.toInt → (s.isUpdating = false ∨ b = s.asel) →
      (s.kmem b).read n = none → exec (.krd ksel n) s = .fault (.unwrittenKernelTap b n))

/-- Rule R116: E-COMMIT copies all pending gains at one instant and writes no flag. -/
def Obligations.CommitCopiesEveryGain : Prop :=
  ∀ s : State, s.phase = .commit →
    (∀ i, ((s.engineStep).band i).gc = (s.band i).gp ∧ ((s.engineStep).band i).gp = (s.band i).gp ∧
      ((s.engineStep).band i).freq = (s.band i).freq) ∧
    s.engineStep.phase = .design ∧ { s.engineStep with bands := s.bands, phase := s.phase } = s

/-- E-DESIGN writes the designer's coefficients into the staging buffer and into nothing else, from the committed gains
(derived from rules R104, R108 and R117; that the coefficient at a NaN is a function of the designer's inputs is
log 5, and that there is none in a run is EveryDesignedValueIsFinite). -/
def Obligations.DesignWritesOnlyTheStagingBuffer : Prop :=
  ∀ s : State, s.phase = .design →
    ∃ k : List Coeff,
      k = design s.num s.params
        (Config.nanCoeff s.params (s.bands.map Band.gc) (s.bands.map Band.freq) s.srate.toInt s.win)
        (s.bands.map Band.gc) (s.bands.map Band.freq) s.srate.toInt s.win ∧
      (∀ n < s.params.numTaps, (s.engineStep.kmem s.asel.other).read n = k[n]?) ∧
      (∀ n, s.params.numTaps ≤ n → (s.engineStep.kmem s.asel.other).read n = (s.kmem s.asel.other).read n) ∧
      s.engineStep.kmem s.asel = s.kmem s.asel ∧ s.engineStep.phase = .swap ∧
      { s.engineStep with kmemA := s.kmemA, kmemB := s.kmemB, phase := s.phase } = s

/-- E-SWAP toggles the active buffer, points every channel that exists at it, and clears `GAINS_DIRTY`, `IS_UPDATING`
and `AP_WAIT`, all unconditionally; the withheld answer of BLOCK is the only other effect (derived from rules R118 and
R137; that the answer comes in this very step is log 15). -/
def Obligations.SwapPublishesTheStagingBuffer : Prop :=
  ∀ s : State, s.phase = .swap → s.Shaped → s.nchan ≤ s.params.maxChannels →
    s.engineStep.asel = s.asel.other ∧ s.engineStep.asel ≠ s.asel ∧
    (∀ ch < s.nchan, (s.engineStep.channel ch).kref = ⟨true, s.asel.other⟩ ∧
      (s.engineStep.channel ch).hist = (s.channel ch).hist ∧ (s.engineStep.channel ch).cur = (s.channel ch).cur) ∧
    (∀ ch, s.nchan ≤ ch → s.engineStep.channel ch = s.channel ch) ∧
    s.engineStep.gainsDirty = false ∧ s.engineStep.isUpdating = false ∧ s.engineStep.phase = .idle ∧
    s.engineStep.apWait = false ∧
    { s.engineStep with asel := s.asel, channels := s.channels, gainsDirty := s.gainsDirty,
                        isUpdating := s.isUpdating, phase := s.phase, apWait := s.apWait } =
      if s.apWait then s.answerOn .ap ⟨.ok, 1⟩ else s

/-! ### The kernel designer and its numerics (spec/40 and spec/41) -/

/-- A designed kernel has exactly `T` coefficients, a window `T` entries and a band plan `N` (derived from rules
R80, R84, R92 and R106), for every numerics record. -/
def Obligations.DesignerSizes : Prop :=
  ∀ (F : Type) (nm : Num F) (p : Params) free gains freqs sr win,
    (design nm p free gains freqs sr win).length = p.numTaps ∧ (window nm p.numTaps).length = p.numTaps ∧
    (bandPlan nm sr p.numBands).length = p.numBands

/-- With every gain below the threshold the designer gives the identity kernel exactly, for every numerics record that
meets rule R91, in particular where all gains are 0.0; and so does E-DESIGN on every legal instance (derived from rules
R91 and R105; that the gain 0.0 is below the threshold in every such record is the model's premise, log 2, DEDUCED from
rule R105: `Num.Sound.zero_negligible`). -/
def Obligations.NegligibleGainsGiveTheIdentityKernel : Prop :=
  (∀ (F : Type) (nm : Num F) (val : F → EReal) (p : Params) free gains freqs sr win, nm.Sound val → 1 ≤ p.numTaps →
    (∀ g ∈ gains, nm.flt (nm.fabs g) (nm.fconst 1 10) = true ∨ g = nm.fconst 0 1) →
    design nm p free gains freqs sr win =
      (List.range p.numTaps).map fun n => if n = (p.numTaps - 1) / 2 then 32767 else 0) ∧
  ∀ s : State, s.params.Legal →
    (∀ b ∈ s.bands, s.num.flt (s.num.fabs b.gc) (s.num.fconst 1 10) = true ∨ b.gc = s.num.fconst 0 1) →
    s.designed = (List.range s.params.numTaps).map fun n => if n = (s.params.numTaps - 1) / 2 then 32767 else 0

/-- Once the block is configured, every centre frequency and window entry is finite, every value that E-DESIGN computes is
finite, whatever gains have been set, it divides by no zero, and so the coefficient that stands for a NaN is never used
(derived from rules R83, R91 and R108). Finite values and divisors that are not zero are no result about `NUM`: they are
condition 5 of rule R91 as log 3 reads it (DEDUCED), a premise that the invariant has from `Params.Legal`; what is stated
is that the stored gains, centres, rate and window meet the ranges of that premise at every instant. -/
def Obligations.EveryDesignedValueIsFinite : Prop :=
  ∀ s : State, s.Inv → s.configured = true →
    (∀ b ∈ s.bands, s.num.isFinite b.freq = true) ∧ (∀ x ∈ s.win, s.num.isFinite x = true) ∧
    (∀ x ∈ designParts s.num s.params (s.bands.map Band.gc) (s.bands.map Band.freq) s.srate.toInt s.win,
      s.num.isFinite x = true) ∧
    (∀ d ∈ designDivisors s.num s.params (s.bands.map Band.gc) (s.bands.map Band.freq) s.srate.toInt s.win,
      nonZero s.num d = true) ∧
    ∀ free, s.designed =
      design s.num s.params free (s.bands.map Band.gc) (s.bands.map Band.freq) s.srate.toInt s.win

/-- The decision value of rule R90 meets rule R91 (derived from rules R90 and R91). An instance built with it computes
with the binary32 operations and has the ports' patterns for floats; `flt` and `fle` are the order of the extended real
numbers on non-NaN values and false on NaNs (item 2); the literals and small integers are exact (item 3); 1.0 times
32767.0 is exactly 32767, and a product with zero or a sum of zeros is zero (item 4). Item 5 is here for completeness and
no result: at the decision value of `MAG_EPS` it is what the type of the open functions says of them, as log 3 reads it
(DEDUCED). Item 1 holds of every record of functions. -/
def Obligations.Binary32MeetsTheConditions : Prop :=
  (∀ p : Params, p.numerics = .binary32 →
    (∀ w, (p.num.ofBits32 w).bits = w ∧ p.num.toBits32 (p.num.ofBits32 w) = w ∧
      p.num.isNaN (p.num.ofBits32 w) = isNaN32 w) ∧
    (p.num.fconst (-90) 1).bits = 0xC2B40000 ∧ (p.num.fconst 12 1).bits = 0x41400000 ∧
    (∀ k d, (p.num.fconst k d).bits = fconst32 k d) ∧ (∀ k, (p.num.ofInt k).bits = ofInt32 k) ∧
    p.num.pi.bits = pi32 ∧
    (∀ a, (p.num.fabs a).bits = fabs32 a.bits ∧ p.num.isFinite a = isFinite32 a.bits ∧
      p.num.isNaN a = isNaN32 a.bits) ∧
    (∀ a b, (p.num.fadd a b).bits = fadd32 a.bits b.bits ∧ (p.num.fsub a b).bits = fsub32 a.bits b.bits ∧
      (p.num.fmul a b).bits = fmul32 a.bits b.bits ∧ (p.num.fdiv a b).bits = fdiv32 a.bits b.bits ∧
      (p.num.fsqrt a).bits = fsqrt32 a.bits ∧ p.num.flt a b = flt32 a.bits b.bits ∧
      p.num.fle a b = fle32 a.bits b.bits ∧ p.num.fround a = fround32 a.bits)) ∧
  (∀ k : Int, -65535 ≤ k → k ≤ 65535 →
    isFinite32 (ofInt32 k) = true ∧ signedUnits32 (ofInt32 k) = k * 2 ^ 149) ∧
  (∀ k ∈ [0, 1, 2, 4, 20, 32767],
    isFinite32 (fconst32 k 1) = true ∧ signedUnits32 (fconst32 k 1) = k * 2 ^ 149) ∧ fconst32 0 1 = 0 ∧
  (∀ a b, (isNaN32 a = true ∨ isNaN32 b = true) → flt32 a b = false ∧ fle32 a b = false) ∧
  (∀ a b, isFinite32 a = true → isFinite32 b = true →
    (flt32 a b = true ↔ signedUnits32 a < signedUnits32 b) ∧
    (fle32 a b = true ↔ signedUnits32 a ≤ signedUnits32 b)) ∧
  (∀ a b, isNaN32 a = false → isNaN32 b = false →
    (flt32 a b = true ↔ value32 a < value32 b) ∧ (fle32 a b = true ↔ value32 a ≤ value32 b)) ∧
  (∀ a, isFinite32 a = true → flt32 a (inf32 false) = true ∧ flt32 (inf32 true) a = true) ∧
  isFinite32 (fmul32 (fconst32 1 1) (fconst32 32767 1)) = true ∧
  signedUnits32 (fmul32 (fconst32 1 1) (fconst32 32767 1)) = 32767 * 2 ^ 149 ∧
  (∀ a, isFinite32 a = true → isZero32 (fmul32 0 a) = true) ∧ isZero32 (fadd32 0 0) = true ∧
  ∀ p : Params, p.numerics = .binary32 → p.Sizes → p.magEpsNum = 1 → p.magEpsDen = 1000000000 → p.num.StaysFinite p

/-- The operations that rule R90 calls correctly rounded are: to nearest, ties to even, wherever the nearest value is
finite (derived from rule R90: "the correctly rounded operations with round-to-nearest, ties-to-even"). The last clause of
`RoundsTo`, an infinity from halfway past the greatest finite value on, is the model's and no rule of the spec: log 2,
PRESUMED, an IEEE 754 special case that the spec does not list. `RoundsTo` and the exact results are in units of
2^-149. -/
def Obligations.ArithmeticIsCorrectlyRounded : Prop :=
  (∀ a b, isFinite32 a = true → isFinite32 b = true →
    RoundsTo (signedUnits32 a + signedUnits32 b) (fadd32 a b) ∧
    RoundsTo (signedUnits32 a - signedUnits32 b) (fsub32 a b) ∧
    RoundsTo (signedUnits32 a * signedUnits32 b / 2 ^ 149) (fmul32 a b) ∧
    (isZero32 b = false → RoundsTo (signedUnits32 a * 2 ^ 149 / signedUnits32 b) (fdiv32 a b)) ∧
    (0 ≤ signedUnits32 a → RoundsTo (√(signedUnits32 a * 2 ^ 149)) (fsqrt32 a))) ∧
  (∀ (k : Int) (d : Nat), 0 < d → RoundsTo (k * 2 ^ 149 / d) (fconst32 k d)) ∧
  ∀ k : Int, RoundsTo (k * 2 ^ 149) (ofInt32 k)

/-- Quantisation multiplies every tap by 32767.0, whatever the record, rounds to the nearest integer, ties away from
zero, and saturates; under binary32 an infinity goes to the end of its sign, and a NaN to a value nothing is known of
(derived from rules R90, R103 and R108; that value is log 5). -/
def Obligations.QuantisationRoundsAndSaturates : Prop :=
  (∀ (F : Type) (nm : Num F) (free : Nat → Coeff) (tf : List F),
    (quantise nm free tf).length = tf.length ∧
    ∀ (n : Nat) (x : F), tf[n]? = some x →
      (quantise nm free tf)[n]? = some (quantiseTap (free n) (nm.fround (nm.fmul x (nm.fconst 32767 1))))) ∧
  (∀ a, isFinite32 a = true → ∃ k, fround32 a = .int k ∧
    2 * |signedUnits32 a - k * 2 ^ 149| ≤ 2 ^ 149 ∧
    (2 * |signedUnits32 a - k * 2 ^ 149| = 2 ^ 149 → |signedUnits32 a| < |k * 2 ^ 149|)) ∧
  (∀ a, isInf32 a = true → fround32 a = if sign32 a then .negInf else .posInf) ∧
  (∀ a, isNaN32 a = true → fround32 a = .nan) ∧
  (∀ free k, (quantiseTap free (.int k)).toInt = if k < -32768 then -32768 else if 32767 < k then 32767 else k) ∧
  (∀ free, (quantiseTap free .posInf).toInt = 32767 ∧ (quantiseTap free .negInf).toInt = -32768 ∧
    quantiseTap free .nan = free)

/-! ### The audio path (spec/43_convolver.md) -/

/-- PROC on a channel with a kernel: the sample goes into the ring at the cursor, the answer is the exact sum over
the ring and the kernel, floored by 15 bits and saturated, the cursor advances, and nothing else changes (derived
from rules R130, R133 and R135; the premises that ring and kernel have been written are the model's, log 8, and
hold under the invariant). -/
def Obligations.ProcFiltersOneSample : Prop :=
  ∀ ch x s, s.port = .ap → s.Shaped → ch < s.nchan → s.nchan ≤ s.params.maxChannels →
    (s.channel ch).kref.valid = true → (s.channel ch).cur < s.params.numTaps →
    (∀ j < s.params.numTaps, ((s.channel ch).hist.read j).isSome = true) →
    (∀ n < s.params.numTaps, ((s.kmem (s.channel ch).kref.sel).read n).isSome = true) →
    ∃ t y, exec (.proc ch x) s = .next t ∧
      y = (∑ k ∈ Finset.range s.params.numTaps,
        t.sampleAt ch ((((s.channel ch).cur : Int) - k) % s.params.numTaps).toNat *
          s.coeffAt (s.channel ch).kref.sel k) ∧
      t.sampleAt ch (s.channel ch).cur = (x.setWidth s.params.sampleWidth.bits).toInt ∧
      (∀ j, j ≠ (s.channel ch).cur → (t.channel ch).hist.read j = (s.channel ch).hist.read j) ∧
      (t.channel ch).cur = ((s.channel ch).cur + 1) % s.params.numTaps ∧
      (t.channel ch).kref = (s.channel ch).kref ∧ (∀ c, c ≠ ch → t.channel c = s.channel c) ∧
      { t with channels := s.channels } =
        s.respond .ok (BitVec.ofInt 32 (saturate s.params.sampleWidth (y / 2 ^ 15)))

/-- The output of a channel is the convolution of its input with its kernel: from a zeroed ring and cursor, the
`m`-th of a sequence of PROCs answers `sat_W((Σ_k x[m-k] * K[k]) >>a 15)` with `x[m] = 0` for `m < 0` (derived: the
last sentence of rule R133). -/
def Obligations.ProcSequenceIsAConvolution : Prop :=
  ∀ ch (xs : List Word) s, s.Inv → s.port = .ap → ch < s.nchan → (s.channel ch).kref.valid = true →
    (s.channel ch).cur = 0 → (∀ j < s.params.numTaps, (s.channel ch).hist.read j = some 0) →
    ∃ t, execAll (xs.map (.proc ch)) s = .next t ∧
      t.ap.answers = ((List.range xs.length).map fun m =>
        (⟨.ok, BitVec.ofInt 32 (saturate s.params.sampleWidth
          ((∑ k ∈ Finset.range s.params.numTaps,
            (if k ≤ m then sampleOf s.params.sampleWidth (xs.getD (m - k) 0) else 0) *
              s.coeffAt (s.channel ch).kref.sel k) / 2 ^ 15))⟩ : Answer)).reverse ++ s.ap.answers

/-- Rule R131: PROC on a channel that does not exist, which includes every PROC while not configured. -/
def Obligations.ProcOnAnAbsentChannel : Prop :=
  ∀ ch x s, s.port = .ap → (s.nchan ≤ ch ∨ (s.Inv ∧ s.configured = false)) →
    exec (.proc ch x) s = .next (s.respond .errIndex 0)

/-- With no kernel assigned PROC returns its input and changes neither ring nor cursor (derived from rule R132). -/
def Obligations.ProcBypassesWithoutAKernel : Prop :=
  ∀ ch x s, s.port = .ap → ch < s.nchan → (s.channel ch).kref.valid = false →
    exec (.proc ch x) s = .next (s.respond .ok (BitVec.signExtend 32 (x.setWidth s.params.sampleWidth.bits)))

/-- The accumulator never overflows its `ACC_W` bits, after any number of taps, so that the exact sum is the
accumulator's value (derived from rules R5 and R134). -/
def Obligations.AccumulatorNeverOverflows : Prop :=
  ∀ (p : Params) c hist b kern m acc, p.Sizes → m ≤ p.numTaps →
    macOver p.sampleWidth p.numTaps c hist b kern (List.range m) 0 = .ok acc →
    -2 ^ (p.accWidth - 1) ≤ acc ∧ acc < 2 ^ (p.accWidth - 1)

/-- The descale is a floor, not a truncation, and the saturation keeps a value in range (derived from rules R6 and
R135). -/
def Obligations.DescaleFloorsThenSaturates : Prop :=
  (∀ acc, descale acc * 32768 ≤ acc ∧ acc < (descale acc + 1) * 32768) ∧
  (∀ w v, -2 ^ (w.bits - 1) ≤ saturate w v ∧ saturate w v < 2 ^ (w.bits - 1)) ∧
  (∀ w v, -2 ^ (w.bits - 1) ≤ v → v < 2 ^ (w.bits - 1) → saturate w v = v) ∧
  (∀ w v, 2 ^ (w.bits - 1) ≤ v → saturate w v = 2 ^ (w.bits - 1) - 1) ∧
  (∀ w v, v < -2 ^ (w.bits - 1) → saturate w v = -2 ^ (w.bits - 1)) ∧
  descale 32767000 = 999 ∧ descale (-32767000) = -1000 ∧ descale (-1) = -1 ∧ descale 32767 = 0

/-- Through the identity kernel PROC answers `u - ceil(u / 32768)` for the sample `u` of age `M`: the flat filter
delays and loses a little level, and it never saturates (derived from rule R136 item b and rule R208). -/
def Obligations.IdentityKernelOutput : Prop :=
  ∀ ch x s, s.Inv → s.port = .ap → ch < s.nchan → (s.channel ch).kref.valid = true →
    (∀ n < s.params.numTaps, (s.kmem s.asel).read n = some (identityKernel s.params.numTaps n)) →
    ∃ t u, exec (.proc ch x) s = .next t ∧
      u = t.sampleAt ch ((((s.channel ch).cur : Int) - ((s.params.numTaps - 1) / 2 : Nat)) % s.params.numTaps).toNat ∧
      t.ap.answers = ⟨.ok, BitVec.ofInt 32 (u - -((-u) / 32768))⟩ :: s.ap.answers

/-- PROC on a channel depends on nothing but that channel, the kernels and the channel count: two states that differ
in everything else give the same answer and leave that channel in the same state (rule R140, as noninterference:
derived). -/
def Obligations.ProcDependsOnlyOnItsChannel : Prop :=
  ∀ ch x (s u : State), s.port = .ap → u.port = .ap → s.params = u.params → s.nchan = u.nchan →
    s.channel ch = u.channel ch → s.kmemA = u.kmemA → s.kmemB = u.kmemB → s.Shaped → u.Shaped →
    s.nchan ≤ s.params.maxChannels →
    ∀ t, exec (.proc ch x) s = .next t →
      ∃ v, exec (.proc ch x) u = .next v ∧ v.ap.answers.head? = t.ap.answers.head? ∧ v.channel ch = t.channel ch

/-- BLOCK answers OK in every case but the one where it starts a rebuild; then the port is held and the answer withheld
until E-SWAP lifts the hold (derived from rule R137; that the answer comes in the E-SWAP step is log 15). -/
def Obligations.BlockRequestsAndHolds : Prop :=
  (∀ s : State, s.apWait = true → (s.eSwap.ap.answers = ⟨.ok, 1⟩ :: s.ap.answers ∧ s.eSwap.apWait = false)) ∧
  ∀ s, s.port = .ap →
    (s.autoUpdate = false → exec .block s = .next (s.respond .ok 0)) ∧
    (s.autoUpdate = true → s.srate.toInt ≤ 0 → exec .block s = .next (s.respond .ok 4)) ∧
    (s.autoUpdate = true → 0 < s.srate.toInt → s.isUpdating = true → exec .block s = .next (s.respond .ok 2)) ∧
    (s.autoUpdate = true → 0 < s.srate.toInt → s.isUpdating = false → s.gainsDirty = false →
      exec .block s = .next (s.respond .ok 3)) ∧
    (s.autoUpdate = true → 0 < s.srate.toInt → s.isUpdating = false → s.gainsDirty = true →
      exec .block s = .next { s with isUpdating := true, phase := .commit, apWait := true })

/-- The BLOCK that started a rebuild is answered OK with 1 by the E-SWAP of that rebuild, which lifts the hold; without
a hold E-SWAP answers nothing (derived from rules R137 and R138; log 15). -/
def Obligations.SwapAnswersTheHeldBlock : Prop :=
  ∀ s : State, s.phase = .swap → s.engineStep.apWait = false ∧ s.engineStep.cp = s.cp ∧
    s.engineStep.ap.pending = s.ap.pending ∧
    s.engineStep.ap.answers = if s.apWait then ⟨.ok, 1⟩ :: s.ap.answers else s.ap.answers

/-! ### Rules about the whole machine -/

/-- The reset state: what rule R33 gives a value (derived: the elements it calls unspecified are left out). -/
def Obligations.ResetValues : Prop :=
  ∀ p k, (∀ i < p.numBands,
      (State.resetOf p k).band i = ⟨p.num.fconst 0 1, p.num.fconst 0 1, p.num.fconst 0 1⟩) ∧
    (State.resetOf p k).srate = 0 ∧ (State.resetOf p k).nchan = 0 ∧ (State.resetOf p k).isUpdating = false ∧
    (State.resetOf p k).gainsDirty = false ∧ (State.resetOf p k).autoUpdate = false ∧
    (State.resetOf p k).asel = .bufA ∧ (∀ ch, ((State.resetOf p k).channel ch).kref.valid = false) ∧
    (State.resetOf p k).phase = .idle ∧ (State.resetOf p k).apWait = false

/-- The reset state of every legal instance meets the invariant (derived from rules R31 and R33). -/
def Obligations.ResetMeetsTheInvariant : Prop := ∀ p k, p.Legal → (State.resetOf p k).Inv

/-- Every step keeps the invariant, whoever moves and whatever the ports present (derived from rules R13, R14, R16,
R17, R27, R31, R33 and R86). -/
def Obligations.EveryStepKeepsTheInvariant : Prop := ∀ s t : State, s.Inv → s.Steps t → t.Inv

/-- No step of a state that meets the invariant stops: no element is read before it has been written, and no failure
of a command is a trap (derived from rules R33, R43 and R176). -/
def Obligations.NoStepStops : Prop := ∀ s : State, s.Inv → ∃ t, s.Steps t

/-- A kernel buffer that some channel's reference names is never written while the reference stays valid (derived
from rules R31 item 2, R53 and R119). -/
def Obligations.ReferencedKernelIsNeverWritten : Prop :=
  ∀ (s t : State) ch, s.Inv → s.Steps t → (s.channel ch).kref.valid = true →
    t.kmem (s.channel ch).kref.sel = s.kmem (s.channel ch).kref.sel ∨ ∀ c, (t.channel c).kref.valid = false

/-- A command that fails has no effect but its answer, whose response word is 0 (derived from rules R7, R171 and
R176). -/
def Obligations.FailedCommandHasNoEffect : Prop :=
  ∀ i s t st rw, exec i s = .next t → st ≠ .ok →
    (t.portOf s.port).answers = ⟨st, rw⟩ :: (s.portOf s.port).answers → rw = 0 ∧ t = s.respond st 0

/-- A command is answered once, on its own port, unless it is the BLOCK that holds the port; the other port's answers
and both masters' commands are untouched (derived from rules R60, R61 and R137). -/
def Obligations.EveryCommandIsAnsweredOnce : Prop :=
  ∀ i s t, exec i s = .next t →
    ((∃ a, (t.portOf s.port).answers = a :: (s.portOf s.port).answers) ∨
      (i = .block ∧ t.apWait = true ∧ (t.portOf s.port).answers = (s.portOf s.port).answers)) ∧
    (∀ p, p ≠ s.port → t.portOf p = s.portOf p) ∧
    (t.portOf s.port).pending = (s.portOf s.port).pending ∧ t.port = s.port ∧ t.turns = s.turns

/-- The audio port cannot change gains, configuration, window, kernels or the active buffer (derived from rules R64,
R181 and R183). -/
def Obligations.AudioPortChangesNoConfiguration : Prop :=
  ∀ i s t, s.port = .ap → exec i s = .next t →
    t.bands = s.bands ∧ t.win = s.win ∧ t.srate = s.srate ∧ t.nchan = s.nchan ∧ t.kmemA = s.kmemA ∧
    t.kmemB = s.kmemB ∧ t.asel = s.asel ∧ t.autoUpdate = s.autoUpdate ∧ t.gainsDirty = s.gainsDirty ∧
    t.params = s.params ∧ ∀ ch, (t.channel ch).kref = (s.channel ch).kref

/-- Committed gains change only in E-COMMIT (or at reset), and no command changes them; pending gains change only by
SETG and SETGN (derived from rules R11, R13, R14 and R51 item 1). -/
def Obligations.GainsChangeOnlyWhereSaid : Prop :=
  (∀ i s t, exec i s = .next t →
    (∀ n, (t.band n).gc = (s.band n).gc) ∧
    ((∀ n g, i ≠ .setg n g) → (∀ n v, i ≠ .setgn n v) → ∀ n, (t.band n).gp = (s.band n).gp)) ∧
  (∀ s : State, s.phase ≠ .commit → s.engineStep.bands = s.bands)

/-- `GAINS_DIRTY` goes from 1 to 0 only by the swap step or a reset, and from 0 to 1 only by a command of the control
port (derived from rule R19). -/
def Obligations.DirtyMarkChangesOnlyWhereSaid : Prop :=
  ∀ s t : State, s.Steps t →
    (s.gainsDirty = true → t.gainsDirty = false →
      (s.nextTurn.1 = .eng ∧ s.phase = .swap) ∨ s.nextTurn.1 = .reset) ∧
    (s.gainsDirty = false → t.gainsDirty = true → s.nextTurn.1 = .cp)

/-- No step changes the parameters (derived from rule R5). -/
def Obligations.ParametersNeverChange : Prop := ∀ s t : State, s.Steps t → t.params = s.params

/-- The lost dirty mark: what a SETG or SETGN between E-COMMIT and E-SWAP stores is pending afterwards, is in no kernel,
has left no dirty mark, and an UPDATE then answers NOT_NEEDED. The rebuild is finished by two engine steps, or by one if
E-DESIGN has been taken (derived from rule R200). -/
def Obligations.DirtyMarkCanBeLost : Prop :=
  ∀ i aw s, s.Inv → s.port = .cp → (s.phase = .design ∨ s.phase = .swap) → i < s.params.numBands →
    s.num.isNaN (s.num.ofBits32 aw) = false →
    ∀ c, (c = .setg i aw ∨ c = .setgn i aw) →
      ∃ t u v n, exec c s = .next t ∧ n = (if s.phase = .design then 2 else 1) ∧
        u = State.engineStep^[n] t ∧ v = State.engineStep^[n] s ∧ u.phase = .idle ∧
        (u.band i).gp = gclamp s.num (if c = .setg i aw then s.num.ofBits32 aw
          else normalisedGain s.num (s.num.ofBits32 aw)) ∧
        (u.band i).gc = (s.band i).gc ∧ u.gainsDirty = false ∧ (∀ b, u.kmem b = v.kmem b) ∧
        exec (.update false) u = .next (u.respond .notNeeded 0)

/-- Two rebuilds with no gain changed between them leave bit-identical kernels, in both buffers (derived from rule
R106 and vector V-KS-8). -/
def Obligations.RepeatedRebuildIsIdentical : Prop :=
  ∀ s : State, ∀ n < s.params.numTaps,
    (s.rebuild.rebuild.kmem s.rebuild.rebuild.asel).read n = (s.rebuild.kmem s.rebuild.asel).read n ∧
    (s.rebuild.rebuild.kmem .bufA).read n = (s.rebuild.rebuild.kmem .bufB).read n

/-- Nothing cancels a rebuild but a reset: a step that is neither the engine's nor the reset event leaves `PHASE`,
`IS_UPDATING` and the hold as they were, whatever the ports present (derived from rules R51 item 3 and R115; the engine's
own steps, in their order, are EngineFollowsItsPhase). -/
def Obligations.NothingCancelsARebuild : Prop :=
  ∀ s t : State, s.Inv → s.phase ≠ .idle → s.Steps t → s.nextTurn.1 ≠ .eng → s.nextTurn.1 ≠ .reset →
    t.phase = s.phase ∧ t.isUpdating = true ∧ t.apWait = s.apWait

/-- Under the engine's weak fairness every rebuild ends with its E-SWAP, unless the reset event abandons it, and until
then it is in flight; with it ends every hold of the audio port; in every interleaving (derived from rules R51 item 3,
R57, R138 and R190). -/
def Obligations.EveryRebuildSwapsUnlessReset : Prop :=
  ∀ tr : Nat → State, Execution tr → EngineFair tr → (tr 0).Inv →
    ∀ n, (tr n).isUpdating = true → ∃ m, n ≤ m ∧ (∀ k, n ≤ k → k ≤ m → (tr k).isUpdating = true) ∧
      (((tr m).nextTurn.1 = .eng ∧ (tr m).phase = .swap) ∨ (tr m).nextTurn.1 = .reset) ∧
      (tr (m + 1)).isUpdating = false ∧ (tr (m + 1)).apWait = false
end

