-- ==== Sys2Proof/Laws/Decode.lean ====
section
/-! SUPPORT. The fields of a command word: reading back each field of `commandWord`, and that a word with `RSV = 0` is
`commandWord` of its fields. -/

namespace Sys2Proof

/-- A command word as a number (rule R62). -/
theorem commandWord_toNat (opc fn : BitVec 4) (idx : Nat) :
    (commandWord opc fn idx).toNat = opc.toNat * 2 ^ 28 + fn.toNat * 2 ^ 24 + idx % 65536 := by
  simp only [commandWord, BitVec.toNat_append, BitVec.toNat_ofNat]
  have hz : (0 : BitVec 8).toNat = 0 := rfl
  rw [hz, ← Nat.shiftLeft_add_eq_or_of_lt (by omega), ← Nat.shiftLeft_add_eq_or_of_lt (by omega),
    ← Nat.shiftLeft_add_eq_or_of_lt (by omega)]
  simp only [Nat.shiftLeft_eq]
  omega

@[simp] theorem opcField_commandWord (opc fn : BitVec 4) (idx : Nat) : opcField (commandWord opc fn idx) = opc := by
  apply BitVec.eq_of_toNat_eq
  simp only [opcField, BitVec.extractLsb'_toNat, commandWord_toNat, Nat.shiftRight_eq_div_pow]
  omega

@[simp] theorem fnField_commandWord (opc fn : BitVec 4) (idx : Nat) : fnField (commandWord opc fn idx) = fn := by
  apply BitVec.eq_of_toNat_eq
  simp only [fnField, BitVec.extractLsb'_toNat, commandWord_toNat, Nat.shiftRight_eq_div_pow]
  omega

@[simp] theorem rsvField_commandWord (opc fn : BitVec 4) (idx : Nat) : rsvField (commandWord opc fn idx) = 0 := by
  apply BitVec.eq_of_toNat_eq
  have hz : (0 : BitVec 8).toNat = 0 := rfl
  simp only [rsvField, BitVec.extractLsb'_toNat, commandWord_toNat, Nat.shiftRight_eq_div_pow, hz]
  omega

@[simp] theorem idxField_commandWord (opc fn : BitVec 4) (idx : Nat) :
    (idxField (commandWord opc fn idx)).toNat = idx % 65536 := by
  simp only [idxField, BitVec.extractLsb'_toNat, commandWord_toNat, Nat.shiftRight_eq_div_pow]
  omega

@[simp] theorem idxField_commandWord_zero (opc fn : BitVec 4) : idxField (commandWord opc fn 0) = 0 :=
  BitVec.eq_of_toNat_eq (by simp)

/-- A word with `RSV = 0` from its fields. -/
theorem commandWord_of_fields {cw : Word} {opc fn : BitVec 4} {idx : Nat} (ho : opcField cw = opc)
    (hf : fnField cw = fn) (hr : rsvField cw = 0) (hi : (idxField cw).toNat = idx) : commandWord opc fn idx = cw := by
  subst ho hf hi
  apply BitVec.eq_of_toNat_eq
  have hr' := congrArg BitVec.toNat hr
  have hz : (0 : BitVec 8).toNat = 0 := rfl
  simp only [commandWord_toNat, opcField, fnField, rsvField, idxField, BitVec.extractLsb'_toNat,
    Nat.shiftRight_eq_div_pow, hz] at hr' ⊢
  omega

@[simp] theorem kselOfFn_fnOfKsel (k : KSel) : kselOfFn (fnOfKsel k) = k := by cases k <;> decide
@[simp] theorem getElem_fnOfFlag (b : Bool) : (fnOfFlag b)[0] = b := by cases b <;> decide
@[simp] theorem fnOfFlag_undefined (b : Bool) : fnOfFlag b &&& 14#4 = 0#4 := by cases b <;> decide
@[simp] theorem fnOfKsel_undefined (k : KSel) : fnOfKsel k &&& 12#4 = 0#4 := by cases k <;> decide

theorem fnOfFlag_of_undefined {f : BitVec 4} (h : f &&& ~~~(1 : BitVec 4) = 0) : fnOfFlag (f.getLsbD 0) = f := by
  revert f; decide
theorem fnOfKsel_of_undefined {f : BitVec 4} (h : f &&& ~~~(3 : BitVec 4) = 0) : fnOfKsel (kselOfFn f) = f := by
  revert f; decide
theorem fn_of_undefined {f : BitVec 4} (h : f &&& ~~~(0 : BitVec 4) = 0) : f = 0 := by revert f; decide

/-- What the shared checks let through (rules R62 and R69). -/
theorem checkFields_ok {b : BitVec 4} {ix : Bool} {cw : Word} {i j : Instr} :
    checkFields b ix cw i = .ok j ↔
      i = j ∧ rsvField cw = 0 ∧ fnField cw &&& ~~~b = 0 ∧ (ix = false → idxField cw = 0) := by
  rw [checkFields]
  by_cases h1 : rsvField cw = 0
  · by_cases h2 : fnField cw &&& ~~~b = 0
    · by_cases h3 : idxField cw = 0
      · rw [if_neg (not_not_intro h1), if_neg (not_not_intro h2), if_neg fun h => h.2 h3]
        exact ⟨fun h => ⟨Except.ok.inj h, h1, h2, fun _ => h3⟩, fun h => congrArg _ h.1⟩
      · cases ix
        · rw [if_neg (not_not_intro h1), if_neg (not_not_intro h2), if_pos ⟨rfl, h3⟩]
          exact ⟨nofun, fun h => absurd (h.2.2.2 rfl) h3⟩
        · rw [if_neg (not_not_intro h1), if_neg (not_not_intro h2), if_neg nofun]
          exact ⟨fun h => ⟨Except.ok.inj h, h1, h2, nofun⟩, fun h => congrArg _ h.1⟩
    · rw [if_neg (not_not_intro h1), if_pos h2]
      exact ⟨nofun, fun h => absurd h.2.2.1 h2⟩
  · rw [if_pos h1]
    exact ⟨nofun, fun h => absurd h.2.1 h1⟩

/-- The four bytes of a word put together again (rule R42). -/
@[simp] theorem wordOfBytes_wordBytes (w : Word) :
    wordOfBytes (w.extractLsb' 0 8) (w.extractLsb' 8 8) (w.extractLsb' 16 8) (w.extractLsb' 24 8) = w := by
  apply BitVec.eq_of_toNat_eq
  simp only [wordOfBytes, BitVec.toNat_append, BitVec.extractLsb'_toNat, Nat.shiftRight_eq_div_pow]
  rw [← Nat.shiftLeft_add_eq_or_of_lt (by omega), ← Nat.shiftLeft_add_eq_or_of_lt (by omega),
    ← Nat.shiftLeft_add_eq_or_of_lt (by omega)]
  simp only [Nat.shiftLeft_eq]
  omega

/-! ### The table's column test (rule R63), field by field -/

theorem opcField_of_toNat {cw : Word} {n : Nat} (h : (opcField cw).toNat = n) : opcField cw = BitVec.ofNat 4 n := by
  apply BitVec.eq_of_toNat_eq
  simp [h]
  omega

theorem OpRow.selects_iff (r : OpRow) (cw : Word) : r.selects cw = true ↔ cw &&& r.mask = r.pattern := by
  simp [OpRow.selects]

/-- A mask test is a mask test on each field. -/
theorem and_eq_iff_fields (cw mask pat : Word) :
    cw &&& mask = pat ↔
      opcField cw &&& opcField mask = opcField pat ∧ fnField cw &&& fnField mask = fnField pat ∧
      rsvField cw &&& rsvField mask = rsvField pat ∧ idxField cw &&& idxField mask = idxField pat := by
  constructor
  · rintro rfl
    simp [opcField, fnField, rsvField, idxField, BitVec.extractLsb'_and]
  · rintro ⟨h1, h2, h3, h4⟩
    simp only [opcField, fnField, rsvField, idxField, ← BitVec.extractLsb'_and] at h1 h2 h3 h4
    refine BitVec.eq_of_getLsbD_eq fun i hi => ?_
    have e1 := congrArg (fun v => v.getLsbD (i - 28)) h1
    have e2 := congrArg (fun v => v.getLsbD (i - 24)) h2
    have e3 := congrArg (fun v => v.getLsbD (i - 16)) h3
    have e4 := congrArg (fun v => v.getLsbD i) h4
    simp only [BitVec.getLsbD_extractLsb'] at e1 e2 e3 e4
    by_cases c1 : 28 ≤ i
    · simpa [show i - 28 < 4 by omega, show 28 + (i - 28) = i by omega] using e1
    by_cases c2 : 24 ≤ i
    · simpa [show i - 24 < 4 by omega, show 24 + (i - 24) = i by omega] using e2
    by_cases c3 : 16 ≤ i
    · simpa [show i - 16 < 8 by omega, show 16 + (i - 16) = i by omega] using e3
    · simpa [show i < 16 by omega] using e4

/-- Which words a row selects whose mask covers `OPC`, `RSV`, all of `FN` but `fnBits`, and `IDX` unless the
operation is indexed. -/
theorem selects_iff_fields {r : OpRow} {opc fnBits : BitVec 4} {ix : Bool} (cw : Word)
    (hp : r.pattern = commandWord opc 0 0) (h1 : opcField r.mask = 15) (h2 : fnField r.mask = ~~~fnBits)
    (h3 : rsvField r.mask = 255) (h4 : idxField r.mask = if ix then 0 else 65535) :
    r.selects cw = true ↔
      opcField cw = opc ∧ rsvField cw = 0 ∧ fnField cw &&& ~~~fnBits = 0 ∧ (ix = false → idxField cw = 0) := by
  have a1 : ∀ v : BitVec 4, v &&& 15 = v := by decide
  have a2 : ∀ v : BitVec 8, v &&& 255 = v := by decide
  have a3 : ∀ v : BitVec 16, v &&& 65535 = v := fun v => by
    rw [show (65535 : BitVec 16) = BitVec.allOnes 16 by decide, BitVec.and_allOnes]
  rw [OpRow.selects_iff, and_eq_iff_fields, hp, h1, h2, h3, h4]
  simp only [opcField_commandWord, fnField_commandWord, rsvField_commandWord, idxField_commandWord_zero]
  cases ix
  · rw [if_neg Bool.false_ne_true, a1, a2, a3]
    exact ⟨fun h => ⟨h.1, h.2.2.1, h.2.1, fun _ => h.2.2.2⟩, fun h => ⟨h.1, h.2.2.1, h.2.1, h.2.2.2 rfl⟩⟩
  · rw [if_pos rfl, a1, a2]
    exact ⟨fun h => ⟨h.1, h.2.2.1, h.2.1, nofun⟩, fun h => ⟨h.1, h.2.2.1, h.2.1, BitVec.and_zero⟩⟩

end Sys2Proof
end

