-- ==== Sys2Proof/Laws/Memory.lean ====
section
/-! SUPPORT. Reading and writing the storage spaces: a read after a write, what a write leaves alone, and that
every operation keeps the canonical form. -/

namespace Sys2Proof.Machine

variable {w : Nat}

/-- Reading the element just written gives what was written. -/
@[simp] theorem Memory.read_write_same (m : Memory w) (i : Nat) (v : BitVec w) :
    (m.write i v).read i = some v := by
  induction m with
  | nil => simp [Memory.write, Memory.read]
  | cons e m ih =>
    obtain ⟨a, u⟩ := e
    simp only [Memory.write]
    split
    · simp [Memory.read]
    · split
      · simp [Memory.read]
      · simp only [Memory.read]
        rw [if_neg (by omega), ih]

/-- A write leaves every other element as it was. -/
theorem Memory.read_write_other (m : Memory w) {i j : Nat} (v : BitVec w) (h : j ≠ i) :
    (m.write i v).read j = m.read j := by
  induction m with
  | nil => simp [Memory.write, Memory.read, h.symm]
  | cons e m ih =>
    obtain ⟨a, u⟩ := e
    simp only [Memory.write]
    split
    · simp [Memory.read, h.symm]
    · split
      · simp_all [Memory.read, eq_comm]
      · simp [Memory.read, ih]

theorem Memory.read_write (m : Memory w) (i j : Nat) (v : BitVec w) :
    (m.write i v).read j = if j = i then some v else m.read j := by
  split
  · next h => subst h; simp
  · next h => exact m.read_write_other v h

/-- The indices a write can add. -/
theorem Memory.mem_write (m : Memory w) (i : Nat) (v : BitVec w) {e : Nat × BitVec w}
    (h : e ∈ m.write i v) : e = (i, v) ∨ e ∈ m := by
  induction m with
  | nil => simpa [Memory.write] using h
  | cons x m ih =>
    obtain ⟨a, u⟩ := x
    simp only [Memory.write] at h
    split at h
    · simpa using h
    · split at h
      · rcases List.mem_cons.mp h with h | h
        · exact .inl h
        · exact .inr (List.mem_cons_of_mem _ h)
      · rcases List.mem_cons.mp h with h | h
        · exact .inr (h ▸ List.mem_cons_self)
        · exact (ih h).imp_right (List.mem_cons_of_mem _)

/-- The form says: each listed index is below all the later ones. -/
theorem Memory.wf_cons (a : Nat) (u : BitVec w) (m : Memory w) :
    Memory.wf ((a, u) :: m) ↔ (∀ e ∈ m, a < e.1) ∧ Memory.wf m := by
  simp [Memory.wf, List.pairwise_cons]

/-- A write keeps the canonical form. -/
theorem Memory.wf_write (m : Memory w) (i : Nat) (v : BitVec w) (h : m.wf) : (m.write i v).wf := by
  induction m with
  | nil => simp [Memory.write, Memory.wf]
  | cons e m ih =>
    obtain ⟨a, u⟩ := e
    obtain ⟨hlow, hm⟩ := (Memory.wf_cons a u m).mp h
    simp only [Memory.write]
    split
    · next hi =>
      refine (Memory.wf_cons i v _).mpr ⟨fun e he => ?_, h⟩
      rcases List.mem_cons.mp he with rfl | he
      · exact hi
      · exact Nat.lt_trans hi (hlow e he)
    · split
      · next hi => exact (Memory.wf_cons i v m).mpr ⟨fun e he => hi ▸ hlow e he, hm⟩
      · next h1 h2 =>
        refine (Memory.wf_cons a u _).mpr ⟨fun e he => ?_, ih hm⟩
        rcases Memory.mem_write m i v he with rfl | he
        · show a < i; omega
        · exact hlow e he

theorem Memory.writeAll_succ (m : Memory w) (f : Nat → BitVec w) (t : Nat) :
    m.writeAll f (t + 1) = (m.writeAll f t).write t (f t) := by
  simp [Memory.writeAll, List.range_succ]

/-- After the loop over `0 .. t-1`, those elements read as written and all others as before. -/
theorem Memory.read_writeAll (m : Memory w) (f : Nat → BitVec w) (t n : Nat) :
    (m.writeAll f t).read n = if n < t then some (f n) else m.read n := by
  induction t with
  | zero => simp [Memory.writeAll]
  | succ t ih =>
    rw [Memory.writeAll_succ, Memory.read_write, ih]
    split
    · next h => subst h; simp
    · next h =>
      by_cases hn : n < t
      · rw [if_pos hn, if_pos (by omega)]
      · rw [if_neg hn, if_neg (by omega)]

/-- The loop keeps the canonical form. -/
theorem Memory.wf_writeAll (m : Memory w) (f : Nat → BitVec w) (t : Nat) (h : m.wf) : (m.writeAll f t).wf := by
  induction t with
  | zero => simpa [Memory.writeAll] using h
  | succ t ih => rw [Memory.writeAll_succ]; exact Memory.wf_write _ _ _ ih

/-- Every cell after the loop was there before or is one of those the loop wrote. -/
theorem Memory.mem_writeAll (m : Memory w) (f : Nat → BitVec w) (t : Nat) {e : Nat × BitVec w}
    (h : e ∈ m.writeAll f t) : e ∈ m ∨ ∃ n < t, e = (n, f n) := by
  induction t with
  | zero => exact .inl (by simpa [Memory.writeAll] using h)
  | succ t ih =>
    rw [Memory.writeAll_succ] at h
    rcases Memory.mem_write _ _ _ h with rfl | h
    · exact .inr ⟨t, by omega, rfl⟩
    · exact (ih h).imp_right fun ⟨n, hn, he⟩ => ⟨n, by omega, he⟩

/-! ### The two kernel buffers -/

/-- The active and the staging buffer are different buffers (rule R20). -/
@[simp] theorem Buffer.other_ne (b : Buffer) : b.other ≠ b := by cases b <;> decide
@[simp] theorem Buffer.other_other (b : Buffer) : b.other.other = b := by cases b <;> rfl

@[simp] theorem State.setKmem_kmem_same (s : State) (b : Buffer) (m : Memory 16) :
    (s.setKmem b m).kmem b = m := by cases b <;> rfl

theorem State.setKmem_kmem_other (s : State) {b c : Buffer} (m : Memory 16) (h : c ≠ b) :
    (s.setKmem b m).kmem c = s.kmem c := by cases b <;> cases c <;> first | rfl | exact absurd rfl h

end Sys2Proof.Machine
end

