-- ==== Sys2Proof/Laws/State.lean ====
section
/-! SUPPORT. What each update of the state does to each field, true by unfolding: one lemma per field per update,
so that no later proof unfolds a record update. -/

namespace Sys2Proof.Machine

variable (s : State)

/-! ### `answerOn` -/

@[simp] theorem State.answerOn_params (p : PortId) (a : Answer) : (s.answerOn p a).params = s.params := rfl
@[simp] theorem State.answerOn_num (p : PortId) (a : Answer) : (s.answerOn p a).num = s.num := rfl
@[simp] theorem State.answerOn_bands (p : PortId) (a : Answer) : (s.answerOn p a).bands = s.bands := rfl
@[simp] theorem State.answerOn_win (p : PortId) (a : Answer) : (s.answerOn p a).win = s.win := rfl
@[simp] theorem State.answerOn_srate (p : PortId) (a : Answer) : (s.answerOn p a).srate = s.srate := rfl
@[simp] theorem State.answerOn_nchan (p : PortId) (a : Answer) : (s.answerOn p a).nchan = s.nchan := rfl
@[simp] theorem State.answerOn_isUpdating (p : PortId) (a : Answer) :
    (s.answerOn p a).isUpdating =
      s.isUpdating := rfl
@[simp] theorem State.answerOn_gainsDirty (p : PortId) (a : Answer) :
    (s.answerOn p a).gainsDirty =
      s.gainsDirty := rfl
@[simp] theorem State.answerOn_autoUpdate (p : PortId) (a : Answer) :
    (s.answerOn p a).autoUpdate =
      s.autoUpdate := rfl
@[simp] theorem State.answerOn_asel (p : PortId) (a : Answer) : (s.answerOn p a).asel = s.asel := rfl
@[simp] theorem State.answerOn_kmemA (p : PortId) (a : Answer) : (s.answerOn p a).kmemA = s.kmemA := rfl
@[simp] theorem State.answerOn_kmemB (p : PortId) (a : Answer) : (s.answerOn p a).kmemB = s.kmemB := rfl
@[simp] theorem State.answerOn_channels (p : PortId) (a : Answer) : (s.answerOn p a).channels = s.channels := rfl
@[simp] theorem State.answerOn_phase (p : PortId) (a : Answer) : (s.answerOn p a).phase = s.phase := rfl
@[simp] theorem State.answerOn_apWait (p : PortId) (a : Answer) : (s.answerOn p a).apWait = s.apWait := rfl
@[simp] theorem State.answerOn_port (p : PortId) (a : Answer) : (s.answerOn p a).port = s.port := rfl
@[simp] theorem State.answerOn_cp (p : PortId) (a : Answer) :
    (s.answerOn p a).cp =
      if p = .cp then { s.cp with answers := a :: s.cp.answers } else s.cp := rfl
@[simp] theorem State.answerOn_ap (p : PortId) (a : Answer) :
    (s.answerOn p a).ap =
      if p = .ap then { s.ap with answers := a :: s.ap.answers } else s.ap := rfl
@[simp] theorem State.answerOn_turns (p : PortId) (a : Answer) : (s.answerOn p a).turns = s.turns := rfl
@[simp] theorem State.answerOn_freeCount (p : PortId) (a : Answer) :
    (s.answerOn p a).freeCount =
      s.freeCount := rfl

/-! ### `respond` -/

@[simp] theorem State.respond_params (st : Status) (rw : Word) : (s.respond st rw).params = s.params := rfl
@[simp] theorem State.respond_num (st : Status) (rw : Word) : (s.respond st rw).num = s.num := rfl
@[simp] theorem State.respond_bands (st : Status) (rw : Word) : (s.respond st rw).bands = s.bands := rfl
@[simp] theorem State.respond_win (st : Status) (rw : Word) : (s.respond st rw).win = s.win := rfl
@[simp] theorem State.respond_srate (st : Status) (rw : Word) : (s.respond st rw).srate = s.srate := rfl
@[simp] theorem State.respond_nchan (st : Status) (rw : Word) : (s.respond st rw).nchan = s.nchan := rfl
@[simp] theorem State.respond_isUpdating (st : Status) (rw : Word) :
    (s.respond st rw).isUpdating =
      s.isUpdating := rfl
@[simp] theorem State.respond_gainsDirty (st : Status) (rw : Word) :
    (s.respond st rw).gainsDirty =
      s.gainsDirty := rfl
@[simp] theorem State.respond_autoUpdate (st : Status) (rw : Word) :
    (s.respond st rw).autoUpdate =
      s.autoUpdate := rfl
@[simp] theorem State.respond_asel (st : Status) (rw : Word) : (s.respond st rw).asel = s.asel := rfl
@[simp] theorem State.respond_kmemA (st : Status) (rw : Word) : (s.respond st rw).kmemA = s.kmemA := rfl
@[simp] theorem State.respond_kmemB (st : Status) (rw : Word) : (s.respond st rw).kmemB = s.kmemB := rfl
@[simp] theorem State.respond_channels (st : Status) (rw : Word) : (s.respond st rw).channels = s.channels := rfl
@[simp] theorem State.respond_phase (st : Status) (rw : Word) : (s.respond st rw).phase = s.phase := rfl
@[simp] theorem State.respond_apWait (st : Status) (rw : Word) : (s.respond st rw).apWait = s.apWait := rfl
@[simp] theorem State.respond_port (st : Status) (rw : Word) : (s.respond st rw).port = s.port := rfl
@[simp] theorem State.respond_cp (st : Status) (rw : Word) :
    (s.respond st rw).cp =
      if s.port = .cp then { s.cp with answers := ⟨st, rw⟩ :: s.cp.answers } else s.cp := rfl
@[simp] theorem State.respond_ap (st : Status) (rw : Word) :
    (s.respond st rw).ap =
      if s.port = .ap then { s.ap with answers := ⟨st, rw⟩ :: s.ap.answers } else s.ap := rfl
@[simp] theorem State.respond_turns (st : Status) (rw : Word) : (s.respond st rw).turns = s.turns := rfl
@[simp] theorem State.respond_freeCount (st : Status) (rw : Word) :
    (s.respond st rw).freeCount =
      s.freeCount := rfl

/-! ### `setKmem` -/

@[simp] theorem State.setKmem_params (b : Buffer) (m : Memory 16) : (s.setKmem b m).params = s.params := rfl
@[simp] theorem State.setKmem_num (b : Buffer) (m : Memory 16) : (s.setKmem b m).num = s.num := rfl
@[simp] theorem State.setKmem_bands (b : Buffer) (m : Memory 16) : (s.setKmem b m).bands = s.bands := rfl
@[simp] theorem State.setKmem_win (b : Buffer) (m : Memory 16) : (s.setKmem b m).win = s.win := rfl
@[simp] theorem State.setKmem_srate (b : Buffer) (m : Memory 16) : (s.setKmem b m).srate = s.srate := rfl
@[simp] theorem State.setKmem_nchan (b : Buffer) (m : Memory 16) : (s.setKmem b m).nchan = s.nchan := rfl
@[simp] theorem State.setKmem_isUpdating (b : Buffer) (m : Memory 16) :
    (s.setKmem b m).isUpdating =
      s.isUpdating := rfl
@[simp] theorem State.setKmem_gainsDirty (b : Buffer) (m : Memory 16) :
    (s.setKmem b m).gainsDirty =
      s.gainsDirty := rfl
@[simp] theorem State.setKmem_autoUpdate (b : Buffer) (m : Memory 16) :
    (s.setKmem b m).autoUpdate =
      s.autoUpdate := rfl
@[simp] theorem State.setKmem_asel (b : Buffer) (m : Memory 16) : (s.setKmem b m).asel = s.asel := rfl
@[simp] theorem State.setKmem_kmemA (b : Buffer) (m : Memory 16) :
    (s.setKmem b m).kmemA =
      if b = .bufA then m else s.kmemA := rfl
@[simp] theorem State.setKmem_kmemB (b : Buffer) (m : Memory 16) :
    (s.setKmem b m).kmemB =
      if b = .bufB then m else s.kmemB := rfl
@[simp] theorem State.setKmem_channels (b : Buffer) (m : Memory 16) : (s.setKmem b m).channels = s.channels := rfl
@[simp] theorem State.setKmem_phase (b : Buffer) (m : Memory 16) : (s.setKmem b m).phase = s.phase := rfl
@[simp] theorem State.setKmem_apWait (b : Buffer) (m : Memory 16) : (s.setKmem b m).apWait = s.apWait := rfl
@[simp] theorem State.setKmem_port (b : Buffer) (m : Memory 16) : (s.setKmem b m).port = s.port := rfl
@[simp] theorem State.setKmem_cp (b : Buffer) (m : Memory 16) : (s.setKmem b m).cp = s.cp := rfl
@[simp] theorem State.setKmem_ap (b : Buffer) (m : Memory 16) : (s.setKmem b m).ap = s.ap := rfl
@[simp] theorem State.setKmem_turns (b : Buffer) (m : Memory 16) : (s.setKmem b m).turns = s.turns := rfl
@[simp] theorem State.setKmem_freeCount (b : Buffer) (m : Memory 16) :
    (s.setKmem b m).freeCount =
      s.freeCount := rfl

/-! ### `setPending` -/

@[simp] theorem State.setPending_params (i : Nat) (g : Flt) : (s.setPending i g).params = s.params := rfl
@[simp] theorem State.setPending_num (i : Nat) (g : Flt) : (s.setPending i g).num = s.num := rfl
@[simp] theorem State.setPending_bands (i : Nat) (g : Flt) :
    (s.setPending i g).bands =
      s.bands.modify i fun b => { b with gp := g } := rfl
@[simp] theorem State.setPending_win (i : Nat) (g : Flt) : (s.setPending i g).win = s.win := rfl
@[simp] theorem State.setPending_srate (i : Nat) (g : Flt) : (s.setPending i g).srate = s.srate := rfl
@[simp] theorem State.setPending_nchan (i : Nat) (g : Flt) : (s.setPending i g).nchan = s.nchan := rfl
@[simp] theorem State.setPending_isUpdating (i : Nat) (g : Flt) :
    (s.setPending i g).isUpdating =
      s.isUpdating := rfl
@[simp] theorem State.setPending_gainsDirty (i : Nat) (g : Flt) :
    (s.setPending i g).gainsDirty =
      s.gainsDirty := rfl
@[simp] theorem State.setPending_autoUpdate (i : Nat) (g : Flt) :
    (s.setPending i g).autoUpdate =
      s.autoUpdate := rfl
@[simp] theorem State.setPending_asel (i : Nat) (g : Flt) : (s.setPending i g).asel = s.asel := rfl
@[simp] theorem State.setPending_kmemA (i : Nat) (g : Flt) : (s.setPending i g).kmemA = s.kmemA := rfl
@[simp] theorem State.setPending_kmemB (i : Nat) (g : Flt) : (s.setPending i g).kmemB = s.kmemB := rfl
@[simp] theorem State.setPending_channels (i : Nat) (g : Flt) : (s.setPending i g).channels = s.channels := rfl
@[simp] theorem State.setPending_phase (i : Nat) (g : Flt) : (s.setPending i g).phase = s.phase := rfl
@[simp] theorem State.setPending_apWait (i : Nat) (g : Flt) : (s.setPending i g).apWait = s.apWait := rfl
@[simp] theorem State.setPending_port (i : Nat) (g : Flt) : (s.setPending i g).port = s.port := rfl
@[simp] theorem State.setPending_cp (i : Nat) (g : Flt) : (s.setPending i g).cp = s.cp := rfl
@[simp] theorem State.setPending_ap (i : Nat) (g : Flt) : (s.setPending i g).ap = s.ap := rfl
@[simp] theorem State.setPending_turns (i : Nat) (g : Flt) : (s.setPending i g).turns = s.turns := rfl
@[simp] theorem State.setPending_freeCount (i : Nat) (g : Flt) : (s.setPending i g).freeCount = s.freeCount := rfl

/-! ### `storeGain` -/

@[simp] theorem State.storeGain_params (i : Nat) (g : Flt) : (s.storeGain i g).params = s.params := rfl
@[simp] theorem State.storeGain_num (i : Nat) (g : Flt) : (s.storeGain i g).num = s.num := rfl
@[simp] theorem State.storeGain_bands (i : Nat) (g : Flt) :
    (s.storeGain i g).bands =
      s.bands.modify i fun b => { b with gp := gclamp s.num g } := rfl
@[simp] theorem State.storeGain_win (i : Nat) (g : Flt) : (s.storeGain i g).win = s.win := rfl
@[simp] theorem State.storeGain_srate (i : Nat) (g : Flt) : (s.storeGain i g).srate = s.srate := rfl
@[simp] theorem State.storeGain_nchan (i : Nat) (g : Flt) : (s.storeGain i g).nchan = s.nchan := rfl
@[simp] theorem State.storeGain_isUpdating (i : Nat) (g : Flt) : (s.storeGain i g).isUpdating = s.isUpdating := rfl
@[simp] theorem State.storeGain_gainsDirty (i : Nat) (g : Flt) : (s.storeGain i g).gainsDirty = true := rfl
@[simp] theorem State.storeGain_autoUpdate (i : Nat) (g : Flt) : (s.storeGain i g).autoUpdate = s.autoUpdate := rfl
@[simp] theorem State.storeGain_asel (i : Nat) (g : Flt) : (s.storeGain i g).asel = s.asel := rfl
@[simp] theorem State.storeGain_kmemA (i : Nat) (g : Flt) : (s.storeGain i g).kmemA = s.kmemA := rfl
@[simp] theorem State.storeGain_kmemB (i : Nat) (g : Flt) : (s.storeGain i g).kmemB = s.kmemB := rfl
@[simp] theorem State.storeGain_channels (i : Nat) (g : Flt) : (s.storeGain i g).channels = s.channels := rfl
@[simp] theorem State.storeGain_phase (i : Nat) (g : Flt) : (s.storeGain i g).phase = s.phase := rfl
@[simp] theorem State.storeGain_apWait (i : Nat) (g : Flt) : (s.storeGain i g).apWait = s.apWait := rfl
@[simp] theorem State.storeGain_port (i : Nat) (g : Flt) : (s.storeGain i g).port = s.port := rfl
@[simp] theorem State.storeGain_cp (i : Nat) (g : Flt) : (s.storeGain i g).cp = s.cp := rfl
@[simp] theorem State.storeGain_ap (i : Nat) (g : Flt) : (s.storeGain i g).ap = s.ap := rfl
@[simp] theorem State.storeGain_turns (i : Nat) (g : Flt) : (s.storeGain i g).turns = s.turns := rfl
@[simp] theorem State.storeGain_freeCount (i : Nat) (g : Flt) : (s.storeGain i g).freeCount = s.freeCount := rfl

/-! ### `setChannel` -/

@[simp] theorem State.setChannel_params (ch : Nat) (c : Channel) : (s.setChannel ch c).params = s.params := rfl
@[simp] theorem State.setChannel_num (ch : Nat) (c : Channel) : (s.setChannel ch c).num = s.num := rfl
@[simp] theorem State.setChannel_bands (ch : Nat) (c : Channel) : (s.setChannel ch c).bands = s.bands := rfl
@[simp] theorem State.setChannel_win (ch : Nat) (c : Channel) : (s.setChannel ch c).win = s.win := rfl
@[simp] theorem State.setChannel_srate (ch : Nat) (c : Channel) : (s.setChannel ch c).srate = s.srate := rfl
@[simp] theorem State.setChannel_nchan (ch : Nat) (c : Channel) : (s.setChannel ch c).nchan = s.nchan := rfl
@[simp] theorem State.setChannel_isUpdating (ch : Nat) (c : Channel) :
    (s.setChannel ch c).isUpdating =
      s.isUpdating := rfl
@[simp] theorem State.setChannel_gainsDirty (ch : Nat) (c : Channel) :
    (s.setChannel ch c).gainsDirty =
      s.gainsDirty := rfl
@[simp] theorem State.setChannel_autoUpdate (ch : Nat) (c : Channel) :
    (s.setChannel ch c).autoUpdate =
      s.autoUpdate := rfl
@[simp] theorem State.setChannel_asel (ch : Nat) (c : Channel) : (s.setChannel ch c).asel = s.asel := rfl
@[simp] theorem State.setChannel_kmemA (ch : Nat) (c : Channel) : (s.setChannel ch c).kmemA = s.kmemA := rfl
@[simp] theorem State.setChannel_kmemB (ch : Nat) (c : Channel) : (s.setChannel ch c).kmemB = s.kmemB := rfl
@[simp] theorem State.setChannel_channels (ch : Nat) (c : Channel) :
    (s.setChannel ch c).channels =
      s.channels.set ch c := rfl
@[simp] theorem State.setChannel_phase (ch : Nat) (c : Channel) : (s.setChannel ch c).phase = s.phase := rfl
@[simp] theorem State.setChannel_apWait (ch : Nat) (c : Channel) : (s.setChannel ch c).apWait = s.apWait := rfl
@[simp] theorem State.setChannel_port (ch : Nat) (c : Channel) : (s.setChannel ch c).port = s.port := rfl
@[simp] theorem State.setChannel_cp (ch : Nat) (c : Channel) : (s.setChannel ch c).cp = s.cp := rfl
@[simp] theorem State.setChannel_ap (ch : Nat) (c : Channel) : (s.setChannel ch c).ap = s.ap := rfl
@[simp] theorem State.setChannel_turns (ch : Nat) (c : Channel) : (s.setChannel ch c).turns = s.turns := rfl
@[simp] theorem State.setChannel_freeCount (ch : Nat) (c : Channel) :
    (s.setChannel ch c).freeCount =
      s.freeCount := rfl

/-! ### `claim` -/

@[simp] theorem State.claim_params : s.claim.params = s.params := rfl
@[simp] theorem State.claim_num : s.claim.num = s.num := rfl
@[simp] theorem State.claim_bands : s.claim.bands = s.bands := rfl
@[simp] theorem State.claim_win : s.claim.win = s.win := rfl
@[simp] theorem State.claim_srate : s.claim.srate = s.srate := rfl
@[simp] theorem State.claim_nchan : s.claim.nchan = s.nchan := rfl
@[simp] theorem State.claim_isUpdating : s.claim.isUpdating = true := rfl
@[simp] theorem State.claim_gainsDirty : s.claim.gainsDirty = s.gainsDirty := rfl
@[simp] theorem State.claim_autoUpdate : s.claim.autoUpdate = s.autoUpdate := rfl
@[simp] theorem State.claim_asel : s.claim.asel = s.asel := rfl
@[simp] theorem State.claim_kmemA : s.claim.kmemA = s.kmemA := rfl
@[simp] theorem State.claim_kmemB : s.claim.kmemB = s.kmemB := rfl
@[simp] theorem State.claim_channels : s.claim.channels = s.channels := rfl
@[simp] theorem State.claim_phase : s.claim.phase = .commit := rfl
@[simp] theorem State.claim_apWait : s.claim.apWait = s.apWait := rfl
@[simp] theorem State.claim_port : s.claim.port = s.port := rfl
@[simp] theorem State.claim_cp : s.claim.cp = s.cp := rfl
@[simp] theorem State.claim_ap : s.claim.ap = s.ap := rfl
@[simp] theorem State.claim_turns : s.claim.turns = s.turns := rfl
@[simp] theorem State.claim_freeCount : s.claim.freeCount = s.freeCount := rfl

/-! ### `setFreqs` -/

@[simp] theorem State.setFreqs_params (plan : List Flt) : (s.setFreqs plan).params = s.params := rfl
@[simp] theorem State.setFreqs_num (plan : List Flt) : (s.setFreqs plan).num = s.num := rfl
@[simp] theorem State.setFreqs_bands (plan : List Flt) :
    (s.setFreqs plan).bands =
      s.bands.mapIdx fun i b => { b with freq := plan.getD i b.freq } := rfl
@[simp] theorem State.setFreqs_win (plan : List Flt) : (s.setFreqs plan).win = s.win := rfl
@[simp] theorem State.setFreqs_srate (plan : List Flt) : (s.setFreqs plan).srate = s.srate := rfl
@[simp] theorem State.setFreqs_nchan (plan : List Flt) : (s.setFreqs plan).nchan = s.nchan := rfl
@[simp] theorem State.setFreqs_isUpdating (plan : List Flt) : (s.setFreqs plan).isUpdating = s.isUpdating := rfl
@[simp] theorem State.setFreqs_gainsDirty (plan : List Flt) : (s.setFreqs plan).gainsDirty = s.gainsDirty := rfl
@[simp] theorem State.setFreqs_autoUpdate (plan : List Flt) : (s.setFreqs plan).autoUpdate = s.autoUpdate := rfl
@[simp] theorem State.setFreqs_asel (plan : List Flt) : (s.setFreqs plan).asel = s.asel := rfl
@[simp] theorem State.setFreqs_kmemA (plan : List Flt) : (s.setFreqs plan).kmemA = s.kmemA := rfl
@[simp] theorem State.setFreqs_kmemB (plan : List Flt) : (s.setFreqs plan).kmemB = s.kmemB := rfl
@[simp] theorem State.setFreqs_channels (plan : List Flt) : (s.setFreqs plan).channels = s.channels := rfl
@[simp] theorem State.setFreqs_phase (plan : List Flt) : (s.setFreqs plan).phase = s.phase := rfl
@[simp] theorem State.setFreqs_apWait (plan : List Flt) : (s.setFreqs plan).apWait = s.apWait := rfl
@[simp] theorem State.setFreqs_port (plan : List Flt) : (s.setFreqs plan).port = s.port := rfl
@[simp] theorem State.setFreqs_cp (plan : List Flt) : (s.setFreqs plan).cp = s.cp := rfl
@[simp] theorem State.setFreqs_ap (plan : List Flt) : (s.setFreqs plan).ap = s.ap := rfl
@[simp] theorem State.setFreqs_turns (plan : List Flt) : (s.setFreqs plan).turns = s.turns := rfl
@[simp] theorem State.setFreqs_freeCount (plan : List Flt) : (s.setFreqs plan).freeCount = s.freeCount := rfl

/-! ### `clearKrefs` -/

@[simp] theorem State.clearKrefs_params : s.clearKrefs.params = s.params := rfl
@[simp] theorem State.clearKrefs_num : s.clearKrefs.num = s.num := rfl
@[simp] theorem State.clearKrefs_bands : s.clearKrefs.bands = s.bands := rfl
@[simp] theorem State.clearKrefs_win : s.clearKrefs.win = s.win := rfl
@[simp] theorem State.clearKrefs_srate : s.clearKrefs.srate = s.srate := rfl
@[simp] theorem State.clearKrefs_nchan : s.clearKrefs.nchan = s.nchan := rfl
@[simp] theorem State.clearKrefs_isUpdating : s.clearKrefs.isUpdating = s.isUpdating := rfl
@[simp] theorem State.clearKrefs_gainsDirty : s.clearKrefs.gainsDirty = s.gainsDirty := rfl
@[simp] theorem State.clearKrefs_autoUpdate : s.clearKrefs.autoUpdate = s.autoUpdate := rfl
@[simp] theorem State.clearKrefs_asel : s.clearKrefs.asel = s.asel := rfl
@[simp] theorem State.clearKrefs_kmemA : s.clearKrefs.kmemA = s.kmemA := rfl
@[simp] theorem State.clearKrefs_kmemB : s.clearKrefs.kmemB = s.kmemB := rfl
@[simp] theorem State.clearKrefs_channels :
    s.clearKrefs.channels =
      s.channels.map fun c => { c with kref := { c.kref with valid := false } } := rfl
@[simp] theorem State.clearKrefs_phase : s.clearKrefs.phase = s.phase := rfl
@[simp] theorem State.clearKrefs_apWait : s.clearKrefs.apWait = s.apWait := rfl
@[simp] theorem State.clearKrefs_port : s.clearKrefs.port = s.port := rfl
@[simp] theorem State.clearKrefs_cp : s.clearKrefs.cp = s.cp := rfl
@[simp] theorem State.clearKrefs_ap : s.clearKrefs.ap = s.ap := rfl
@[simp] theorem State.clearKrefs_turns : s.clearKrefs.turns = s.turns := rfl
@[simp] theorem State.clearKrefs_freeCount : s.clearKrefs.freeCount = s.freeCount := rfl

/-! ### `clearHistories` -/

@[simp] theorem State.clearHistories_params (nch : Nat) : (s.clearHistories nch).params = s.params := rfl
@[simp] theorem State.clearHistories_num (nch : Nat) : (s.clearHistories nch).num = s.num := rfl
@[simp] theorem State.clearHistories_bands (nch : Nat) : (s.clearHistories nch).bands = s.bands := rfl
@[simp] theorem State.clearHistories_win (nch : Nat) : (s.clearHistories nch).win = s.win := rfl
@[simp] theorem State.clearHistories_srate (nch : Nat) : (s.clearHistories nch).srate = s.srate := rfl
@[simp] theorem State.clearHistories_nchan (nch : Nat) : (s.clearHistories nch).nchan = s.nchan := rfl
@[simp] theorem State.clearHistories_isUpdating (nch : Nat) :
    (s.clearHistories nch).isUpdating =
      s.isUpdating := rfl
@[simp] theorem State.clearHistories_gainsDirty (nch : Nat) :
    (s.clearHistories nch).gainsDirty =
      s.gainsDirty := rfl
@[simp] theorem State.clearHistories_autoUpdate (nch : Nat) :
    (s.clearHistories nch).autoUpdate =
      s.autoUpdate := rfl
@[simp] theorem State.clearHistories_asel (nch : Nat) : (s.clearHistories nch).asel = s.asel := rfl
@[simp] theorem State.clearHistories_kmemA (nch : Nat) : (s.clearHistories nch).kmemA = s.kmemA := rfl
@[simp] theorem State.clearHistories_kmemB (nch : Nat) : (s.clearHistories nch).kmemB = s.kmemB := rfl
@[simp] theorem State.clearHistories_phase (nch : Nat) : (s.clearHistories nch).phase = s.phase := rfl
@[simp] theorem State.clearHistories_apWait (nch : Nat) : (s.clearHistories nch).apWait = s.apWait := rfl
@[simp] theorem State.clearHistories_port (nch : Nat) : (s.clearHistories nch).port = s.port := rfl
@[simp] theorem State.clearHistories_cp (nch : Nat) : (s.clearHistories nch).cp = s.cp := rfl
@[simp] theorem State.clearHistories_ap (nch : Nat) : (s.clearHistories nch).ap = s.ap := rfl
@[simp] theorem State.clearHistories_turns (nch : Nat) : (s.clearHistories nch).turns = s.turns := rfl
@[simp] theorem State.clearHistories_freeCount (nch : Nat) : (s.clearHistories nch).freeCount = s.freeCount := rfl

/-! ### `initKernels` -/

@[simp] theorem State.initKernels_params : s.initKernels.params = s.params := rfl
@[simp] theorem State.initKernels_num : s.initKernels.num = s.num := rfl
@[simp] theorem State.initKernels_bands : s.initKernels.bands = s.bands := rfl
@[simp] theorem State.initKernels_win : s.initKernels.win = s.win := rfl
@[simp] theorem State.initKernels_srate : s.initKernels.srate = s.srate := rfl
@[simp] theorem State.initKernels_nchan : s.initKernels.nchan = s.nchan := rfl
@[simp] theorem State.initKernels_isUpdating : s.initKernels.isUpdating = s.isUpdating := rfl
@[simp] theorem State.initKernels_gainsDirty : s.initKernels.gainsDirty = s.gainsDirty := rfl
@[simp] theorem State.initKernels_autoUpdate : s.initKernels.autoUpdate = s.autoUpdate := rfl
@[simp] theorem State.initKernels_asel : s.initKernels.asel = s.asel := rfl
@[simp] theorem State.initKernels_kmemA :
    s.initKernels.kmemA =
      s.kmemA.writeAll (identityKernel s.params.numTaps) s.params.numTaps := rfl
@[simp] theorem State.initKernels_kmemB :
    s.initKernels.kmemB =
      s.kmemB.writeAll (identityKernel s.params.numTaps) s.params.numTaps := rfl
@[simp] theorem State.initKernels_channels : s.initKernels.channels = s.channels := rfl
@[simp] theorem State.initKernels_phase : s.initKernels.phase = s.phase := rfl
@[simp] theorem State.initKernels_apWait : s.initKernels.apWait = s.apWait := rfl
@[simp] theorem State.initKernels_port : s.initKernels.port = s.port := rfl
@[simp] theorem State.initKernels_cp : s.initKernels.cp = s.cp := rfl
@[simp] theorem State.initKernels_ap : s.initKernels.ap = s.ap := rfl
@[simp] theorem State.initKernels_turns : s.initKernels.turns = s.turns := rfl
@[simp] theorem State.initKernels_freeCount : s.initKernels.freeCount = s.freeCount := rfl

/-! ### `configure` -/

@[simp] theorem State.configure_params (nch : Nat) (sr : Word) : (s.configure nch sr).params = s.params := rfl
@[simp] theorem State.configure_num (nch : Nat) (sr : Word) : (s.configure nch sr).num = s.num := rfl
@[simp] theorem State.configure_bands (nch : Nat) (sr : Word) :
    (s.configure nch sr).bands =
      s.bands.mapIdx fun i b => { b with freq := (bandPlan s.num (sampleRateOf sr) s.params.numBands).getD i b.freq } := rfl
@[simp] theorem State.configure_win (nch : Nat) (sr : Word) :
    (s.configure nch sr).win =
      window s.num s.params.numTaps := rfl
@[simp] theorem State.configure_srate (nch : Nat) (sr : Word) : (s.configure nch sr).srate = sr := rfl
@[simp] theorem State.configure_nchan (nch : Nat) (sr : Word) : (s.configure nch sr).nchan = nch := rfl
@[simp] theorem State.configure_isUpdating (nch : Nat) (sr : Word) :
    (s.configure nch sr).isUpdating =
      s.isUpdating := rfl
@[simp] theorem State.configure_gainsDirty (nch : Nat) (sr : Word) :
    (s.configure nch sr).gainsDirty =
      s.gainsDirty := rfl
@[simp] theorem State.configure_autoUpdate (nch : Nat) (sr : Word) :
    (s.configure nch sr).autoUpdate =
      s.autoUpdate := rfl
@[simp] theorem State.configure_asel (nch : Nat) (sr : Word) : (s.configure nch sr).asel = s.asel := rfl
@[simp] theorem State.configure_kmemA (nch : Nat) (sr : Word) :
    (s.configure nch sr).kmemA =
      s.kmemA.writeAll (identityKernel s.params.numTaps) s.params.numTaps := rfl
@[simp] theorem State.configure_kmemB (nch : Nat) (sr : Word) :
    (s.configure nch sr).kmemB =
      s.kmemB.writeAll (identityKernel s.params.numTaps) s.params.numTaps := rfl
@[simp] theorem State.configure_phase (nch : Nat) (sr : Word) : (s.configure nch sr).phase = s.phase := rfl
@[simp] theorem State.configure_apWait (nch : Nat) (sr : Word) : (s.configure nch sr).apWait = s.apWait := rfl
@[simp] theorem State.configure_port (nch : Nat) (sr : Word) : (s.configure nch sr).port = s.port := rfl
@[simp] theorem State.configure_cp (nch : Nat) (sr : Word) : (s.configure nch sr).cp = s.cp := rfl
@[simp] theorem State.configure_ap (nch : Nat) (sr : Word) : (s.configure nch sr).ap = s.ap := rfl
@[simp] theorem State.configure_turns (nch : Nat) (sr : Word) : (s.configure nch sr).turns = s.turns := rfl
@[simp] theorem State.configure_freeCount (nch : Nat) (sr : Word) :
    (s.configure nch sr).freeCount =
      s.freeCount := rfl

/-! ### `eCommit` -/

@[simp] theorem State.eCommit_params : s.eCommit.params = s.params := rfl
@[simp] theorem State.eCommit_num : s.eCommit.num = s.num := rfl
@[simp] theorem State.eCommit_bands : s.eCommit.bands = s.bands.map fun b => { b with gc := b.gp } := rfl
@[simp] theorem State.eCommit_win : s.eCommit.win = s.win := rfl
@[simp] theorem State.eCommit_srate : s.eCommit.srate = s.srate := rfl
@[simp] theorem State.eCommit_nchan : s.eCommit.nchan = s.nchan := rfl
@[simp] theorem State.eCommit_isUpdating : s.eCommit.isUpdating = s.isUpdating := rfl
@[simp] theorem State.eCommit_gainsDirty : s.eCommit.gainsDirty = s.gainsDirty := rfl
@[simp] theorem State.eCommit_autoUpdate : s.eCommit.autoUpdate = s.autoUpdate := rfl
@[simp] theorem State.eCommit_asel : s.eCommit.asel = s.asel := rfl
@[simp] theorem State.eCommit_kmemA : s.eCommit.kmemA = s.kmemA := rfl
@[simp] theorem State.eCommit_kmemB : s.eCommit.kmemB = s.kmemB := rfl
@[simp] theorem State.eCommit_channels : s.eCommit.channels = s.channels := rfl
@[simp] theorem State.eCommit_phase : s.eCommit.phase = .design := rfl
@[simp] theorem State.eCommit_apWait : s.eCommit.apWait = s.apWait := rfl
@[simp] theorem State.eCommit_port : s.eCommit.port = s.port := rfl
@[simp] theorem State.eCommit_cp : s.eCommit.cp = s.cp := rfl
@[simp] theorem State.eCommit_ap : s.eCommit.ap = s.ap := rfl
@[simp] theorem State.eCommit_turns : s.eCommit.turns = s.turns := rfl
@[simp] theorem State.eCommit_freeCount : s.eCommit.freeCount = s.freeCount := rfl

/-! ### `eDesign` -/

@[simp] theorem State.eDesign_params : s.eDesign.params = s.params := rfl
@[simp] theorem State.eDesign_num : s.eDesign.num = s.num := rfl
@[simp] theorem State.eDesign_bands : s.eDesign.bands = s.bands := rfl
@[simp] theorem State.eDesign_win : s.eDesign.win = s.win := rfl
@[simp] theorem State.eDesign_srate : s.eDesign.srate = s.srate := rfl
@[simp] theorem State.eDesign_nchan : s.eDesign.nchan = s.nchan := rfl
@[simp] theorem State.eDesign_isUpdating : s.eDesign.isUpdating = s.isUpdating := rfl
@[simp] theorem State.eDesign_gainsDirty : s.eDesign.gainsDirty = s.gainsDirty := rfl
@[simp] theorem State.eDesign_autoUpdate : s.eDesign.autoUpdate = s.autoUpdate := rfl
@[simp] theorem State.eDesign_asel : s.eDesign.asel = s.asel := rfl
@[simp] theorem State.eDesign_channels : s.eDesign.channels = s.channels := rfl
@[simp] theorem State.eDesign_phase : s.eDesign.phase = .swap := rfl
@[simp] theorem State.eDesign_apWait : s.eDesign.apWait = s.apWait := rfl
@[simp] theorem State.eDesign_port : s.eDesign.port = s.port := rfl
@[simp] theorem State.eDesign_cp : s.eDesign.cp = s.cp := rfl
@[simp] theorem State.eDesign_ap : s.eDesign.ap = s.ap := rfl
@[simp] theorem State.eDesign_turns : s.eDesign.turns = s.turns := rfl
@[simp] theorem State.eDesign_freeCount : s.eDesign.freeCount = s.freeCount := rfl

/-! ### `assignKrefs` -/

@[simp] theorem State.assignKrefs_params (b : Buffer) : (s.assignKrefs b).params = s.params := rfl
@[simp] theorem State.assignKrefs_num (b : Buffer) : (s.assignKrefs b).num = s.num := rfl
@[simp] theorem State.assignKrefs_bands (b : Buffer) : (s.assignKrefs b).bands = s.bands := rfl
@[simp] theorem State.assignKrefs_win (b : Buffer) : (s.assignKrefs b).win = s.win := rfl
@[simp] theorem State.assignKrefs_srate (b : Buffer) : (s.assignKrefs b).srate = s.srate := rfl
@[simp] theorem State.assignKrefs_nchan (b : Buffer) : (s.assignKrefs b).nchan = s.nchan := rfl
@[simp] theorem State.assignKrefs_isUpdating (b : Buffer) : (s.assignKrefs b).isUpdating = s.isUpdating := rfl
@[simp] theorem State.assignKrefs_gainsDirty (b : Buffer) : (s.assignKrefs b).gainsDirty = s.gainsDirty := rfl
@[simp] theorem State.assignKrefs_autoUpdate (b : Buffer) : (s.assignKrefs b).autoUpdate = s.autoUpdate := rfl
@[simp] theorem State.assignKrefs_asel (b : Buffer) : (s.assignKrefs b).asel = s.asel := rfl
@[simp] theorem State.assignKrefs_kmemA (b : Buffer) : (s.assignKrefs b).kmemA = s.kmemA := rfl
@[simp] theorem State.assignKrefs_kmemB (b : Buffer) : (s.assignKrefs b).kmemB = s.kmemB := rfl
@[simp] theorem State.assignKrefs_channels (b : Buffer) :
    (s.assignKrefs b).channels =
      s.channels.mapIdx fun ch c => if ch < s.nchan then { c with kref := ⟨true, b⟩ } else c := rfl
@[simp] theorem State.assignKrefs_phase (b : Buffer) : (s.assignKrefs b).phase = s.phase := rfl
@[simp] theorem State.assignKrefs_apWait (b : Buffer) : (s.assignKrefs b).apWait = s.apWait := rfl
@[simp] theorem State.assignKrefs_port (b : Buffer) : (s.assignKrefs b).port = s.port := rfl
@[simp] theorem State.assignKrefs_cp (b : Buffer) : (s.assignKrefs b).cp = s.cp := rfl
@[simp] theorem State.assignKrefs_ap (b : Buffer) : (s.assignKrefs b).ap = s.ap := rfl
@[simp] theorem State.assignKrefs_turns (b : Buffer) : (s.assignKrefs b).turns = s.turns := rfl
@[simp] theorem State.assignKrefs_freeCount (b : Buffer) : (s.assignKrefs b).freeCount = s.freeCount := rfl

/-! ### `eSwap` -/

@[simp] theorem State.eSwap_params : s.eSwap.params = s.params := rfl
@[simp] theorem State.eSwap_num : s.eSwap.num = s.num := rfl
@[simp] theorem State.eSwap_bands : s.eSwap.bands = s.bands := rfl
@[simp] theorem State.eSwap_win : s.eSwap.win = s.win := rfl
@[simp] theorem State.eSwap_srate : s.eSwap.srate = s.srate := rfl
@[simp] theorem State.eSwap_nchan : s.eSwap.nchan = s.nchan := rfl
@[simp] theorem State.eSwap_isUpdating : s.eSwap.isUpdating = false := rfl
@[simp] theorem State.eSwap_gainsDirty : s.eSwap.gainsDirty = false := rfl
@[simp] theorem State.eSwap_autoUpdate : s.eSwap.autoUpdate = s.autoUpdate := rfl
@[simp] theorem State.eSwap_asel : s.eSwap.asel = s.asel.other := rfl
@[simp] theorem State.eSwap_kmemA : s.eSwap.kmemA = s.kmemA := rfl
@[simp] theorem State.eSwap_kmemB : s.eSwap.kmemB = s.kmemB := rfl
@[simp] theorem State.eSwap_channels :
    s.eSwap.channels =
      s.channels.mapIdx fun ch c => if ch < s.nchan then { c with kref := ⟨true, s.asel.other⟩ } else c := rfl
@[simp] theorem State.eSwap_phase : s.eSwap.phase = .idle := rfl
@[simp] theorem State.eSwap_apWait : s.eSwap.apWait = false := rfl
@[simp] theorem State.eSwap_port : s.eSwap.port = s.port := rfl
@[simp] theorem State.eSwap_cp : s.eSwap.cp = s.cp := rfl
@[simp] theorem State.eSwap_ap :
    s.eSwap.ap =
      if s.apWait then { s.ap with answers := ⟨.ok, 1⟩ :: s.ap.answers } else s.ap := rfl
@[simp] theorem State.eSwap_turns : s.eSwap.turns = s.turns := rfl
@[simp] theorem State.eSwap_freeCount : s.eSwap.freeCount = s.freeCount := rfl

/-! ### Accessors after an answer -/

@[simp] theorem State.respond_kmem (st : Status) (rw : Word) (b : Buffer) :
    (s.respond st rw).kmem b = s.kmem b := by cases b <;> rfl
@[simp] theorem State.respond_channel (st : Status) (rw : Word) (ch : Nat) :
    (s.respond st rw).channel ch = s.channel ch := rfl
@[simp] theorem State.respond_band (st : Status) (rw : Word) (i : Nat) :
    (s.respond st rw).band i = s.band i := rfl
@[simp] theorem State.respond_configured (st : Status) (rw : Word) :
    (s.respond st rw).configured = s.configured := rfl
@[simp] theorem State.claim_kmem (b : Buffer) : s.claim.kmem b = s.kmem b := by cases b <;> rfl
@[simp] theorem State.claim_channel (ch : Nat) : s.claim.channel ch = s.channel ch := rfl
@[simp] theorem State.claim_band (i : Nat) : s.claim.band i = s.band i := rfl
@[simp] theorem State.claim_configured : s.claim.configured = s.configured := rfl

/-- The answer is the newest on the port whose command was executed. -/
@[simp] theorem State.respond_answers (st : Status) (rw : Word) :
    ((s.respond st rw).portOf s.port).answers = ⟨st, rw⟩ :: (s.portOf s.port).answers := by
  cases h : s.port <;> simp [State.portOf, h]

/-- The other port is not touched by an answer. -/
theorem State.respond_portOf_other (st : Status) (rw : Word) (p : PortId) (h : p ≠ s.port) :
    (s.respond st rw).portOf p = s.portOf p := by
  cases p <;> cases hp : s.port <;> simp_all [State.portOf]

end Sys2Proof.Machine
end

