-- ==== Sys2Proof/Laws/Ops.lean ====
section
/-! SUPPORT. One lemma for each shared operation that says once what it can do. -/

namespace Sys2Proof.Machine

/-! ### Completing a command -/

theorem onPort_same {p : PortId} {s : State} (h : s.port = p) (body : Host.Outcome State Fault Refusal) :
    onPort p s body = body := if_pos h

theorem onPort_other {p : PortId} {s : State} (h : s.port ≠ p) (body : Host.Outcome State Fault Refusal) :
    onPort p s body = raiseErr .errIllegal s := if_neg h

/-- What a meaning that runs on one port can answer: ERR_ILLEGAL on the other port, else what its body answers. -/
theorem onPort_cases {p : PortId} {s t : State} {body : Host.Outcome State Fault Refusal}
    (h : onPort p s body = .next t) :
    (s.port ≠ p ∧ t = s.respond .errIllegal 0) ∨ (s.port = p ∧ body = .next t) := by
  by_cases hp : s.port = p
  · exact .inr ⟨hp, by rwa [onPort_same hp] at h⟩
  · refine .inl ⟨hp, ?_⟩
    rw [onPort_other hp] at h
    exact (Host.Outcome.next.inj h).symm

theorem respond_eq (st : Status) (rw : Word) (s : State) : respond st rw s = .next (s.respond st rw) := rfl
theorem raiseErr_eq (st : Status) (s : State) : raiseErr st s = .next (s.respond st 0) := rfl

@[simp] theorem respond_next_iff (st : Status) (rw : Word) (s t : State) :
    respond st rw s = .next t ↔ s.respond st rw = t := by simp [respond]
@[simp] theorem raiseErr_next_iff (st : Status) (s t : State) :
    raiseErr st s = .next t ↔ s.respond st 0 = t := by simp [raiseErr, respond]

/-! ### The rebuild request (rule R112) -/

/-- The four results, each with its condition; the state changes only with STARTED. -/
theorem rebuildRequest_cases (force : Bool) (s : State) :
    (rebuildRequest force s = (.notCfg, s) ∧ s.configured = false) ∨
    (rebuildRequest force s = (.busy, s) ∧ s.configured = true ∧ s.isUpdating = true) ∨
    (rebuildRequest force s = (.notNeeded, s) ∧ s.configured = true ∧ s.isUpdating = false ∧ force = false ∧
      s.gainsDirty = false) ∨
    (rebuildRequest force s = (.started, s.claim) ∧ s.configured = true ∧ s.isUpdating = false ∧
      (force = true ∨ s.gainsDirty = true)) := by
  simp only [rebuildRequest, State.requestResult]
  rcases Bool.eq_false_or_eq_true s.configured with hc | hc
  · rcases Bool.eq_false_or_eq_true s.isUpdating with hu | hu
    · simp [hc, hu]
    · cases force <;> rcases Bool.eq_false_or_eq_true s.gainsDirty with hg | hg <;> simp [hc, hu, hg]
  · simp [hc]

/-! ### Bands and channels -/

/-- `GP[i] <- g` changes that one register. -/
theorem State.storeGain_band (s : State) {i : Nat} (g : Flt) (j : Nat) (h : i < s.bands.length) :
    (s.storeGain i g).band j = if j = i then { s.band i with gp := gclamp s.num g } else s.band j := by
  simp only [State.band, State.storeGain_bands, List.getD_eq_getElem?_getD, List.getElem?_modify]
  by_cases hj : j = i
  · subst hj; simp [h]
  · simp [hj, Ne.symm hj]

theorem State.setChannel_channel (s : State) {ch : Nat} (c : Channel) (k : Nat) (h : ch < s.channels.length) :
    (s.setChannel ch c).channel k = if k = ch then c else s.channel k := by
  simp only [State.channel, State.setChannel_channels, List.getD_eq_getElem?_getD, List.getElem?_set]
  by_cases hk : k = ch
  · subst hk; simp [h]
  · simp [hk, Ne.symm hk]

/-- Clearing the references keeps ring and cursor of every channel. -/
theorem State.clearKrefs_channel (s : State) (ch : Nat) :
    s.clearKrefs.channel ch = { s.channel ch with kref := { (s.channel ch).kref with valid := false } } := by
  simp only [State.channel, State.clearKrefs_channels, List.getD_eq_getElem?_getD, List.getElem?_map]
  cases s.channels[ch]? <;> rfl

theorem State.clearHistories_channel (s : State) (nch ch : Nat) (h : ch < s.channels.length) :
    (s.clearHistories nch).channel ch =
      if ch < nch then
        { s.channel ch with hist := (s.channel ch).hist.writeAll (fun _ => 0) s.params.numTaps, cur := 0 }
      else s.channel ch := by
  simp [State.channel, State.clearHistories, List.getD_eq_getElem?_getD, h]

theorem State.clearHistories_channel_above (s : State) (nch ch : Nat) (h : nch ≤ ch) :
    (s.clearHistories nch).channel ch = s.channel ch := by
  simp only [State.channel, State.clearHistories, List.getD_eq_getElem?_getD, List.getElem?_mapIdx]
  cases s.channels[ch]? <;> simp; intro; omega

theorem State.assignKrefs_channel (s : State) (b : Buffer) (ch : Nat) (h : ch < s.channels.length) :
    (s.assignKrefs b).channel ch = if ch < s.nchan then { s.channel ch with kref := ⟨true, b⟩ } else s.channel ch := by
  simp [State.channel, State.assignKrefs, List.getD_eq_getElem?_getD, h]

theorem State.assignKrefs_channel_above (s : State) (b : Buffer) (ch : Nat) (h : s.nchan ≤ ch) :
    (s.assignKrefs b).channel ch = s.channel ch := by
  simp only [State.channel, State.assignKrefs, List.getD_eq_getElem?_getD, List.getElem?_mapIdx]
  cases s.channels[ch]? <;> simp; intro; omega

/-! ### The status register (rule R22) -/

/-- `STATUS` bit by bit. -/
theorem State.statusWord_bits (s : State) :
    s.statusWord.getLsbD 0 = s.configured ∧ s.statusWord.getLsbD 1 = s.isUpdating ∧
    s.statusWord.getLsbD 2 = s.gainsDirty ∧ s.statusWord.getLsbD 3 = s.autoUpdate ∧
    s.statusWord.getLsbD 4 = s.asel.bit ∧ s.statusWord.getLsbD 5 = s.krefValid ∧
    ∀ k, 6 ≤ k → s.statusWord.getLsbD k = false := by
  simp only [State.statusWord]
  generalize s.krefValid = a, s.asel.bit = b, s.autoUpdate = c, s.gainsDirty = d, s.isUpdating = e, s.configured = f
  refine ⟨?_, ?_, ?_, ?_, ?_, ?_, fun k hk => ?_⟩
  · revert a b c d e f; decide
  · revert a b c d e f; decide
  · revert a b c d e f; decide
  · revert a b c d e f; decide
  · revert a b c d e f; decide
  · revert a b c d e f; decide
  · by_cases h : k < 32
    · revert a b c d e f k; decide
    · exact BitVec.getLsbD_of_ge _ _ (by omega)

/-! ### Turns and commands -/

/-- A port's next command, if its master has one. -/
theorem State.fetch_cases (s : State) (p : PortId) :
    (s.fetch p = none ∧ (s.portOf p).pending = []) ∨
    ∃ c cs, (s.portOf p).pending = c :: cs ∧
      s.fetch p = some (c, match p with
        | .cp => { s with cp := { s.cp with pending := cs }, port := .cp }
        | .ap => { s with ap := { s.ap with pending := cs }, port := .ap }) := by
  cases p
  · cases h : s.cp.pending <;> simp [State.fetch, State.portOf, h]
  · cases h : s.ap.pending <;> simp [State.fetch, State.portOf, h]

/-! ### The multiply-accumulate (rules R130 and R134) -/

/-- Where ring and kernel have been written, the multiply-accumulate is the sum of its products. -/
theorem macOver_eq_sum {w : SampleWidth} {t c : Nat} {hist : Memory 32} {b : Buffer} {kern : Memory 16}
    {x k : Nat → Int} (ks : List Nat) (acc : Int)
    (hx : ∀ j ∈ ks, ∃ v, hist.read (ringPos t c j) = some v ∧ sampleOf w v = x j)
    (hk : ∀ j ∈ ks, ∃ v, kern.read j = some v ∧ coeffValue v = k j) :
    macOver w t c hist b kern ks acc = .ok (acc + (ks.map fun j => x j * k j).sum) := by
  induction ks generalizing acc with
  | nil => simp [macOver]
  | cons j ks ih =>
    obtain ⟨v, hv, hxv⟩ := hx j List.mem_cons_self
    obtain ⟨u, hu, hku⟩ := hk j List.mem_cons_self
    simp only [macOver, hv, hu]
    rw [ih _ (fun i hi => hx i (List.mem_cons_of_mem _ hi)) (fun i hi => hk i (List.mem_cons_of_mem _ hi)), hxv, hku]
    simp [add_assoc]

/-- The ring position of rule R41, for the ages that occur. -/
theorem ringPos_eq_emod {t c k : Nat} (hk : k < t) : ringPos t c k = (((c : Int) - k) % t).toNat := by
  have h : ((c + t - k : Nat) : Int) = ((c : Int) - k) + t := by omega
  have h2 : ((ringPos t c k : Nat) : Int) = ((c : Int) - k) % t := by
    rw [ringPos, Int.natCast_emod, h, Int.add_emod_right]
  omega

theorem ringPos_lt {t c k : Nat} (h : 0 < t) : ringPos t c k < t := Nat.mod_lt _ h

end Sys2Proof.Machine
end

