-- ==== Sys2Proof/Laws/Exec.lean ====
section
/-! SUPPORT. What each meaning can answer: a failure that changes nothing but the answer, or its effect with the
conditions under which it happens. -/

namespace Sys2Proof.Machine

/-- `t` is `s` after a command that failed: an answer with a failing status and response word 0 (rule R7). -/
def State.FailedInto (s t : State) : Prop := ∃ st, st ≠ Status.ok ∧ t = s.respond st 0

theorem failedInto_of_raise {code : Status} {s t : State} (hc : code ≠ .ok) (h : raiseErr code s = .next t) :
    s.FailedInto t := ⟨code, hc, (Host.Outcome.next.inj h).symm⟩

theorem failedInto_illegal (s : State) : s.FailedInto (s.respond .errIllegal 0) := ⟨.errIllegal, nofun, rfl⟩

theorem configured_iff (s : State) : s.configured = true ↔ 0 < s.srate.toInt := by simp [State.configured]
theorem not_configured_iff (s : State) : s.configured = false ↔ s.srate.toInt ≤ 0 := by simp [State.configured]

/-- A request starts a rebuild exactly when it may (rule R112). -/
theorem requestResult_started_iff (force : Bool) (s : State) :
    s.requestResult force = .started ↔
      s.configured = true ∧ s.isUpdating = false ∧ (force = true ∨ s.gainsDirty = true) := by
  have h := rebuildRequest_cases force s
  simp only [rebuildRequest, Prod.mk.injEq] at h
  rcases h with ⟨⟨h, -⟩, h2⟩ | ⟨⟨h, -⟩, h2, h3⟩ | ⟨⟨h, -⟩, h2, h3, h4, h5⟩ | ⟨⟨h, -⟩, h2, h3, h4⟩ <;>
    simp_all

theorem execNop_next {s t : State} (h : execNop s = .next t) : t = s.respond .ok 0 :=
  (Host.Outcome.next.inj h).symm

/-- BEGIN (rule R151). -/
theorem execBegin_next {nch : Nat} {sr : Word} {s t : State} (h : execBegin nch sr s = .next t) :
    s.FailedInto t ∨
      (s.port = .cp ∧ 0 < BitVec.toInt sr ∧ 1 ≤ nch ∧ nch ≤ s.params.maxChannels ∧ s.isUpdating = false ∧
        t = (s.configure nch sr).claim.respond .ok 0) := by
  rcases onPort_cases h with ⟨-, rfl⟩ | ⟨hp, h⟩
  · exact .inl (failedInto_illegal s)
  · split at h
    · exact .inl (failedInto_of_raise (by decide) h)
    split at h
    · exact .inl (failedInto_of_raise (by decide) h)
    split at h
    · exact .inl (failedInto_of_raise (by decide) h)
    · next h1 h2 h3 =>
      have hr : (s.configure nch sr).requestResult true = .started :=
        (requestResult_started_iff _ _).mpr
          ⟨(configured_iff _).mpr (Int.not_le.mp h1), Bool.eq_false_iff.mpr h3, .inl rfl⟩
      rw [rebuildRequest, hr] at h
      exact .inr ⟨hp, Int.not_le.mp h1, by omega, by omega, Bool.eq_false_iff.mpr h3,
        (Host.Outcome.next.inj h).symm⟩

/-- END (rule R153). -/
theorem execEnd_next {s t : State} (h : execEnd s = .next t) :
    s.FailedInto t ∨
      (s.port = .cp ∧ s.isUpdating = false ∧ t = (State.clearKrefs { s with srate := 0, nchan := 0 }).respond .ok 0) := by
  rcases onPort_cases h with ⟨-, rfl⟩ | ⟨hp, h⟩
  · exact .inl (failedInto_illegal s)
  · split at h
    · exact .inl (failedInto_of_raise (by decide) h)
    · next h1 => exact .inr ⟨hp, Bool.eq_false_iff.mpr h1, (Host.Outcome.next.inj h).symm⟩

/-- SETG (rule R154). -/
theorem execSetg_next {i : Nat} {g : Word} {s t : State} (h : execSetg i g s = .next t) :
    s.FailedInto t ∨
      (s.port = .cp ∧ i < s.params.numBands ∧ s.num.isNaN (s.num.ofBits32 g) = false ∧
        t = (s.storeGain i (s.num.ofBits32 g)).respond .ok 0) := by
  rcases onPort_cases h with ⟨-, rfl⟩ | ⟨hp, h⟩
  · exact .inl (failedInto_illegal s)
  · split at h
    · exact .inl (failedInto_of_raise (by decide) h)
    split at h
    · exact .inl (failedInto_of_raise (by decide) h)
    · next h1 h2 => exact .inr ⟨hp, Nat.not_le.mp h1, Bool.eq_false_iff.mpr h2, (Host.Outcome.next.inj h).symm⟩

/-- SETGN (rule R155). -/
theorem execSetgn_next {i : Nat} {v : Word} {s t : State} (h : execSetgn i v s = .next t) :
    s.FailedInto t ∨
      (s.port = .cp ∧ i < s.params.numBands ∧ s.num.isNaN (s.num.ofBits32 v) = false ∧
        t = (s.storeGain i (normalisedGain s.num (s.num.ofBits32 v))).respond .ok 0) := by
  rcases onPort_cases h with ⟨-, rfl⟩ | ⟨hp, h⟩
  · exact .inl (failedInto_illegal s)
  · split at h
    · exact .inl (failedInto_of_raise (by decide) h)
    split at h
    · exact .inl (failedInto_of_raise (by decide) h)
    · next h1 h2 => exact .inr ⟨hp, Nat.not_le.mp h1, Bool.eq_false_iff.mpr h2, (Host.Outcome.next.inj h).symm⟩

/-- GETG (rule R156). -/
theorem execGetg_next {sel : Bool} {i : Nat} {s t : State} (h : execGetg sel i s = .next t) :
    s.FailedInto t ∨ (s.port = .cp ∧ ∃ rw, t = s.respond .ok rw) := by
  rcases onPort_cases h with ⟨-, rfl⟩ | ⟨hp, h⟩
  · exact .inl (failedInto_illegal s)
  · split at h
    · exact .inl (failedInto_of_raise (by decide) h)
    · exact .inr ⟨hp, _, (Host.Outcome.next.inj h).symm⟩

/-- GETF (rule R157). -/
theorem execGetf_next {i : Nat} {s t : State} (h : execGetf i s = .next t) :
    s.FailedInto t ∨ (s.port = .cp ∧ ∃ rw, t = s.respond .ok rw) := by
  rcases onPort_cases h with ⟨-, rfl⟩ | ⟨hp, h⟩
  · exact .inl (failedInto_illegal s)
  · split at h
    · exact .inl (failedInto_of_raise (by decide) h)
    · exact .inr ⟨hp, _, (Host.Outcome.next.inj h).symm⟩

/-- SETAUTO (rule R158). -/
theorem execSetauto_next {en : Bool} {s t : State} (h : execSetauto en s = .next t) :
    s.FailedInto t ∨ (s.port = .cp ∧ t = State.respond { s with autoUpdate := en } .ok 0) := by
  rcases onPort_cases h with ⟨-, rfl⟩ | ⟨hp, h⟩
  · exact .inl (failedInto_illegal s)
  · exact .inr ⟨hp, (Host.Outcome.next.inj h).symm⟩

/-- RDCSR (rule R159). -/
theorem execRdcsr_next {r : Nat} {s t : State} (h : execRdcsr r s = .next t) :
    s.FailedInto t ∨ (s.port = .cp ∧ ∃ rw, t = s.respond .ok rw) := by
  rcases onPort_cases h with ⟨-, rfl⟩ | ⟨hp, h⟩
  · exact .inl (failedInto_illegal s)
  · split at h
    · exact .inl (failedInto_of_raise (by decide) h)
    · exact .inr ⟨hp, _, (Host.Outcome.next.inj h).symm⟩

/-- UPDATE (rule R113). -/
theorem execUpdate_next {force : Bool} {s t : State} (h : execUpdate force s = .next t) :
    s.FailedInto t ∨
      (s.port = .cp ∧ s.configured = true ∧ s.isUpdating = false ∧ (force = true ∨ s.gainsDirty = true) ∧
        t = s.claim.respond .ok 1) := by
  rcases onPort_cases h with ⟨-, rfl⟩ | ⟨hp, h⟩
  · exact .inl (failedInto_illegal s)
  · rcases rebuildRequest_cases force s with ⟨e, -⟩ | ⟨e, -⟩ | ⟨e, -⟩ | ⟨e, h1, h2, h3⟩ <;> rw [e] at h
    · exact .inl (failedInto_of_raise (by decide) h)
    · exact .inl (failedInto_of_raise (by decide) h)
    · exact .inl (failedInto_of_raise (by decide) h)
    · exact .inr ⟨hp, h1, h2, h3, (Host.Outcome.next.inj h).symm⟩

/-- KRD (rule R120). -/
theorem execKrd_next {ksel : KSel} {n : Nat} {s t : State} (h : execKrd ksel n s = .next t) :
    s.FailedInto t ∨ (s.port = .cp ∧ ∃ rw, t = s.respond .ok rw) := by
  rcases onPort_cases h with ⟨-, rfl⟩ | ⟨hp, h⟩
  · exact .inl (failedInto_illegal s)
  · split at h
    · exact .inl (failedInto_of_raise (by decide) h)
    split at h
    · exact .inl (failedInto_of_raise (by decide) h)
    split at h
    · exact .inl (failedInto_of_raise (by decide) h)
    split at h
    · cases h
    · exact .inr ⟨hp, _, (Host.Outcome.next.inj h).symm⟩

/-- BLOCK (rule R137): it answers OK, or starts a rebuild and holds the port. -/
theorem execBlock_next {s t : State} (h : execBlock s = .next t) :
    s.FailedInto t ∨ (s.port = .ap ∧ ∃ rw, t = s.respond .ok rw) ∨
      (s.port = .ap ∧ s.configured = true ∧ s.isUpdating = false ∧ s.gainsDirty = true ∧
        t = { s.claim with apWait := true }) := by
  rcases onPort_cases h with ⟨-, rfl⟩ | ⟨hp, h⟩
  · exact .inl (failedInto_illegal s)
  · split at h
    · exact .inr (.inl ⟨hp, _, (Host.Outcome.next.inj h).symm⟩)
    · rcases rebuildRequest_cases false s with ⟨e, -⟩ | ⟨e, -⟩ | ⟨e, -⟩ | ⟨e, h1, h2, h3⟩ <;> rw [e] at h
      · exact .inr (.inl ⟨hp, _, (Host.Outcome.next.inj h).symm⟩)
      · exact .inr (.inl ⟨hp, _, (Host.Outcome.next.inj h).symm⟩)
      · exact .inr (.inl ⟨hp, _, (Host.Outcome.next.inj h).symm⟩)
      · exact .inr (.inr ⟨hp, h1, h2, h3.resolve_left nofun, (Host.Outcome.next.inj h).symm⟩)

/-- PROC (rules R130 to R132). -/
theorem execProc_next {ch : Nat} {x : Word} {s t : State} (h : execProc ch x s = .next t) :
    s.FailedInto t ∨ (s.port = .ap ∧ ∃ rw, t = s.respond .ok rw) ∨
      (s.port = .ap ∧ ch < s.nchan ∧ (s.channel ch).kref.valid = true ∧ ∃ rw,
        t = (s.setChannel ch { s.channel ch with
          hist := (s.channel ch).hist.write (s.channel ch).cur (cellOf s.params.sampleWidth x),
          cur := nextCursor s.params.numTaps (s.channel ch).cur }).respond .ok rw) := by
  rcases onPort_cases h with ⟨-, rfl⟩ | ⟨hp, h⟩
  · exact .inl (failedInto_illegal s)
  · dsimp only at h
    split at h
    · exact .inl (failedInto_of_raise (by decide) h)
    · next h1 =>
      split at h
      · exact .inr (.inl ⟨hp, _, (Host.Outcome.next.inj h).symm⟩)
      · next h2 =>
        split at h
        · cases h
        · exact .inr (.inr ⟨hp, Nat.not_le.mp h1, (Bool.not_eq_false _).mp h2, _, (Host.Outcome.next.inj h).symm⟩)

/-- Every command either completes with an answer, and then a failing one has had no effect, or is the BLOCK that
holds the audio port. Ports, turns, parameters, the position of the engine's free values and the committed gains are
never touched but for the answer. -/
theorem exec_cases {i : Instr} {s t : State} (h : exec i s = .next t) :
    (∃ st rw u, t = State.respond u st rw ∧ (st ≠ .ok → rw = 0 ∧ u = s) ∧ u.cp = s.cp ∧ u.ap = s.ap ∧
      u.port = s.port ∧ u.turns = s.turns ∧ u.params = s.params ∧ u.freeCount = s.freeCount) ∨
    (i = .block ∧ s.port = .ap ∧ s.configured = true ∧ s.isUpdating = false ∧ s.gainsDirty = true ∧
      t = { s.claim with apWait := true }) := by
  have fail : s.FailedInto t → ∃ st rw u, t = State.respond u st rw ∧ (st ≠ .ok → rw = 0 ∧ u = s) ∧ u.cp = s.cp ∧
      u.ap = s.ap ∧ u.port = s.port ∧ u.turns = s.turns ∧ u.params = s.params ∧ u.freeCount = s.freeCount :=
    fun ⟨st, _, e⟩ => ⟨st, 0, s, e, fun _ => ⟨rfl, rfl⟩, rfl, rfl, rfl, rfl, rfl, rfl⟩
  cases i with
  | nop => exact .inl ⟨_, _, s, execNop_next h, fun e => absurd rfl e, rfl, rfl, rfl, rfl, rfl, rfl⟩
  | begin_ nch sr =>
    rcases execBegin_next h with h | ⟨-, -, -, -, -, h⟩
    · exact .inl (fail h)
    · exact .inl ⟨_, _, _, h, fun e => absurd rfl e, rfl, rfl, rfl, rfl, rfl, rfl⟩
  | end_ =>
    rcases execEnd_next h with h | ⟨-, -, h⟩
    · exact .inl (fail h)
    · exact .inl ⟨_, _, _, h, fun e => absurd rfl e, rfl, rfl, rfl, rfl, rfl, rfl⟩
  | setg n g =>
    rcases execSetg_next h with h | ⟨-, -, -, h⟩
    · exact .inl (fail h)
    · exact .inl ⟨_, _, _, h, fun e => absurd rfl e, rfl, rfl, rfl, rfl, rfl, rfl⟩
  | setgn n v =>
    rcases execSetgn_next h with h | ⟨-, -, -, h⟩
    · exact .inl (fail h)
    · exact .inl ⟨_, _, _, h, fun e => absurd rfl e, rfl, rfl, rfl, rfl, rfl, rfl⟩
  | getg sel n =>
    rcases execGetg_next h with h | ⟨-, rw, h⟩
    · exact .inl (fail h)
    · exact .inl ⟨_, _, _, h, fun e => absurd rfl e, rfl, rfl, rfl, rfl, rfl, rfl⟩
  | getf n =>
    rcases execGetf_next h with h | ⟨-, rw, h⟩
    · exact .inl (fail h)
    · exact .inl ⟨_, _, _, h, fun e => absurd rfl e, rfl, rfl, rfl, rfl, rfl, rfl⟩
  | update force =>
    rcases execUpdate_next h with h | ⟨-, -, -, -, h⟩
    · exact .inl (fail h)
    · exact .inl ⟨_, _, _, h, fun e => absurd rfl e, rfl, rfl, rfl, rfl, rfl, rfl⟩
  | setauto en =>
    rcases execSetauto_next h with h | ⟨-, h⟩
    · exact .inl (fail h)
    · exact .inl ⟨_, _, _, h, fun e => absurd rfl e, rfl, rfl, rfl, rfl, rfl, rfl⟩
  | rdcsr r =>
    rcases execRdcsr_next h with h | ⟨-, rw, h⟩
    · exact .inl (fail h)
    · exact .inl ⟨_, _, _, h, fun e => absurd rfl e, rfl, rfl, rfl, rfl, rfl, rfl⟩
  | krd ksel n =>
    rcases execKrd_next h with h | ⟨-, rw, h⟩
    · exact .inl (fail h)
    · exact .inl ⟨_, _, _, h, fun e => absurd rfl e, rfl, rfl, rfl, rfl, rfl, rfl⟩
  | block =>
    rcases execBlock_next h with h | ⟨-, rw, h⟩ | ⟨h1, h2, h3, h4, h5⟩
    · exact .inl (fail h)
    · exact .inl ⟨_, _, _, h, fun e => absurd rfl e, rfl, rfl, rfl, rfl, rfl, rfl⟩
    · exact .inr ⟨rfl, h1, h2, h3, h4, h5⟩
  | proc ch x =>
    rcases execProc_next h with h | ⟨-, rw, h⟩ | ⟨-, -, -, rw, h⟩
    · exact .inl (fail h)
    · exact .inl ⟨_, _, _, h, fun e => absurd rfl e, rfl, rfl, rfl, rfl, rfl, rfl⟩
    · exact .inl ⟨_, _, _, h, fun e => absurd rfl e, rfl, rfl, rfl, rfl, rfl, rfl⟩

/-! ### One step -/

/-- What a port agent's move can be: nothing to present, an illegal word, or a command executed. -/
theorem runPort_next {p : PortId} {s t : State} (h : runPort p s = .next t) :
    t = s ∨ ∃ c u, s.fetch p = some (c, u) ∧
      (t = u.respond .errIllegal 0 ∨ ∃ i, decodeCommand c.cw c.aw = .ok i ∧ exec i u = .next t) := by
  rw [runPort] at h
  split at h
  · exact .inl (Host.Outcome.next.inj h).symm
  · next c u hf =>
    refine .inr ⟨c, u, hf, ?_⟩
    split at h
    · exact .inl (Host.Outcome.next.inj h).symm
    · next i hi => exact .inr ⟨i, hi, h⟩

/-- Taking a turn changes only the schedule and the count of free values drawn. -/
theorem nextTurn_state (s : State) : ∃ ts n, s.nextTurn.2 = { s with turns := ts, freeCount := n } := by
  rw [State.nextTurn]
  split
  · next ts h => exact ⟨ts, s.freeCount, rfl⟩
  · exact ⟨s.turns, s.freeCount + 1, rfl⟩

/-- Fetching a command changes only that port's queue and the port being served. -/
theorem fetch_state {s u : State} {p : PortId} {c : Command} (h : s.fetch p = some (c, u)) :
    ∃ a b, u = { s with cp := { s.cp with pending := a }, ap := { s.ap with pending := b }, port := p } := by
  rcases s.fetch_cases p with ⟨h0, -⟩ | ⟨c', cs, -, h1⟩
  · rw [h0] at h; cases h
  · rw [h1] at h
    cases p
    · cases h; exact ⟨cs, s.ap.pending, rfl⟩
    · cases h; exact ⟨s.cp.pending, cs, rfl⟩

/-- What a step can be: a turn passed, an illegal word answered, a command executed, an engine step, or a reset. -/
theorem step_cases {s t : State} (h : step s = .next t) :
    t = s.nextTurn.2 ∨
    (∃ p c u, (s.nextTurn.1 = .cp ∧ p = PortId.cp ∨ s.nextTurn.1 = .ap ∧ p = PortId.ap ∧ s.apWait = false) ∧
      s.nextTurn.2.fetch p = some (c, u) ∧
      (t = u.respond .errIllegal 0 ∨ ∃ i, decodeCommand c.cw c.aw = .ok i ∧ exec i u = .next t)) ∨
    (s.nextTurn.1 = .eng ∧ t = s.nextTurn.2.engineStep) ∨
    (s.nextTurn.1 = .reset ∧ t = s.nextTurn.2.resetEvent) := by
  have hw : s.nextTurn.2.apWait = s.apWait := by
    obtain ⟨ts, n, e⟩ := nextTurn_state s
    rw [e]
  rw [step] at h
  split at h
  · next u e =>
    rw [e]
    rcases runPort_next h with h | ⟨c, v, h1, h2⟩
    · exact .inl h
    · exact .inr (.inl ⟨.cp, c, v, .inl ⟨rfl, rfl⟩, h1, h2⟩)
  · next u e =>
    rw [e] at hw ⊢
    split at h
    · exact .inl (Host.Outcome.next.inj h).symm
    · next hn =>
      rcases runPort_next h with h | ⟨c, v, h1, h2⟩
      · exact .inl h
      · exact .inr (.inl ⟨.ap, c, v, .inr ⟨rfl, rfl, hw ▸ Bool.eq_false_iff.mpr hn⟩, h1, h2⟩)
  · next u e => rw [e]; exact .inr (.inr (.inl ⟨rfl, (Host.Outcome.next.inj h).symm⟩))
  · next u e => rw [e]; exact .inr (.inr (.inr ⟨rfl, (Host.Outcome.next.inj h).symm⟩))

end Sys2Proof.Machine
end

