-- ==== Sys2Proof/Laws/Float.lean ====
section
/-! SUPPORT. What the clamp of a gain gives for every sound numerics record, and that the decision value of `NUM` is
sound: an instance built with it, with rule R5's sizes and the decision value of `MAG_EPS`, is legal. -/

namespace Sys2Proof.Machine

/-! ### The clamp, for every sound record -/

section
variable {F : Type} {num : Num F} {val : F → EReal}

/-- Between two values that are no NaN, `<` is the converse of the failure of `<=` (rule R91). -/
theorem flt_eq_not_fle (hs : num.Sound val) {a b : F} (ha : num.isNaN a = false) (hb : num.isNaN b = false) :
    num.flt a b = !num.fle b a := by
  rw [Bool.eq_iff_iff, hs.lt_iff a b ha hb, Bool.not_eq_true', Bool.eq_false_iff, ne_eq, hs.le_iff b a hb ha, not_le]

theorem fle_refl (hs : num.Sound val) {a : F} (h : num.isNaN a = false) : num.fle a a = true :=
  (hs.le_iff a a h h).mpr le_rfl

/-- The clamp, as its three cases (rule R154). -/
theorem gclamp_cases (num : Num F) (g : F) :
    (num.flt g (num.fconst (-90) 1) = true ∧ gclamp num g = num.fconst (-90) 1) ∨
    (num.flt g (num.fconst (-90) 1) = false ∧ num.flt (num.fconst 12 1) g = true ∧ gclamp num g = num.fconst 12 1) ∨
    (num.flt g (num.fconst (-90) 1) = false ∧ num.flt (num.fconst 12 1) g = false ∧ gclamp num g = g) := by
  unfold gclamp
  cases h1 : num.flt g (num.fconst (-90) 1)
  · cases h2 : num.flt (num.fconst 12 1) g
    · exact .inr (.inr ⟨rfl, rfl, rfl⟩)
    · exact .inr (.inl ⟨rfl, rfl, rfl⟩)
  · exact .inl ⟨rfl, rfl⟩

theorem fle_notNaN_left (hs : num.Sound val) {a b : F} (h : num.fle a b = true) : num.isNaN a = false := by
  by_contra hc
  rw [(hs.nan_false a b (.inl (by simpa using hc))).2] at h
  cases h

theorem fle_notNaN_right (hs : num.Sound val) {a b : F} (h : num.fle a b = true) : num.isNaN b = false := by
  by_contra hc
  rw [(hs.nan_false a b (.inr (by simpa using hc))).2] at h
  cases h

theorem fle_trans (hs : num.Sound val) {a b c : F} (h1 : num.fle a b = true) (h2 : num.fle b c = true) :
    num.fle a c = true := by
  have ha := fle_notNaN_left hs h1
  have hb := fle_notNaN_left hs h2
  have hc := fle_notNaN_right hs h2
  exact (hs.le_iff a c ha hc).mpr (((hs.le_iff a b ha hb).mp h1).trans ((hs.le_iff b c hb hc).mp h2))

theorem gainInRange_iff (num : Num F) (g : F) :
    gainInRange num g = true ↔ num.fle (num.fconst (-90) 1) g = true ∧ num.fle g (num.fconst 12 1) = true := by
  simp [gainInRange]

/-- The clamp brings every value but a NaN into the range of a gain (rule R13). -/
theorem gainInRange_gclamp (hs : num.Sound val) {g : F} (h : num.isNaN g = false) :
    gainInRange num (gclamp num g) = true := by
  obtain ⟨h0, h1⟩ := (gainInRange_iff num _).mp hs.zero_in_range
  have lo := fle_notNaN_left hs h0
  have hi := fle_notNaN_right hs h1
  have hlh := fle_trans hs h0 h1
  rw [gainInRange_iff]
  rcases gclamp_cases num g with ⟨-, he⟩ | ⟨-, -, he⟩ | ⟨e1, e2, he⟩ <;> rw [he]
  · exact ⟨fle_refl hs lo, hlh⟩
  · exact ⟨hlh, fle_refl hs hi⟩
  · rw [flt_eq_not_fle hs h lo] at e1
    rw [flt_eq_not_fle hs hi h] at e2
    exact ⟨by simpa using e1, by simpa using e2⟩

/-- The image of a normalised value is a NaN only if the value is (rule R155). -/
theorem normalisedGain_notNaN (hs : num.Sound val) {v : F} (h : num.isNaN v = false) :
    num.isNaN (normalisedGain num v) = false := by
  unfold normalisedGain
  split
  · exact (hs.image_not_nan v h).1
  · exact (hs.image_not_nan v h).2

end

/-! ### Binary32 -/

/-- A product with a finite value other than zero is a NaN only if the other factor is. -/
theorem isNaN32_fmul32 {a b : F32} (ha : isNaN32 a = false) (hb : isFinite32 b = true) (h0 : isZero32 b = false) :
    isNaN32 (fmul32 a b) = false := by
  have hbn := isNaN32_of_finite hb
  have hbi := isInf32_of_finite hb
  simp only [fmul32, ha, hbn, hbi, h0, Bool.or_false, Bool.false_eq_true, if_false]
  split
  · next h =>
    have : isZero32 a = false := by simp_all [isInf32, isZero32]
    simp [this]
  · exact isNaN32_roundRatio _ _ _

/-- An integer of at most 24 bits is exact. -/
theorem roundRatio_exact (neg : Bool) {n : Nat} (h : n < 2 ^ 24) :
    isFinite32 (roundRatio neg n 1) = true ∧ units32 (roundRatio neg n 1) = n * 2 ^ 149 := by
  obtain ⟨sh, m, hsh, hq1, hq2, hm, -, hfin⟩ := roundRatio_spec neg n 1
  rw [Nat.div_one] at hsh
  simp only [Nat.one_mul] at hq1 hq2 hm
  have hs : sh ≤ 149 := by
    by_cases h0 : n = 0
    · subst h0; simp at hsh; omega
    · have : Nat.log2 (n * 2 ^ 149) < 173 := (Nat.log2_lt (by positivity)).mpr
        (lt_of_lt_of_le (Nat.mul_lt_mul_of_pos_right h (by positivity)) (by norm_num))
      omega
  have hx : n * 2 ^ 149 = n * 2 ^ (149 - sh) * 2 ^ sh := by rw [Nat.mul_assoc, ← pow_add]; congr 2; omega
  have hmq : m = n * 2 ^ (149 - sh) := by
    rw [hm, hx, Nat.mul_mod_left, Nat.mul_div_cancel _ (by positivity), if_neg]
    have hp : 0 < 2 ^ sh := by positivity
    simp only [roundsUp, Nat.mul_zero, Bool.or_eq_true, decide_eq_true_eq, Bool.and_eq_true]
    omega
  have hm1 : m ≤ 2 ^ 24 := by rw [hm]; split <;> omega
  obtain ⟨-, h1, h2⟩ := hfin (by omega)
  exact ⟨h1, by rw [h2, hmq, ← hx]⟩

/-- Integers of at most 24 bits are exact (rule R91). -/
theorem ofInt32_exact {k : Int} (h : k.natAbs < 2 ^ 24) :
    isFinite32 (ofInt32 k) = true ∧ signedUnits32 (ofInt32 k) = k * 2 ^ 149 := by
  obtain ⟨h1, h2⟩ := roundRatio_exact (decide (k < 0)) h
  refine ⟨h1, ?_⟩
  rw [signedUnits32, ofInt32, fconst32, sign32_roundRatio, h2]
  by_cases hk : k < 0 <;> simp only [hk, decide_true, decide_false, if_true, if_false, Bool.false_eq_true] <;>
    omega

/-- The arithmetic of rounding: `v` is the multiple of `d` that lies nearest to `u`, the greater one at a tie. -/
theorem nearest_multiple {u v d : Int} (hd : 0 < d) (h0 : 0 ≤ u) (h1 : 2 * v ≤ 2 * u + d)
    (h2 : 2 * u + d < 2 * v + 2 * d) :
    2 * |u - v| ≤ d ∧ (2 * |u - v| = d → |u| < |v|) := by
  rcases abs_cases (u - v) with ⟨e, _⟩ | ⟨e, _⟩ <;> rcases abs_cases v with ⟨e', _⟩ | ⟨e', _⟩ <;>
    rw [e, e', abs_of_nonneg h0] <;> omega

/-- Rounding a finite value to an integer (rule R90): the nearest one, ties away from zero, in units of 2^-149. -/
theorem fround32_spec {a : F32} (h : isFinite32 a = true) : ∃ k : Int, fround32 a = .int k ∧
    2 * |signedUnits32 a - k * 2 ^ 149| ≤ 2 ^ 149 ∧
    (2 * |signedUnits32 a - k * 2 ^ 149| = 2 ^ 149 → |signedUnits32 a| < |k * 2 ^ 149|) := by
  obtain ⟨m, hm⟩ : ∃ m, m = (2 * units32 a + 2 ^ 149) / (2 * 2 ^ 149) := ⟨_, rfl⟩
  have hk : fround32 a = .int (if sign32 a then -m else m) := by
    simp only [fround32, isNaN32_of_finite h, isInf32_of_finite h, Bool.false_eq_true, if_false, hm]
  have hn := nearest_multiple (u := units32 a) (v := m * 2 ^ 149) (d := 2 ^ 149) (by decide) (by omega) (by omega)
    (by omega)
  refine ⟨_, hk, ?_⟩
  unfold signedUnits32
  cases sign32 a
  · simpa only [Bool.false_eq_true, if_false] using hn
  · simp only [if_true]
    rw [show -(units32 a : Int) - -(m : Int) * 2 ^ 149 = -((units32 a : Int) - m * 2 ^ 149) by ring, abs_neg, abs_neg,
      neg_mul, abs_neg]
    exact hn

/-! ### The decision value of `NUM` -/

/-- The extended real number a binary32 float stands for, if it is no NaN. -/
noncomputable def val32 (a : Flt) : EReal := value32 a.bits

theorem val32_finite {a : Flt} (h : isFinite32 a.bits = true) :
    val32 a = ((signedUnits32 a.bits / 2 ^ 149 : ℝ) : EReal) := by
  rw [val32, value32, isInf32_of_finite h]; rfl

theorem val32_eq {a : Flt} {k : Int} (hf : isFinite32 a.bits = true) (h : signedUnits32 a.bits = k * 2 ^ 149) :
    val32 a = (k : ℝ) := by
  rw [val32_finite hf, h, Int.cast_mul, Int.cast_pow, Int.cast_ofNat, mul_div_cancel_right₀ _ (by positivity)]

theorem val32_zero {a : Flt} (h : isZero32 a.bits = true) : val32 a = (0 : ℝ) := by
  simp [val32_finite (isZero32_iff.mp h).1, signedUnits32, (isZero32_iff.mp h).2]

/-- The place of a value in the order: that of an infinity is beyond those of the finite values. -/
theorem orderKey32_bounds (a : F32) :
    (isFinite32 a = true → -(255 * 2 ^ 23) < orderKey32 a ∧ orderKey32 a < 255 * 2 ^ 23) ∧
    (isInf32 a = true → orderKey32 a = if sign32 a then -(255 * 2 ^ 23) else 255 * 2 ^ 23) := by
  have hl := low32_parts a
  have hf := frac32_lt a
  have he := exp32_le a
  constructor <;> intro h
  · have : exp32 a ≠ 255 := by simpa [isFinite32] using h
    simp only [orderKey32, hl]
    split <;> omega
  · have h : exp32 a = 255 ∧ frac32 a = 0 := by simpa [isInf32] using h
    simp only [orderKey32, hl]
    split <;> omega

/-- What is no NaN is finite or an infinity. -/
theorem isInf32_of_notNaN {a : F32} (h : isNaN32 a = false) (hf : isFinite32 a = false) : isInf32 a = true := by
  simp_all [isNaN32, isFinite32, isInf32]

/-- `<=` is the usual order on everything but NaNs, infinities among it (rule R91). -/
theorem fle32_iff_val32 {a b : Flt} (ha : isNaN32 a.bits = false) (hb : isNaN32 b.bits = false) :
    fle32 a.bits b.bits = true ↔ val32 a ≤ val32 b := by
  have hp : (0 : ℝ) < 2 ^ 149 := by positivity
  obtain ⟨fa, ia⟩ := orderKey32_bounds a.bits
  obtain ⟨fb, ib⟩ := orderKey32_bounds b.bits
  have hk : fle32 a.bits b.bits = true ↔ orderKey32 a.bits ≤ orderKey32 b.bits := by simp [fle32, ha, hb]
  cases ea : isFinite32 a.bits <;> cases eb : isFinite32 b.bits
  · have ja := isInf32_of_notNaN ha ea
    have jb := isInf32_of_notNaN hb eb
    rw [hk, ia ja, ib jb, val32, val32, value32, value32, if_pos ja, if_pos jb]
    cases sign32 a.bits <;> cases sign32 b.bits <;> simp
  · have ja := isInf32_of_notNaN ha ea
    have h := fb eb
    rw [hk, ia ja, val32_finite eb, val32, value32, if_pos ja]
    cases sign32 a.bits
    · simp only [Bool.false_eq_true, if_false, top_le_iff, EReal.coe_ne_top, iff_false]; omega
    · simp only [if_true, bot_le, iff_true]; omega
  · have jb := isInf32_of_notNaN hb eb
    have h := fa ea
    rw [hk, ib jb, val32_finite ea, val32, value32, if_pos jb]
    cases sign32 b.bits
    · simp only [Bool.false_eq_true, if_false, le_top, iff_true]; omega
    · simp only [if_true, le_bot_iff, EReal.coe_ne_bot, iff_false]; omega
  · rw [fle32_iff ha hb, val32_finite ea, val32_finite eb, EReal.coe_le_coe_iff, div_le_div_iff_of_pos_right hp,
      Int.cast_le]

theorem coded_isFinite (f : OpenFns) (a : Flt) : (binary32 f).coded.isFinite a = isFinite32 a.bits := rfl
theorem coded_fconst (f : OpenFns) (k : Int) (d : Nat) : ((binary32 f).coded.fconst k d).bits = fconst32 k d :=
  Flt.bits_ofBits _
theorem coded_ofInt (f : OpenFns) (k : Int) : ((binary32 f).coded.ofInt k).bits = ofInt32 k := Flt.bits_ofBits _
theorem coded_fmul (f : OpenFns) (a b : Flt) : ((binary32 f).coded.fmul a b).bits = fmul32 a.bits b.bits :=
  Flt.bits_ofBits _
theorem coded_fadd (f : OpenFns) (a b : Flt) : ((binary32 f).coded.fadd a b).bits = fadd32 a.bits b.bits :=
  Flt.bits_ofBits _

/-- Binary32 is sound, whatever stands in the open places (rules R90 and R91). -/
theorem binary32_sound (f : OpenFns) : (binary32 f).coded.Sound val32 where
  finite_not_nan _ h := isNaN32_of_finite h
  nan_false a b h := by
    show flt32 a.bits b.bits = false ∧ fle32 a.bits b.bits = false
    rcases h with h | h <;> (have h : isNaN32 _ = true := h) <;> simp [flt32, fle32, h]
  finite_iff a ha := by
    have e : (binary32 f).coded.isFinite a = isFinite32 a.bits := rfl
    rw [e]
    cases h : isFinite32 a.bits
    · rw [val32, value32, if_pos (isInf32_of_notNaN ha h)]
      cases sign32 a.bits <;> simp
    · simp [val32_finite h]
  lt_iff a b ha hb := by
    show flt32 a.bits b.bits = true ↔ _
    rw [flt32_eq_not_fle32 ha hb, Bool.not_eq_true', Bool.eq_false_iff, ne_eq, fle32_iff_val32 hb ha, not_le]
  le_iff a b ha hb := fle32_iff_val32 ha hb
  literal_exact k hk := by
    have hf : ∀ k ∈ [0, 1, 2, 4, 20, 32767], isFinite32 (fconst32 k 1) = true ∧
        signedUnits32 (fconst32 k 1) = k * 2 ^ 149 := by decide +kernel
    rw [coded_isFinite, coded_fconst]
    exact ⟨(hf k hk).1, val32_eq (by rw [coded_fconst]; exact (hf k hk).1) (by rw [coded_fconst]; exact (hf k hk).2)⟩
  int_exact k hk := by
    have hf := ofInt32_exact (k := k) (by rw [abs_le] at hk; omega)
    rw [coded_isFinite, coded_ofInt]
    exact ⟨hf.1, val32_eq (by rw [coded_ofInt]; exact hf.1) (by rw [coded_ofInt]; exact hf.2)⟩
  full_scale := by
    rw [coded_isFinite, coded_fmul, coded_fconst, coded_fconst]
    refine ⟨by decide +kernel, ?_⟩
    rw [val32_eq (k := 32767) (by rw [coded_fmul, coded_fconst, coded_fconst]; decide +kernel)
      (by rw [coded_fmul, coded_fconst, coded_fconst]; decide +kernel)]
    norm_num
  zero_mul x hx := by
    have z : isZero32 ((binary32 f).coded.fmul ((binary32 f).coded.fconst 0 1) x).bits = true := by
      rw [coded_fmul, coded_fconst]; exact isZero32_fmul32 (.inl ⟨by decide +kernel, hx⟩)
    exact ⟨(isZero32_iff.mp z).1, val32_zero z⟩
  zero_add := by
    have z : isZero32 ((binary32 f).coded.fadd ((binary32 f).coded.fconst 0 1) ((binary32 f).coded.fconst 0 1)).bits =
        true := by
      rw [coded_fadd, coded_fconst]; decide +kernel
    exact ⟨(isZero32_iff.mp z).1, val32_zero z⟩
  round_nearest a ha := by
    obtain ⟨k, h0, h1, h2⟩ := fround32_spec ha
    have hp : (0 : ℝ) < 2 ^ 149 := by positivity
    have ev : (val32 a).toReal = signedUnits32 a.bits / 2 ^ 149 := by rw [val32_finite ha, EReal.toReal_coe]
    have e : (val32 a).toReal - k = ((signedUnits32 a.bits - k * 2 ^ 149 : Int) : ℝ) / 2 ^ 149 := by
      rw [ev, Int.cast_sub, Int.cast_mul, Int.cast_pow, Int.cast_ofNat, sub_div,
        mul_div_cancel_right₀ _ (by positivity)]
    have e1 : |(val32 a).toReal - k| = ((|signedUnits32 a.bits - k * 2 ^ 149| : Int) : ℝ) / 2 ^ 149 := by
      rw [e, abs_div, abs_of_pos hp, Int.cast_abs]
    refine ⟨k, h0, ?_, fun h => ?_⟩
    · rw [e1, div_le_div_iff₀ hp (by norm_num), mul_comm]
      exact_mod_cast h1
    · rw [e1, div_eq_div_iff hp.ne' (by norm_num), mul_comm] at h
      have h3 := h2 (by exact_mod_cast h)
      rw [ev, abs_div, abs_of_pos hp, div_lt_iff₀ hp, ← Int.cast_abs, ← Int.cast_abs]
      rw [abs_mul, abs_of_pos (by positivity : (0 : Int) < 2 ^ 149)] at h3
      exact_mod_cast h3
  round_infinite a ha := by
    have e : (binary32 f).coded.fround a = fround32 a.bits := rfl
    rw [e]
    cases h : isFinite32 a.bits
    · have hi := isInf32_of_notNaN ha h
      rw [val32, value32, if_pos hi, fround32, show isNaN32 a.bits = false from ha, hi]
      cases sign32 a.bits <;> simp
    · simp [val32_finite h]
  round_nan a ha := by
    show fround32 a.bits = .nan
    rw [fround32, show isNaN32 a.bits = true from ha]; rfl
  zero_in_range := by
    have e : ∀ a b, (binary32 f).coded.fle a b = fle32 a.bits b.bits := fun _ _ => rfl
    rw [gainInRange, e, e, coded_fconst, coded_fconst, coded_fconst]
    decide +kernel
  zero_negligible := by
    have e : ∀ a b, (binary32 f).coded.flt a b = flt32 a.bits b.bits := fun _ _ => rfl
    have e' : ((binary32 f).coded.fabs ((binary32 f).coded.fconst 0 1)).bits =
        fabs32 ((binary32 f).coded.fconst 0 1).bits := Flt.bits_ofBits _
    rw [negligible, e, e', coded_fconst, coded_fconst]
    decide +kernel
  image_not_nan v hv := by
    have e : ∀ a, (binary32 f).coded.isNaN a = isNaN32 a.bits := fun _ => rfl
    rw [e, e, coded_fmul, coded_fmul, coded_fconst, coded_fconst]
    exact ⟨isNaN32_fmul32 hv (by decide +kernel) (by decide +kernel),
      isNaN32_fmul32 hv (by decide +kernel) (by decide +kernel)⟩

/-- An instance of legal sizes, built with the decision values of `NUM` and `MAG_EPS`, is legal. -/
theorem legal_of_binary32 {p : Params} (hp : p.Sizes) (hn : p.numerics = .binary32) (h1 : p.magEpsNum = 1)
    (h2 : p.magEpsDen = 1000000000) : p.Legal := by
  have e : p.num = (binary32 Config.openFns.fns).coded := by simp only [Params.num, hn]
  exact ⟨hp, ⟨val32, by rw [e]; exact binary32_sound _⟩, by rw [e]; exact Config.openFns.staysFinite p hp h1 h2⟩

end Sys2Proof.Machine
end

