-- ==== Sys2Proof/Laws/PerInstr.lean ====
section
/-! SUPPORT. A statement about every operation, one lemma per constructor: its encoded word selects the operation's own
row of rule R63. -/

namespace Sys2Proof.Laws.Encoding

/-- The row of rule R63 with the operation's mnemonic selects its encoded word. -/
def Statement (i : Instr) : Prop :=
  i.wellFormed = true → ∃ r ∈ opTable, r.mnemonic = i.mnemonic ∧ r.selects (encode i).cw = true

theorem nop : Statement .nop := fun _ =>
  ⟨⟨"NOP", 0x00000000, 0xFFFFFFFF⟩, by decide, rfl,
    (selects_iff_fields (opc := 0) (fnBits := 0) (ix := false) _ (by decide) (by decide) (by decide) (by decide)
      (by decide)).mpr (by simp [encode])⟩

theorem begin_ (nch : Nat) (sr : Word) : Statement (.begin_ nch sr) := fun _ =>
  ⟨⟨"BEGIN", 0x10000000, 0xFFFF0000⟩, by decide, rfl,
    (selects_iff_fields (opc := 1) (fnBits := 0) (ix := true) _ (by decide) (by decide) (by decide) (by decide)
      (by decide)).mpr (by simp [encode])⟩

theorem end_ : Statement .end_ := fun _ =>
  ⟨⟨"END", 0x20000000, 0xFFFFFFFF⟩, by decide, rfl,
    (selects_iff_fields (opc := 2) (fnBits := 0) (ix := false) _ (by decide) (by decide) (by decide) (by decide)
      (by decide)).mpr (by simp [encode])⟩

theorem setg (n : Nat) (g : Word) : Statement (.setg n g) := fun _ =>
  ⟨⟨"SETG", 0x30000000, 0xFFFF0000⟩, by decide, rfl,
    (selects_iff_fields (opc := 3) (fnBits := 0) (ix := true) _ (by decide) (by decide) (by decide) (by decide)
      (by decide)).mpr (by simp [encode])⟩

theorem setgn (n : Nat) (v : Word) : Statement (.setgn n v) := fun _ =>
  ⟨⟨"SETGN", 0x40000000, 0xFFFF0000⟩, by decide, rfl,
    (selects_iff_fields (opc := 4) (fnBits := 0) (ix := true) _ (by decide) (by decide) (by decide) (by decide)
      (by decide)).mpr (by simp [encode])⟩

theorem getg (sel : Bool) (n : Nat) : Statement (.getg sel n) := fun _ =>
  ⟨⟨"GETG", 0x50000000, 0xFEFF0000⟩, by decide, rfl,
    (selects_iff_fields (opc := 5) (fnBits := 1) (ix := true) _ (by decide) (by decide) (by decide) (by decide)
      (by decide)).mpr (by simp [encode])⟩

theorem getf (n : Nat) : Statement (.getf n) := fun _ =>
  ⟨⟨"GETF", 0x60000000, 0xFFFF0000⟩, by decide, rfl,
    (selects_iff_fields (opc := 6) (fnBits := 0) (ix := true) _ (by decide) (by decide) (by decide) (by decide)
      (by decide)).mpr (by simp [encode])⟩

theorem update (force : Bool) : Statement (.update force) := fun _ =>
  ⟨⟨"UPDATE", 0x70000000, 0xFEFFFFFF⟩, by decide, rfl,
    (selects_iff_fields (opc := 7) (fnBits := 1) (ix := false) _ (by decide) (by decide) (by decide) (by decide)
      (by decide)).mpr (by simp [encode])⟩

theorem setauto (en : Bool) : Statement (.setauto en) := fun _ =>
  ⟨⟨"SETAUTO", 0x80000000, 0xFEFFFFFF⟩, by decide, rfl,
    (selects_iff_fields (opc := 8) (fnBits := 1) (ix := false) _ (by decide) (by decide) (by decide) (by decide)
      (by decide)).mpr (by simp [encode])⟩

theorem rdcsr (r : Nat) : Statement (.rdcsr r) := fun _ =>
  ⟨⟨"RDCSR", 0x90000000, 0xFFFF0000⟩, by decide, rfl,
    (selects_iff_fields (opc := 9) (fnBits := 0) (ix := true) _ (by decide) (by decide) (by decide) (by decide)
      (by decide)).mpr (by simp [encode])⟩

theorem krd (ksel : KSel) (n : Nat) : Statement (.krd ksel n) := fun _ =>
  ⟨⟨"KRD", 0xA0000000, 0xFCFF0000⟩, by decide, rfl,
    (selects_iff_fields (opc := 10) (fnBits := 3) (ix := true) _ (by decide) (by decide) (by decide) (by decide)
      (by decide)).mpr (by simp [encode])⟩

theorem block : Statement .block := fun _ =>
  ⟨⟨"BLOCK", 0xC0000000, 0xFFFFFFFF⟩, by decide, rfl,
    (selects_iff_fields (opc := 12) (fnBits := 0) (ix := false) _ (by decide) (by decide) (by decide) (by decide)
      (by decide)).mpr (by simp [encode])⟩

theorem proc (ch : Nat) (x : Word) : Statement (.proc ch x) := fun _ =>
  ⟨⟨"PROC", 0xD0000000, 0xFFFF0000⟩, by decide, rfl,
    (selects_iff_fields (opc := 13) (fnBits := 0) (ix := true) _ (by decide) (by decide) (by decide) (by decide)
      (by decide)).mpr (by simp [encode])⟩

end Sys2Proof.Laws.Encoding
end

