-- ==== Sys2Proof/Machine/Assembler.lean ====
section
/-! DEFINITION. The text form of rule R72 as tokens, and the pseudo-instructions of rule R73. Cutting a line into
tokens is left out (log 21). -/

namespace Sys2Proof.Machine

/-- An operand of the text form: an integer, a float `num / den` written as a decimal, or a name. -/
inductive AsmArg where
  | int (k : Int)
  | dec (num : Int) (den : Nat)
  | name (s : String)
  deriving DecidableEq, Repr

/-- An integer operand as an index: it must fit `IDX` (rule R62). That one which does not is refused is a DESIGN CHOICE
(log 21): rule R72 says nothing of it. -/
def asmIndex (k : Int) : Option Nat := if 0 ≤ k ∧ k < 65536 then some k.toNat else none

/-- The names RDCSR takes for its register numbers (rules R22 and R72). -/
def asmCsr : AsmArg → Option Nat
  | .int k => asmIndex k
  | .name "STATUS" => some 0
  | .name "SRATE" => some 1
  | .name "NCHAN" => some 2
  | .name "NBANDS" => some 3
  | .name "NTAPS" => some 4
  | .name "SAMPW" => some 5
  | .name "MAXCH" => some 6
  | .name "ACCW" => some 7
  | _ => none

/-- The names KRD takes for its selector (rule R72). -/
def asmKsel : AsmArg → Option KSel
  | .name "ACT" => some .act
  | .name "STG" => some .stg
  | .name "A" => some .bufA
  | .name "B" => some .bufB
  | _ => none

/-- An integer operand as an argument word, in two's complement (rule R72). That one which does not fit 32 bits is taken
modulo 2^32 is a DESIGN CHOICE (log 21): rule R72 says nothing of it. -/
def asmWord (k : Int) : Word := BitVec.ofInt 32 k

/-- The command of a line: mnemonic and operands (rule R72). A float denotes the nearest binary32 value. -/
def asmCommand : String → List AsmArg → Option Instr
  | "NOP", [] => some .nop
  | "BEGIN", [.int sr, .int nch] => (asmIndex nch).map fun n => .begin_ n (asmWord sr)
  | "END", [] => some .end_
  | "SETG", [.int i, .dec num den] => (asmIndex i).map fun n => .setg n (fconst32 num den)
  | "SETGN", [.int i, .dec num den] => (asmIndex i).map fun n => .setgn n (fconst32 num den)
  | "GETG", [.int i] => (asmIndex i).map fun n => .getg false n
  | "GETG.C", [.int i] => (asmIndex i).map fun n => .getg true n
  | "GETF", [.int i] => (asmIndex i).map fun n => .getf n
  | "UPDATE", [] => some (.update false)
  | "UPDATE.F", [] => some (.update true)
  | "UPDATEF", [] => some (.update true)
  | "SETAUTO", [.int 0] => some (.setauto false)
  | "SETAUTO", [.int 1] => some (.setauto true)
  | "RDCSR", [r] => (asmCsr r).map fun n => .rdcsr n
  | "KRD", [k, .int i] =>
    match asmKsel k, asmIndex i with
    | some ksel, some n => some (.krd ksel n)
    | _, _ => none
  | "BLOCK", [] => some .block
  | "PROC", [.int ch, .int x] => (asmIndex ch).map fun n => .proc n (asmWord x)
  | _, _ => none

/-- The port of a line: AP where it is prefixed `ap:`, and for BLOCK and PROC (rule R72). -/
def asmPort (apPrefix : Bool) : Instr → PortId
  | .block => .ap
  | .proc _ _ => .ap
  | _ => if apPrefix then .ap else .cp

/-- One line: the port and the command. -/
def assemble (apPrefix : Bool) (mnemonic : String) (args : List AsmArg) : Option (PortId × Instr) :=
  (asmCommand mnemonic args).map fun i => (asmPort apPrefix i, i)

/-! ### Pseudo-instructions (rule R73) -/

/-- `FRAME x0, x1, ...`: one PROC for each channel, channel 0 first (rule R139). -/
def pseudoFrame (xs : List Word) : List Instr := xs.mapIdx fun ch x => .proc ch x

/-- `SETALL g` on `n` bands. -/
def pseudoSetall (n : Nat) (g : Word) : List Instr := (List.range n).map fun i => .setg i g

/-- `IMPULSE ch, a, k`. -/
def pseudoImpulse (ch : Nat) (a : Word) (k : Nat) : List Instr := .proc ch a :: List.replicate k (.proc ch 0)

/-- `WAITIDLE` repeats this command ... -/
def waitIdlePoll : Instr := .rdcsr 0

/-- ... until its response word passes this test: bit `IS_UPDATING` is 0. -/
def waitIdleDone (rw : Word) : Bool := !rw.getLsbD 1

end Sys2Proof.Machine
end

