-- ==== Sys2Proof/Tests/Slice0.lean ====
section
/-! SUPPORT. Tests: the well-formedness checks, the words of spec/30 and spec/95, one step of each operation with the
results spec/95 gives, and for every statement with hypotheses a state that meets them. -/

namespace Sys2Proof.Tests

open Sys2Proof Sys2Proof.Machine

/-! ### Small states -/

/-- Two bands, four taps, two channels. -/
def small (w : SampleWidth) : Params := ⟨2, 4, w, 80, 2, 1, 1000000000, .binary32⟩

/-- A kernel from its coefficients. -/
def kern (ks : List Int) : Memory 16 := ks.mapIdx fun n k => (n, BitVec.ofInt 16 k)

/-- A ring of 16-bit samples from its entries. -/
def ring (xs : List Int) : Memory 32 := xs.mapIdx fun n x => (n, cellOf .w16 (BitVec.ofInt 32 x))

/-- The kernel of vector V-CNV-1. -/
def cnv : List Int := [16384, -8192, 32767, -32768]

/-- The identity kernel for four taps (rule R24). -/
def ident : List Int := [0, 32767, 0, 0]

/-- A configured machine at rest: buffer A active, both channels assigned to it, all gains 0.0. -/
def live (ka : List Int) (xs : List Int) (cur : Nat) (p : PortId) : State where
  params := small .w16
  bands := (bandPlan (small .w16).num 44100 2).map fun f => ⟨⟨0⟩, ⟨0⟩, f⟩
  win := window (small .w16).num 4
  srate := 44100
  nchan := 2
  isUpdating := false
  gainsDirty := true
  autoUpdate := true
  asel := .bufA
  kmemA := kern ka
  kmemB := kern ident
  channels := [⟨ring xs, cur, ⟨true, .bufA⟩⟩, ⟨ring [0, 0, 0, 0], 0, ⟨true, .bufA⟩⟩]
  phase := .idle
  apWait := false
  port := p
  cp := Port.empty
  ap := Port.empty
  turns := []
  freeCount := 1

/-- The same machine with a rebuild in flight. -/
def busyAt (ph : Phase) (p : PortId) : State :=
  { live ident [0, 0, 0, 0] 0 p with isUpdating := true, phase := ph }

/-- A small machine after reset, on port `p`. -/
def fresh (p : PortId) : State := { State.resetOf (small .w16) 0 with port := p }

/-- A property of the next state, false where there is none. -/
def nextHas (P : State → Bool) : Host.Outcome State Fault Refusal → Bool
  | .next t => P t
  | .fault _ => false
  | .refused _ => false

theorem exists_nextHas {P : State → Bool} {o : Host.Outcome State Fault Refusal} (h : nextHas P o = true) :
    ∃ t, o = .next t ∧ P t = true := by
  cases o with
  | next t => exact ⟨t, rfl, h⟩
  | fault _ => cases h
  | refused _ => cases h

theorem exists_next {o : Host.Outcome State Fault Refusal} (h : nextHas (fun _ => true) o = true) :
    ∃ t, o = .next t := (exists_nextHas h).imp fun _ h => h.1

/-- The newest answer on a port. -/
def lastOn (p : PortId) (t : State) : Option Answer := (t.portOf p).answers.head?

/-! ### Well-formedness: each check refuses an index of 65536 and takes 65535 (rule R62) -/

theorem test_wf_begin : (Instr.begin_ 65536 1).wellFormed = false ∧ (Instr.begin_ 65535 1).wellFormed = true := by decide
theorem test_wf_setg : (Instr.setg 65536 0).wellFormed = false ∧ (Instr.setg 65535 0).wellFormed = true := by decide
theorem test_wf_setgn : (Instr.setgn 65536 0).wellFormed = false ∧ (Instr.setgn 65535 0).wellFormed = true := by decide
theorem test_wf_getg :
    (Instr.getg true 65536).wellFormed = false ∧ (Instr.getg false 65535).wellFormed = true := by decide
theorem test_wf_getf : (Instr.getf 65536).wellFormed = false ∧ (Instr.getf 65535).wellFormed = true := by decide
theorem test_wf_rdcsr : (Instr.rdcsr 65536).wellFormed = false ∧ (Instr.rdcsr 65535).wellFormed = true := by decide
theorem test_wf_krd : (Instr.krd .stg 65536).wellFormed = false ∧ (Instr.krd .act 65535).wellFormed = true := by decide
theorem test_wf_proc : (Instr.proc 65536 0).wellFormed = false ∧ (Instr.proc 65535 0).wellFormed = true := by decide

/-! ### Decoding: words written out bit by bit, `OPC FN RSV IDX` (rules R62 and R63; vectors V-ENC-1 to V-ENC-14) -/

theorem test_decode_nop : decodeCommand 0b00000000000000000000000000000000 0xDEADBEEF = .ok .nop := by decide
theorem test_decode_begin : decodeCommand 0b00010000000000000000000000000010 44100 = .ok (.begin_ 2 44100) := by decide
theorem test_decode_end : decodeCommand 0b00100000000000000000000000000000 0 = .ok .end_ := by decide
theorem test_decode_setg :
    decodeCommand 0b00110000000000000000000000000000 0xC3480000 = .ok (.setg 0 0xC3480000) := by decide
theorem test_decode_setgn :
    decodeCommand 0b01000000000000000000000000000011 0xBF000000 = .ok (.setgn 3 0xBF000000) := by decide
theorem test_decode_getg :
    decodeCommand 0b01010000000000000000000000000000 0 = .ok (.getg false 0) ∧
    decodeCommand 0b01010001000000000000000000001011 0 = .ok (.getg true 11) := by decide
theorem test_decode_getf : decodeCommand 0b01100000000000000000000000001011 0 = .ok (.getf 11) := by decide
theorem test_decode_update :
    decodeCommand 0b01110000000000000000000000000000 0 = .ok (.update false) ∧
    decodeCommand 0b01110001000000000000000000000000 0 = .ok (.update true) := by decide
theorem test_decode_setauto :
    decodeCommand 0b10000000000000000000000000000000 0 = .ok (.setauto false) ∧
    decodeCommand 0b10000001000000000000000000000000 0 = .ok (.setauto true) := by decide
theorem test_decode_rdcsr :
    decodeCommand 0b10010000000000000000000000000000 0 = .ok (.rdcsr 0) ∧
    decodeCommand 0b10010000000000000000000000000100 0 = .ok (.rdcsr 4) := by decide
theorem test_decode_krd :
    decodeCommand 0b10100000000000000000000000111111 0 = .ok (.krd .act 63) ∧
    decodeCommand 0b10100001000000000000000000000000 0 = .ok (.krd .stg 0) ∧
    decodeCommand 0b10100010000000000000000000000101 0 = .ok (.krd .bufA 5) ∧
    decodeCommand 0b10100011000000000000000001111111 0 = .ok (.krd .bufB 127) := by decide
theorem test_decode_block : decodeCommand 0b11000000000000000000000000000000 0 = .ok .block := by decide
theorem test_decode_proc :
    decodeCommand 0b11010000000000000000000000000001 0xFFFFFFFF = .ok (.proc 1 0xFFFFFFFF) := by decide

/-- The illegal words of vector V-ENC-14, each with its reason. -/
theorem test_decode_illegal :
    decodeCommand 0xB0000000 0 = .error .reservedOpcode ∧ decodeCommand 0xE0000000 0 = .error .reservedOpcode ∧
    decodeCommand 0xFFFFFFFF 0 = .error .reservedOpcode ∧ decodeCommand 0x00000001 0 = .error .nonzeroIndex ∧
    decodeCommand 0x01000000 0 = .error .undefinedModifier ∧ decodeCommand 0x20000001 0 = .error .nonzeroIndex ∧
    decodeCommand 0x70000001 0 = .error .nonzeroIndex ∧ decodeCommand 0x72000000 0 = .error .undefinedModifier ∧
    decodeCommand 0x50010000 0 = .error .reservedField ∧ decodeCommand 0x52000000 0 = .error .undefinedModifier ∧
    decodeCommand 0xA4000000 0 = .error .undefinedModifier ∧ decodeCommand 0xC1000000 0 = .error .undefinedModifier ∧
    decodeCommand 0x30800000 0 = .error .reservedField := by decide

/-- Byte lanes are little-endian and a short list is no command (rules R42 and R71). -/
theorem test_decode_bytes :
    decodeBytes [0x02, 0x00, 0x00, 0x10, 0x44, 0xAC, 0x00, 0x00, 0x99] = .ok (.begin_ 2 44100, [0x99]) ∧
    decodeBytes [0x02, 0x00, 0x00, 0x10, 0x44, 0xAC, 0x00] = .error .truncated ∧
    decodeTableWord 32 0x90000004 = some (.rdcsr 4) := by decide

/-- No two rows of the table select one word: their patterns differ where both masks look. -/
theorem test_table_disjoint :
    opTable.Pairwise fun a b => a.pattern &&& (a.mask &&& b.mask) ≠ b.pattern &&& (a.mask &&& b.mask) := by decide

/-! ### One step of each operation -/

/-- The first step after reset runs the command presented: RDCSR NTAPS answers 128 (V-FAC-14). -/
theorem test_first_step :
    nextHas (fun t => lastOn .cp t == some ⟨.ok, 128⟩) (step (State.reset.withFetchWord 32 0x90000004)) = true := by
  decide +kernel

/-- NOP on either port (rule R150). -/
theorem test_nop :
    nextHas (fun t => lastOn .cp t == some ⟨.ok, 0⟩) (exec .nop (fresh .cp)) = true ∧
    nextHas (fun t => lastOn .ap t == some ⟨.ok, 0⟩) (exec .nop (fresh .ap)) = true := by decide +kernel

/-- V-FAC-11, first half: BEGIN 44100, 2 leaves STATUS = 3. -/
theorem test_begin_ok :
    nextHas (fun t => t.srate == 44100 && t.nchan == 2 && t.phase == .commit && t.statusWord == 3 &&
      ((t.channel 1).hist.read 3 == some 0) && (t.kmemB.read 1 == some 32767))
      (exec (.begin_ 2 44100) (fresh .cp)) = true := by decide +kernel

/-- V-FAC-10 and V-FAC-12: ERR_CONFIG, also while a rebuild is in flight. -/
theorem test_begin_refused :
    nextHas (fun t => lastOn .cp t == some ⟨.errConfig, 0⟩) (exec (.begin_ 3 44100) (fresh .cp)) = true ∧
    nextHas (fun t => lastOn .cp t == some ⟨.errConfig, 0⟩)
      (exec (.begin_ 2 0xFFFFFFFB) (busyAt .design .cp)) = true := by decide +kernel

/-- END (rule R153): the channels go, FREQ stays. -/
theorem test_end_ok :
    nextHas (fun t => t.srate == 0 && t.nchan == 0 && !(t.channel 0).kref.valid && (t.band 0).freq == ⟨0x41A00001⟩)
      (exec .end_ { live cnv [0, 0, 0, 0] 0 .cp with bands := [⟨⟨0⟩, ⟨0⟩, ⟨0x41A00001⟩⟩, ⟨⟨0⟩, ⟨0⟩, ⟨0⟩⟩] }) = true := by decide +kernel

theorem test_end_busy :
    nextHas (fun t => lastOn .cp t == some ⟨.busy, 0⟩) (exec .end_ (busyAt .commit .cp)) = true := by decide +kernel

/-- V-FAC-1: -200.0 is stored as -90.0. -/
theorem test_setg_clamps :
    nextHas (fun t => (t.band 0).gp == ⟨0xC2B40000⟩ && t.gainsDirty && (t.band 0).gc == ⟨0⟩)
      (exec (.setg 0 0xC3480000) (fresh .cp)) = true := by decide +kernel

/-- V-FAC-3 and V-FAC-16: a NaN, and the index checked before it. -/
theorem test_setg_nan :
    nextHas (fun t => lastOn .cp t == some ⟨.errValue, 0⟩ && !t.gainsDirty)
      (exec (.setg 1 0x7FC00000) (fresh .cp)) = true ∧
    nextHas (fun t => lastOn .cp t == some ⟨.errIndex, 0⟩) (exec (.setg 2 0x7FC00000) (fresh .cp)) = true := by
  decide +kernel

/-- V-FAC-8: -0.5 gives -45.0 and 2.0 gives 12.0. -/
theorem test_setgn_maps :
    nextHas (fun t => (t.band 1).gp == ⟨0xC2340000⟩) (exec (.setgn 1 0xBF000000) (fresh .cp)) = true ∧
    nextHas (fun t => (t.band 1).gp == ⟨0x41400000⟩) (exec (.setgn 1 0x40000000) (fresh .cp)) = true := by decide +kernel

/-- V-FAC-5. -/
theorem test_setgn_index :
    nextHas (fun t => lastOn .cp t == some ⟨.errIndex, 0⟩ && !t.gainsDirty)
      (exec (.setgn 65535 0x3F000000) (fresh .cp)) = true := by decide +kernel

/-- GETG reads the pending gain, GETG.C the committed one (rule R156). -/
theorem test_getg :
    nextHas (fun t => lastOn .cp t == some ⟨.ok, 0x40C00000⟩)
      (exec (.getg false 0) { fresh .cp with bands := [⟨⟨0x40C00000⟩, ⟨0xC0C00000⟩, ⟨0⟩⟩, ⟨⟨0⟩, ⟨0⟩, ⟨0⟩⟩] }) = true ∧
    nextHas (fun t => lastOn .cp t == some ⟨.ok, 0xC0C00000⟩)
      (exec (.getg true 0) { fresh .cp with bands := [⟨⟨0x40C00000⟩, ⟨0xC0C00000⟩, ⟨0⟩⟩, ⟨⟨0⟩, ⟨0⟩, ⟨0⟩⟩] }) = true := by
  decide +kernel

/-- GETF (rule R157) and V-FAC-9. -/
theorem test_getf :
    nextHas (fun t => lastOn .cp t == some ⟨.ok, 0x457A000C⟩)
      (exec (.getf 1)
        { live cnv [0, 0, 0, 0] 0 .cp with bands := [⟨⟨0⟩, ⟨0⟩, ⟨0⟩⟩, ⟨⟨0⟩, ⟨0⟩, ⟨0x457A000C⟩⟩] }) = true ∧
    nextHas (fun t => lastOn .cp t == some ⟨.ok, 0⟩) (exec (.getf 0) (fresh .cp)) = true := by decide +kernel

/-- V-KS-1. -/
theorem test_update_starts :
    nextHas (fun t => lastOn .cp t == some ⟨.ok, 1⟩ && t.isUpdating && t.phase == .commit && t.gainsDirty)
      (exec (.update false) (live cnv [0, 0, 0, 0] 0 .cp)) = true := by decide +kernel

/-- V-KS-2, V-KS-3 and V-KS-4. -/
theorem test_update_drops :
    nextHas (fun t => lastOn .cp t == some ⟨.notNeeded, 0⟩ && !t.isUpdating)
      (exec (.update false) { live cnv [0, 0, 0, 0] 0 .cp with gainsDirty := false }) = true ∧
    nextHas (fun t => lastOn .cp t == some ⟨.busy, 0⟩) (exec (.update true) (busyAt .swap .cp)) = true ∧
    nextHas (fun t => lastOn .cp t == some ⟨.errNotCfg, 0⟩) (exec (.update true) (fresh .cp)) = true := by decide +kernel

/-- V-FAC-15: SETAUTO 1 leaves STATUS = 8. -/
theorem test_setauto :
    nextHas (fun t => t.autoUpdate && t.statusWord == 8) (exec (.setauto true) (fresh .cp)) = true := by decide +kernel

/-- V-FAC-11, second half: the settled STATUS with buffer B active is 0x31. -/
theorem test_rdcsr_status :
    nextHas (fun t => lastOn .cp t == some ⟨.ok, 0x31⟩)
      (exec (.rdcsr 0) { live cnv [0, 0, 0, 0] 0 .cp with gainsDirty := false, autoUpdate := false, asel := .bufB }) =
      true := by decide +kernel

/-- V-FAC-14. -/
theorem test_rdcsr_index :
    nextHas (fun t => lastOn .cp t == some ⟨.errIndex, 0⟩) (exec (.rdcsr 8) (fresh .cp)) = true := by decide +kernel

/-- KRD sign-extends (rule R44); V-KS-7: the staging buffer is BUSY while a rebuild is in flight. -/
theorem test_krd :
    nextHas (fun t => lastOn .cp t == some ⟨.ok, 0xFFFFE000⟩)
      (exec (.krd .act 1) (live cnv [0, 0, 0, 0] 0 .cp)) = true ∧
    nextHas (fun t => lastOn .cp t == some ⟨.busy, 0⟩) (exec (.krd .bufB 3) (busyAt .commit .cp)) = true ∧
    nextHas (fun t => lastOn .cp t == some ⟨.ok, 0⟩) (exec (.krd .bufA 3) (busyAt .commit .cp)) = true := by
  decide +kernel

/-- V-KS-6: the index is tested before the configuration. -/
theorem test_krd_index :
    nextHas (fun t => lastOn .cp t == some ⟨.errIndex, 0⟩) (exec (.krd .act 4) (fresh .cp)) = true := by decide +kernel

/-- BLOCK (rule R137): the one case that withholds the answer, and a dropped request. -/
theorem test_block :
    nextHas (fun t => t.apWait && t.phase == .commit && lastOn .ap t == none)
      (exec .block (live cnv [0, 0, 0, 0] 0 .ap)) = true ∧
    nextHas (fun t => lastOn .ap t == some ⟨.ok, 2⟩ && !t.apWait)
      (exec .block (busyAt .design .ap)) = true := by decide +kernel

/-- V-CNV-1, third row: -1000 and 1000 in the ring, 32767 comes in. -/
theorem test_proc_row3 :
    nextHas (fun t => lastOn .ap t == some ⟨.ok, 17633⟩ && (t.channel 0).cur == 3 &&
      (t.channel 0).hist == ring [1000, -1000, 32767, 0])
      (exec (.proc 0 32767) (live cnv [1000, -1000, 0, 0] 2 .ap)) = true := by decide +kernel

/-- V-CNV-1, sixth row: 0 comes in, the sum saturates below. -/
theorem test_proc_row6 :
    nextHas (fun t => lastOn .ap t == some ⟨.ok, 0xFFFF8000⟩ && (t.channel 0).cur == 2)
      (exec (.proc 0 0) (live cnv [0, -1000, 32767, -32768] 1 .ap)) = true := by decide +kernel

/-- V-CNV-8 and V-CNV-9: bypass, and a channel that does not exist. -/
theorem test_proc_bypass :
    nextHas (fun t => lastOn .ap t == some ⟨.ok, 0xFFFF8000⟩ && (t.channel 0).cur == 2)
      (exec (.proc 0 0xABCD8000)
        { live cnv [0, 0, 0, 0] 2 .ap with channels := [⟨ring [0, 0, 0, 0], 2, ⟨false, .bufA⟩⟩] }) = true ∧
    nextHas (fun t => lastOn .ap t == some ⟨.errIndex, 0⟩)
      (exec (.proc 2 1) (live cnv [0, 0, 0, 0] 0 .ap)) = true := by decide +kernel

/-- V-CNV-7: 32-bit samples. -/
theorem test_proc_w32 :
    nextHas (fun t => lastOn .ap t == some ⟨.ok, 2147418111⟩)
      (exec (.proc 0 0x7FFFFFFF)
        { live [32767, 32767, 32767, 32767] [0, 0, 0, 0] 0 .ap with params := small .w32 }) = true := by decide +kernel

/-- V-ENC-15: operations presented on the wrong port. -/
theorem test_wrong_port :
    nextHas (fun t => lastOn .cp t == some ⟨.errIllegal, 0⟩) (exec (.proc 0 1) (fresh .cp)) = true ∧
    nextHas (fun t => lastOn .ap t == some ⟨.errIllegal, 0⟩) (exec (.setg 0 0) (fresh .ap)) = true := by decide +kernel

/-- V-KS-5: E-COMMIT. -/
theorem test_commit :
    ({ busyAt .commit .cp with bands := [⟨⟨1⟩, ⟨0⟩, ⟨5⟩⟩, ⟨⟨2⟩, ⟨0⟩, ⟨6⟩⟩] }).engineStep.bands =
      [⟨⟨1⟩, ⟨1⟩, ⟨5⟩⟩, ⟨⟨2⟩, ⟨2⟩, ⟨6⟩⟩] := by decide

/-- V-DES-1: E-DESIGN at flat gains writes the identity kernel into the staging buffer. -/
theorem test_design :
    (State.engineStep { busyAt .design .cp with kmemB := kern cnv }).kmemB = kern ident := by decide +kernel

/-- V-KS-10: E-SWAP, with the held BLOCK answered. -/
theorem test_swap :
    (State.engineStep { busyAt .swap .cp with asel := .bufB, apWait := true }).asel = .bufA ∧
    ((State.engineStep { busyAt .swap .cp with asel := .bufB, apWait := true }).channel 1).kref = ⟨true, .bufA⟩ ∧
    lastOn .ap (State.engineStep { busyAt .swap .cp with asel := .bufB, apWait := true }) = some ⟨.ok, 1⟩ := by decide

/-- V-DES-10: quantisation of 0.5 (a tie), -1.5 (clamped) and -0.0; and, by hand from rule R103, of 0.75: 24575.25 rounds
to 24575, where a factor of 32768 would give 24576. -/
theorem test_quantise :
    quantise (binary32 constantFns) (fun _ => 0) [0x3F000000, 0xBFC00000, 0x80000000, 0x3F400000] =
      [16384, 0x8000, 0, 24575] := by decide +kernel

/-- V-CNV-3: the descale. -/
theorem test_descale : [32767000, -32767000, -1, 32767, -32768, -32769].map descale = [999, -1000, -1, 0, -1, -2] := by
  decide

/-- The examples of rule R67. -/
theorem test_float_constants :
    fconst32 12 1 = 0x41400000 ∧ fconst32 (-90) 1 = 0xC2B40000 ∧ fconst32 1 20 = 0x3D4CCCCD ∧
    fconst32 1 10 = 0x3DCCCCCD ∧ fconst32 20 1 = 0x41A00000 := by decide +kernel

/-- Text forms of rule R72 with the words of V-ENC-2, V-ENC-4 and V-ENC-11, and the pseudo-instructions of R73. -/
theorem test_assemble :
    (assemble false "BEGIN" [.int 44100, .int 2]).map (fun c => (encode c.2).cw) = some 0x10000002 ∧
    assemble false "SETG" [.int 0, .dec (-200) 1] = some (.cp, .setg 0 0xC3480000) ∧
    (assemble false "KRD" [.name "B", .int 127]).map (fun c => (encode c.2).cw) = some 0xA300007F ∧
    assemble true "NOP" [] = some (.ap, .nop) ∧
    pseudoImpulse 0 1 2 = [.proc 0 1, .proc 0 0, .proc 0 0] := by decide +kernel

/-! ### Witnesses: for every statement with hypotheses, states and operands that meet them, clause by clause -/

/-- The configured machine at rest, with any kernel and ring of four elements, meets the invariant. -/
theorem live_inv (p : PortId) : (live cnv [0, 0, 0, 0] 0 p).Inv where
  legal := legal_of_binary32 (p := small .w16) (by decide) rfl rfl rfl
  shaped := by cases p <;> decide
  kernelsCanonical := by cases p <;> decide
  historiesCanonical := by cases p <;> decide
  samplesFit := by cases p <;> decide
  gainsInRange := by cases p <;> decide +kernel
  updatingPhase := by cases p <;> decide
  updatingConfigured := nofun
  waitUpdating := nofun
  rateNonneg := by cases p <;> decide
  channelsConfigured := by cases p <;> decide
  channelsBound := by cases p <;> decide
  freqsPlanned := fun _ => by
    rw [show (live cnv [0, 0, 0, 0] 0 p).srate.toInt = 44100 by cases p <;> decide]
    show List.map Band.freq (List.map _ _) = _
    rw [List.map_map]
    exact List.map_id _
  windowFilled := fun _ => rfl
  cursors := by cases p <;> decide
  kernelsWritten := fun _ b => by cases p <;> cases b <;> decide
  historiesWritten := by cases p <;> decide
  krefActive := fun ch h => match ch with
    | 0 => rfl
    | 1 => rfl
    | _ + 2 => absurd h Bool.false_ne_true
  krefAgree := by cases p <;> decide
  krefAbsent := fun ch h => match ch with
    | 0 => absurd h (show ¬ 2 ≤ 0 by decide)
    | 1 => absurd h (show ¬ 2 ≤ 1 by decide)
    | _ + 2 => rfl

/-- So does the machine with a rebuild in flight. -/
theorem busy_inv (ph : Phase) (hph : ph ≠ .idle) (p : PortId) : (busyAt ph p).Inv where
  legal := (live_inv p).legal
  shaped := (live_inv p).shaped
  kernelsCanonical := show (kern ident).wf ∧ (kern ident).wf by decide
  historiesCanonical := (live_inv p).historiesCanonical
  samplesFit := (live_inv p).samplesFit
  gainsInRange := (live_inv p).gainsInRange
  updatingPhase := ⟨fun _ => hph, fun _ => rfl⟩
  updatingConfigured := fun _ => rfl
  waitUpdating := fun _ => rfl
  rateNonneg := (live_inv p).rateNonneg
  channelsConfigured := (live_inv p).channelsConfigured
  channelsBound := (live_inv p).channelsBound
  freqsPlanned := fun _ => (live_inv p).freqsPlanned rfl
  windowFilled := fun _ => rfl
  cursors := (live_inv p).cursors
  kernelsWritten := fun _ b => by cases b <;> exact (show ∀ n < 4, ((kern ident).read n).isSome = true by decide)
  historiesWritten := (live_inv p).historiesWritten
  krefActive := (live_inv p).krefActive
  krefAgree := (live_inv p).krefAgree
  krefAbsent := (live_inv p).krefAbsent

/-- A turn of the engine. -/
theorem step_eng {s : State} {ts : List Turn} (h : s.turns = .eng :: ts) :
    step s = .next (State.engineStep { s with turns := ts }) := by simp only [step, State.nextTurn, h]

/-- A machine whose control port has one command to present and the first turn. -/
def withCp (s : State) (c : Command) : State := { s with turns := [.cp], cp := ⟨[c], []⟩ }

/-- The same on the audio port. -/
def withAp (s : State) (c : Command) : State := { s with turns := [.ap], ap := ⟨[c], []⟩ }

theorem witness_DecodeEncodeRoundTrip :
    (Instr.krd .bufB 65535).wellFormed = true ∧ (Instr.begin_ 65535 0).wellFormed = true ∧
    Instr.nop.wellFormed = true := by decide

theorem witness_EncodeDecodeRoundTrip :
    decodeCommand 0x10000002 44100 = .ok (.begin_ 2 44100) ∧ (Instr.begin_ 2 44100).usesArgument = true ∧
    decodeCommand 0x20000000 7 = .ok .end_ := by decide

theorem witness_DecoderAgreesWithTheTable :
    (⟨"KRD", 0xA0000000, 0xFCFF0000⟩ : OpRow) ∈ opTable ∧
    (⟨"KRD", 0xA0000000, 0xFCFF0000⟩ : OpRow).selects 0xA300007F = true ∧
    (⟨"KRD", 0xA0000000, 0xFCFF0000⟩ : OpRow).selects 0xA400007F = false := by decide

theorem witness_IllegalWordAnswersErrIllegal :
    (∀ r ∈ opTable, r.selects 0xB0000000 = false) ∧
    (withCp (fresh .ap) ⟨0xB0000000, 0⟩).turns = [.cp] ∧
    (withCp (fresh .ap) ⟨0xB0000000, 0⟩).cp.pending = [⟨0xB0000000, 0⟩] ∧
    (withAp (fresh .cp) ⟨0xB0000000, 0⟩).turns = [.ap] ∧ (withAp (fresh .cp) ⟨0xB0000000, 0⟩).apWait = false ∧
    (withAp (fresh .cp) ⟨0xB0000000, 0⟩).ap.pending = [⟨0xB0000000, 0⟩] := by decide

theorem witness_PortLegality :
    (opcField (encode (.krd .act 0)).cw ≤ 0xA ∧ (live cnv [0, 0, 0, 0] 0 .cp).port = .cp) ∧
    (¬ opcField (encode .block).cw ≤ 0xA) ∧
    (opcField (encode (.proc 0 0)).cw = 0xD ∧ (live cnv [0, 0, 0, 0] 0 .ap).port = .ap) ∧
    opcField (encode .end_).cw ≠ 0 := by decide

theorem witness_StepRunsTheNextCommand :
    ((withCp (fresh .ap) ⟨0, 0⟩).turns = [.cp] ∧ (withCp (fresh .ap) ⟨0, 0⟩).cp.pending = [⟨0, 0⟩] ∧
      decodeCommand 0 0 = .ok .nop) ∧
    ((withAp (fresh .cp) ⟨0, 0⟩).turns = [.ap] ∧ (withAp (fresh .cp) ⟨0, 0⟩).apWait = false ∧
      (withAp (fresh .cp) ⟨0, 0⟩).ap.pending = [⟨0, 0⟩]) ∧
    (({ fresh .cp with turns := [.cp] }).turns = [.cp] ∧ (fresh .cp).cp.pending = []) ∧
    (({ fresh .cp with turns := [.ap] }).turns = [.ap] ∧ (fresh .cp).ap.pending = []) := by decide

theorem witness_HeldAudioPortWaits :
    ({ busyAt .swap .cp with turns := [.ap], apWait := true }).turns = [.ap] ∧
    ({ busyAt .swap .cp with turns := [.ap], apWait := true }).apWait = true := by decide

theorem witness_EngineFollowsItsPhase :
    ({ live cnv [0, 0, 0, 0] 0 .cp with turns := [.eng] }).turns = [.eng] ∧
    ({ live cnv [0, 0, 0, 0] 0 .cp with turns := [.eng] }).phase = .idle ∧
    (busyAt .commit .cp).phase = .commit ∧ (busyAt .design .cp).phase = .design ∧
    (busyAt .swap .cp).phase = .swap := by decide

theorem witness_ResetEventAbandonsEverything :
    ({ busyAt .swap .cp with turns := [.reset] }).turns = [.reset] := by decide

theorem witness_NopAnswersOk :
    (withAp { busyAt .swap .cp with apWait := true } ⟨0, 5⟩).turns = [.ap] ∧
    (withAp { busyAt .swap .cp with apWait := true } ⟨0, 5⟩).ap.pending = [⟨0, 5⟩] ∧
    (withAp { busyAt .swap .cp with apWait := true } ⟨0, 5⟩).apWait = true := by decide

theorem witness_BeginConfiguresTheBlock :
    ((fresh .cp).port = .cp ∧ (fresh .cp).Shaped) ∧
    (BitVec.toInt (0 : Word) ≤ 0 ∧ BitVec.toInt (0xFFFFFFFB : Word) ≤ 0) ∧
    (0 < BitVec.toInt (1 : Word) ∧ 0 < BitVec.toInt (0x7FFFFFFF : Word)) ∧
    (fresh .cp).params.maxChannels < 3 ∧ 2 ≤ (fresh .cp).params.maxChannels ∧ (fresh .cp).isUpdating = false ∧
    ((busyAt .commit .cp).isUpdating = true ∧ (busyAt .commit .cp).Shaped) := by decide +kernel

theorem witness_EndReleasesTheChannels :
    ((busyAt .commit .cp).port = .cp ∧ (busyAt .commit .cp).isUpdating = true) ∧
    (live cnv [0, 0, 0, 0] 0 .cp).isUpdating = false ∧
    3 < (live cnv [0, 0, 0, 0] 0 .cp).params.numTaps ∧
    ((State.resetOf (small .w16) 0).port = .cp ∧ (State.resetOf (small .w16) 0).configured = false) := by decide

theorem witness_SetgStoresTheClampedGain :
    (((small .w16).num.flt ⟨0xC3480000⟩ ((small .w16).num.fconst (-90) 1) = true) ∧
      ((small .w16).num.flt ⟨0x41500000⟩ ((small .w16).num.fconst (-90) 1) = false ∧
        (small .w16).num.flt ((small .w16).num.fconst 12 1) ⟨0x41500000⟩ = true) ∧
      ((small .w16).num.flt ⟨0xC2B40000⟩ ((small .w16).num.fconst (-90) 1) = false ∧
        (small .w16).num.flt ((small .w16).num.fconst 12 1) ⟨0xC2B40000⟩ = false)) ∧
    ((fresh .cp).port = .cp ∧ (fresh .cp).Shaped ∧ (fresh .cp).params.numBands ≤ 2 ∧
      1 < (fresh .cp).params.numBands) ∧
    (fresh .cp).num.isNaN ((fresh .cp).num.ofBits32 0x7FC00000) = true ∧
    (fresh .cp).num.isNaN ((fresh .cp).num.ofBits32 0x7F800000) = false := by decide +kernel

theorem witness_SetgnStoresTheMappedGain :
    (fresh .cp).port = .cp ∧ (fresh .cp).Shaped ∧ (fresh .cp).params.numBands ≤ 2 ∧ 1 < (fresh .cp).params.numBands ∧
    (fresh .cp).num.isNaN ((fresh .cp).num.ofBits32 0xFFFFFFFF) = true ∧
    (fresh .cp).num.isNaN ((fresh .cp).num.ofBits32 0x80000000) = false := by decide +kernel

theorem witness_StoredGainsAreInRange :
    (small .w16).num.Sound val32 ∧ (small .w16).num.isNaN ⟨0xFF800000⟩ = false ∧
    gainInRange (small .w16).num ⟨0xC2B40000⟩ = true ∧ gainInRange (small .w16).num ⟨0x41400000⟩ = true ∧
    gainInRange (small .w16).num ⟨0x41400001⟩ = false :=
  ⟨binary32_sound _, by decide +kernel, by decide +kernel, by decide +kernel, by decide +kernel⟩

theorem witness_GetgReadsAGain :
    (fresh .cp).port = .cp ∧ (fresh .cp).params.numBands ≤ 2 ∧ 1 < (fresh .cp).params.numBands := by decide

theorem witness_GetfReadsTheCentreFrequency :
    ((fresh .cp).port = .cp ∧ (fresh .cp).params.numBands ≤ 2 ∧ 1 < (fresh .cp).params.numBands) ∧
    (11 < Params.scenario.numBands ∧ Params.scenario.numerics = .binary32) ∧
    ∃ t, exec .end_ (live cnv [0, 0, 0, 0] 0 .cp) = .next t :=
  ⟨by decide, by decide, exists_next (by decide +kernel)⟩

theorem witness_BandIndexOutOfRangeChangesNothing :
    (fresh .cp).port = .cp ∧ (fresh .cp).params.numBands ≤ 2 ∧
    Instr.getf 2 ∈ [Instr.setg 2 0, .setgn 2 0, .getg false 2, .getg true 2, .getf 2] := by decide

theorem witness_SetautoWritesOnlyAuto : (busyAt .swap .cp).port = .cp := by decide

theorem witness_RdcsrReadsTheRegisterMap :
    (fresh .cp).port = .cp ∧ 8 ≤ 8 ∧ 7 < 8 ∧ 0 < 8 := by decide

theorem witness_RebuildRequestIsATestAndSet :
    (fresh .cp).srate.toInt ≤ 0 ∧
    (0 < (busyAt .swap .cp).srate.toInt ∧ (busyAt .swap .cp).isUpdating = true) ∧
    (0 < (live cnv [0, 0, 0, 0] 0 .cp).srate.toInt ∧ (live cnv [0, 0, 0, 0] 0 .cp).isUpdating = false ∧
      (live cnv [0, 0, 0, 0] 0 .cp).gainsDirty = true) ∧
    ({ live cnv [0, 0, 0, 0] 0 .cp with gainsDirty := false }).gainsDirty = false := by decide

theorem witness_UpdateClaimsOrDrops :
    ((fresh .cp).port = .cp ∧ (fresh .cp).srate.toInt ≤ 0) ∧
    ((busyAt .swap .cp).port = .cp ∧ 0 < (busyAt .swap .cp).srate.toInt ∧ (busyAt .swap .cp).isUpdating = true) ∧
    ((live cnv [0, 0, 0, 0] 0 .cp).port = .cp ∧ 0 < (live cnv [0, 0, 0, 0] 0 .cp).srate.toInt ∧
      (live cnv [0, 0, 0, 0] 0 .cp).isUpdating = false ∧ (live cnv [0, 0, 0, 0] 0 .cp).gainsDirty = true) ∧
    ({ live cnv [0, 0, 0, 0] 0 .cp with gainsDirty := false }).gainsDirty = false := by decide

theorem witness_KrdReadsTheSelectedBuffer :
    ((fresh .cp).port = .cp ∧ (fresh .cp).params.numTaps ≤ 4 ∧ 3 < (fresh .cp).params.numTaps ∧
      (fresh .cp).srate.toInt ≤ 0) ∧
    ((busyAt .design .cp).isUpdating = true ∧ (busyAt .design .cp).asel.other = .bufB) ∧
    ((live cnv [0, 0, 0, 0] 0 .cp).isUpdating = false ∧ 0 < (live cnv [0, 0, 0, 0] 0 .cp).srate.toInt ∧
      ((live cnv [0, 0, 0, 0] 0 .cp).kmem .bufA).read 3 = some 0x8000) ∧
    ((busyAt .design .cp).asel = .bufA ∧ ((busyAt .design .cp).kmem .bufA).read 0 = some 0) ∧
    (({ live cnv [0, 0, 0, 0] 0 .cp with kmemB := [] }).kmem .bufB).read 3 = none := by decide

theorem witness_CommitCopiesEveryGain : (busyAt .commit .cp).phase = .commit := by decide

theorem witness_DesignWritesOnlyTheStagingBuffer :
    (busyAt .design .cp).phase = .design ∧ 3 < (busyAt .design .cp).params.numTaps ∧
    (busyAt .design .cp).params.numTaps ≤ 4 := by decide

theorem witness_SwapPublishesTheStagingBuffer :
    (busyAt .swap .cp).phase = .swap ∧ (busyAt .swap .cp).Shaped ∧
    (busyAt .swap .cp).nchan ≤ (busyAt .swap .cp).params.maxChannels ∧ 1 < (busyAt .swap .cp).nchan := by decide

theorem witness_NegligibleGainsGiveTheIdentityKernel :
    (small .w16).num.Sound val32 ∧ (small .w16).Legal ∧ 1 ≤ (small .w16).numTaps ∧
    (small .w16).num.flt ((small .w16).num.fabs ⟨0x3D4CCCCD⟩) ((small .w16).num.fconst 1 10) = true ∧
    (∀ b ∈ (busyAt .design .cp).bands, b.gc = (busyAt .design .cp).num.fconst 0 1) :=
  ⟨binary32_sound _, legal_of_binary32 (by decide) rfl rfl rfl, by decide, by decide +kernel, by decide +kernel⟩

theorem witness_EveryDesignedValueIsFinite :
    (busyAt .design .cp).Inv ∧ (busyAt .design .cp).configured = true :=
  ⟨busy_inv .design (by decide) .cp, by decide⟩

theorem witness_Binary32MeetsTheConditions :
    Params.scenario.numerics = .binary32 ∧
    (-65535 : Int) ≤ -65535 ∧ (65535 : Int) ≤ 65535 ∧ isNaN32 0x7FC00000 = true ∧ isFinite32 0x7F7FFFFF = true ∧
    isFinite32 0x80000000 = true ∧ (32767 : Int) ∈ [0, 1, 2, 4, 20, 32767] ∧
    isNaN32 (inf32 true) = false ∧ isNaN32 (inf32 false) = false ∧ flt32 (inf32 true) (inf32 false) = true ∧
    Params.scenario.Sizes ∧ Params.scenario.magEpsNum = 1 ∧ Params.scenario.magEpsDen = 1000000000 := by decide

/-- Finite operands, a tie (1 + 2^-24 between 1 and its successor, whose fraction is odd), an overflow and a root. -/
theorem witness_ArithmeticIsCorrectlyRounded :
    isFinite32 0x3F800000 = true ∧ isFinite32 0x33800000 = true ∧ fadd32 0x3F800000 0x33800000 = 0x3F800000 ∧
    frac32 0x3F800001 % 2 = 1 ∧ isFinite32 0x7F7FFFFF = true ∧ fadd32 0x7F7FFFFF 0x7F7FFFFF = 0x7F800000 ∧
    isZero32 0x40400000 = false ∧ 0 ≤ signedUnits32 0x40000000 ∧ fsqrt32 0x40800000 = 0x40000000 ∧
    fconst32 16777217 1 = 0x4B800000 := by
  decide +kernel

theorem witness_QuantisationRoundsAndSaturates :
    isFinite32 0x3F000000 = true ∧ 2 * |signedUnits32 0x3F000000 - 1 * 2 ^ 149| = 2 ^ 149 ∧
    ([0x3F400000, 0x3F000000] : List F32)[1]? = some 0x3F000000 ∧ isInf32 0xFF800000 = true ∧
    sign32 0xFF800000 = true ∧ isInf32 0x7F800000 = true ∧ sign32 0x7F800000 = false ∧ isNaN32 0x7FC00000 = true := by
  decide +kernel

theorem witness_ProcFiltersOneSample :
    (live cnv [0, 0, 0, 0] 3 .ap).port = .ap ∧ (live cnv [0, 0, 0, 0] 3 .ap).Shaped ∧
    1 < (live cnv [0, 0, 0, 0] 3 .ap).nchan ∧
    (live cnv [0, 0, 0, 0] 3 .ap).nchan ≤ (live cnv [0, 0, 0, 0] 3 .ap).params.maxChannels ∧
    ((live cnv [0, 0, 0, 0] 3 .ap).channel 0).kref.valid = true ∧
    ((live cnv [0, 0, 0, 0] 3 .ap).channel 0).cur < (live cnv [0, 0, 0, 0] 3 .ap).params.numTaps ∧
    (∀ j < 4, (((live cnv [0, 0, 0, 0] 3 .ap).channel 0).hist.read j).isSome = true) ∧
    ∀ n < 4, (((live cnv [0, 0, 0, 0] 3 .ap).kmem .bufA).read n).isSome = true := by decide

theorem witness_ProcSequenceIsAConvolution :
    (live cnv [0, 0, 0, 0] 0 .ap).Inv ∧ (live cnv [0, 0, 0, 0] 0 .ap).port = .ap ∧
    0 < (live cnv [0, 0, 0, 0] 0 .ap).nchan ∧ ((live cnv [0, 0, 0, 0] 0 .ap).channel 0).kref.valid = true ∧
    ((live cnv [0, 0, 0, 0] 0 .ap).channel 0).cur = 0 ∧
    ∀ j < 4, ((live cnv [0, 0, 0, 0] 0 .ap).channel 0).hist.read j = some 0 :=
  ⟨live_inv .ap, by decide, by decide, by decide, by decide, by decide⟩

theorem witness_ProcOnAnAbsentChannel :
    ((live cnv [0, 0, 0, 0] 0 .ap).port = .ap ∧ (live cnv [0, 0, 0, 0] 0 .ap).nchan ≤ 2) ∧
    ((fresh .ap).port = .ap ∧ (fresh .ap).configured = false) := by decide

theorem witness_ProcBypassesWithoutAKernel :
    ({ live cnv [0, 0, 0, 0] 2 .ap with channels := [⟨[], 2, ⟨false, .bufA⟩⟩] }).port = .ap ∧
    0 < ({ live cnv [0, 0, 0, 0] 2 .ap with channels := [⟨[], 2, ⟨false, .bufA⟩⟩] }).nchan ∧
    (({ live cnv [0, 0, 0, 0] 2 .ap with channels := [⟨[], 2, ⟨false, .bufA⟩⟩] }).channel 0).kref.valid = false := by
  decide

theorem witness_AccumulatorNeverOverflows :
    (small .w16).Sizes ∧ Params.scenario.Sizes ∧ 3 ≤ (small .w16).numTaps ∧
    (match macOver .w16 4 3 (ring [1, 2, 3, 4]) .bufA (kern cnv) (List.range 3) 0 with
      | .ok acc => acc == 4 * 16384 - 3 * 8192 + 2 * 32767
      | .error _ => false) = true := by decide

/-- Both boundary values of the range, and the values just outside it. -/
theorem witness_DescaleFloorsThenSaturates :
    (-2 ^ (SampleWidth.bits .w16 - 1) ≤ (-32768 : Int) ∧ (-32768 : Int) < 2 ^ (SampleWidth.bits .w16 - 1)) ∧
    (-2 ^ (SampleWidth.bits .w16 - 1) ≤ (32767 : Int) ∧ (32767 : Int) < 2 ^ (SampleWidth.bits .w16 - 1)) ∧
    (2 : Int) ^ (SampleWidth.bits .w16 - 1) ≤ 32768 ∧ (-32769 : Int) < -2 ^ (SampleWidth.bits .w16 - 1) := by decide

theorem witness_IdentityKernelOutput :
    (busyAt .swap .ap).Inv ∧ (busyAt .swap .ap).port = .ap ∧ 0 < (busyAt .swap .ap).nchan ∧
    ((busyAt .swap .ap).channel 0).kref.valid = true ∧
    ∀ n < 4, ((busyAt .swap .ap).kmem (busyAt .swap .ap).asel).read n = some (identityKernel 4 n) :=
  ⟨busy_inv .swap (by decide) .ap, by decide, by decide, by decide, by decide⟩

theorem witness_ProcDependsOnlyOnItsChannel :
    ∃ s u t : State, s ≠ u ∧ s.port = .ap ∧ u.port = .ap ∧ s.params = u.params ∧ s.nchan = u.nchan ∧
      s.channel 0 = u.channel 0 ∧ s.kmemA = u.kmemA ∧ s.kmemB = u.kmemB ∧ s.Shaped ∧ u.Shaped ∧
      s.nchan ≤ s.params.maxChannels ∧ exec (.proc 0 1) s = .next t :=
  (exists_next (o := exec (.proc 0 1) (live cnv [0, 0, 0, 0] 0 .ap)) (by decide +kernel)).elim fun t ht =>
    ⟨live cnv [0, 0, 0, 0] 0 .ap, { live cnv [0, 0, 0, 0] 0 .ap with autoUpdate := false }, t,
      fun h => absurd (congrArg State.autoUpdate h) (by decide), by decide,
      by decide, by decide, by decide, rfl, by decide, by decide, by decide, by decide, by decide, ht⟩

theorem witness_BlockRequestsAndHolds :
    ({ busyAt .swap .ap with apWait := true }).apWait = true ∧
    ((fresh .ap).port = .ap ∧ (fresh .ap).autoUpdate = false) ∧
    ({ fresh .ap with autoUpdate := true }).srate.toInt ≤ 0 ∧
    ((busyAt .design .ap).autoUpdate = true ∧ 0 < (busyAt .design .ap).srate.toInt ∧
      (busyAt .design .ap).isUpdating = true) ∧
    ({ live cnv [0, 0, 0, 0] 0 .ap with gainsDirty := false }).gainsDirty = false ∧
    ((live cnv [0, 0, 0, 0] 0 .ap).port = .ap ∧ (live cnv [0, 0, 0, 0] 0 .ap).autoUpdate = true ∧
      (live cnv [0, 0, 0, 0] 0 .ap).isUpdating = false ∧ (live cnv [0, 0, 0, 0] 0 .ap).gainsDirty = true) := by decide

theorem witness_SwapAnswersTheHeldBlock :
    (busyAt .swap .cp).phase = .swap ∧ ({ busyAt .swap .cp with apWait := true }).apWait = true := by decide

theorem witness_ResetValues : 11 < Params.scenario.numBands := by decide

theorem witness_ResetMeetsTheInvariant : Params.scenario.Legal ∧ (small .w32).Legal :=
  ⟨legal_of_binary32 (by decide) rfl rfl rfl, legal_of_binary32 (by decide) rfl rfl rfl⟩

/-- A machine after reset meets the invariant, on either port: the premise of END's last clause and of PROC's second
case. -/
theorem fresh_inv (p : PortId) : (fresh p).Inv where
  legal := legal_of_binary32 (p := small .w16) (by decide) rfl rfl rfl
  shaped := ⟨rfl, rfl, rfl⟩
  kernelsCanonical := show Memory.wf ([] : Memory 16) ∧ Memory.wf ([] : Memory 16) by decide
  historiesCanonical := fun c hc => by
    obtain ⟨ch, -, rfl⟩ := List.mem_map.mp hc
    exact (show Memory.wf ([] : Memory 32) by decide)
  samplesFit := fun c hc => by
    obtain ⟨ch, -, rfl⟩ := List.mem_map.mp hc
    exact nofun
  gainsInRange := fun b hb => by
    rw [List.eq_of_mem_replicate hb]
    exact ⟨(binary32_sound _).zero_in_range, (binary32_sound _).zero_in_range⟩
  updatingPhase := ⟨nofun, fun h => absurd rfl h⟩
  updatingConfigured := nofun
  waitUpdating := nofun
  rateNonneg := show 0 ≤ BitVec.toInt (0 : Word) by decide
  channelsConfigured := ⟨fun h => absurd h (Nat.lt_irrefl 0), nofun⟩
  channelsBound := Nat.zero_le _
  freqsPlanned := nofun
  windowFilled := nofun
  cursors := fun ch h => absurd h (Nat.not_lt_zero ch)
  kernelsWritten := nofun
  historiesWritten := fun ch h => absurd h (Nat.not_lt_zero ch)
  krefActive := fun ch h => match ch with
    | 0 => absurd h Bool.false_ne_true
    | 1 => absurd h Bool.false_ne_true
    | _ + 2 => absurd h Bool.false_ne_true
  krefAgree := fun ch h => absurd h (Nat.not_lt_zero ch)
  krefAbsent := fun ch _ => match ch with
    | 0 => rfl
    | 1 => rfl
    | _ + 2 => rfl

theorem witness_EveryStepKeepsTheInvariant :
    (busyAt .commit .cp).Inv ∧ (live cnv [0, 0, 0, 0] 0 .ap).Inv ∧
    State.Steps { live cnv [0, 0, 0, 0] 0 .cp with turns := [.eng] } (live cnv [0, 0, 0, 0] 0 .cp) :=
  ⟨busy_inv .commit (by decide) .cp, live_inv .ap, step_eng rfl⟩

theorem witness_NoStepStops : (busyAt .design .cp).Inv := busy_inv .design (by decide) .cp

theorem witness_ReferencedKernelIsNeverWritten :
    (busyAt .design .cp).Inv ∧ ((busyAt .design .cp).channel 0).kref.valid = true ∧
    State.Steps { busyAt .design .cp with turns := [.eng] } (busyAt .design .cp).eDesign :=
  ⟨busy_inv .design (by decide) .cp, by decide, step_eng rfl⟩

theorem witness_FailedCommandHasNoEffect :
    exec .end_ (busyAt .commit .cp) = .next ((busyAt .commit .cp).respond .busy 0) ∧ Status.busy ≠ .ok ∧
    (((busyAt .commit .cp).respond .busy 0).portOf .cp).answers =
      ⟨.busy, 0⟩ :: ((busyAt .commit .cp).portOf .cp).answers := ⟨rfl, by decide, by decide⟩

theorem witness_EveryCommandIsAnsweredOnce :
    exec .nop (fresh .ap) = .next ((fresh .ap).respond .ok 0) ∧
    exec .block (live cnv [0, 0, 0, 0] 0 .ap) =
      .next { (live cnv [0, 0, 0, 0] 0 .ap).claim with apWait := true } := ⟨rfl, rfl⟩

theorem witness_AudioPortChangesNoConfiguration :
    (live cnv [0, 0, 0, 0] 0 .ap).port = .ap ∧
    ∃ t, exec (.proc 0 1) (live cnv [0, 0, 0, 0] 0 .ap) = .next t := ⟨by decide, exists_next (by decide +kernel)⟩

theorem witness_GainsChangeOnlyWhereSaid :
    (∃ t, exec (.update true) (live cnv [0, 0, 0, 0] 0 .cp) = .next t) ∧ (busyAt .swap .cp).phase ≠ .commit :=
  ⟨exists_next (by decide +kernel), by decide⟩

theorem witness_DirtyMarkChangesOnlyWhereSaid :
    (∃ t, State.Steps { busyAt .swap .cp with turns := [.eng] } t ∧ t.gainsDirty = false) ∧
    (busyAt .swap .cp).gainsDirty = true ∧
    (∃ t, State.Steps (withCp (fresh .ap) ⟨0x30000000, 0⟩) t ∧ t.gainsDirty = true) ∧
    (withCp (fresh .ap) ⟨0x30000000, 0⟩).gainsDirty = false :=
  ⟨⟨_, step_eng rfl, rfl⟩, rfl, exists_nextHas (P := State.gainsDirty) (by decide +kernel), rfl⟩

theorem witness_ParametersNeverChange :
    ∃ t, State.Steps { busyAt .swap .cp with turns := [.eng] } t := ⟨_, step_eng rfl⟩

theorem witness_DirtyMarkCanBeLost :
    ((busyAt .design .cp).Inv ∧ (busyAt .swap .cp).Inv) ∧ (busyAt .design .cp).port = .cp ∧
    (busyAt .design .cp).phase = .design ∧ (busyAt .swap .cp).phase = .swap ∧
    1 < (busyAt .design .cp).params.numBands ∧
    (busyAt .design .cp).num.isNaN ((busyAt .design .cp).num.ofBits32 0x40400000) = false :=
  ⟨⟨busy_inv .design (by decide) .cp, busy_inv .swap (by decide) .cp⟩, by decide, by decide, by decide, by decide,
    by decide +kernel⟩

theorem witness_RepeatedRebuildIsIdentical : 3 < (live cnv [0, 0, 0, 0] 0 .cp).params.numTaps := by decide

/-- Nothing to do: the engine is idle and neither master has a command. -/
def Quiet (s : State) : Prop := s.phase = .idle ∧ s.cp.pending = [] ∧ s.ap.pending = []

/-- A quiet machine steps, and stays quiet. -/
theorem quiet_step {s : State} (h : Quiet s) : ∃ t, step s = .next t ∧ Quiet t := by
  obtain ⟨h1, h2, h3⟩ := h
  obtain ⟨ts, n, e⟩ := nextTurn_state s
  have q : Quiet s.nextTurn.2 := by rw [e]; exact ⟨h1, h2, h3⟩
  have run : ∀ p, runPort p s.nextTurn.2 = .next s.nextTurn.2 := fun p => by
    rw [runPort]
    cases p <;> simp [State.fetch, q.2.1, q.2.2]
  rw [step]
  split
  · next u e => rw [e] at q run; exact ⟨u, run .cp, q⟩
  · next u e =>
    rw [e] at q run
    split
    · exact ⟨u, rfl, q⟩
    · exact ⟨u, run .ap, q⟩
  · next u e =>
    rw [e] at q
    exact ⟨u, by rw [State.engineStep, q.1], q⟩
  · next u e =>
    rw [e] at q
    exact ⟨u.resetEvent, rfl, rfl, q.2.1, q.2.2⟩

/-- The state after a step. -/
def after (s : State) : State :=
  match step s with
  | .next t => t
  | _ => s

/-- A rebuild in flight whose engine has the next three turns, and the states its three steps lead to. -/
def rebuilding : State := { busyAt .commit .cp with turns := [.eng, .eng, .eng] }
def rebuilding1 : State := State.engineStep { rebuilding with turns := [.eng, .eng] }
def rebuilding2 : State := State.engineStep { rebuilding1 with turns := [.eng] }
def rebuilt : State := State.engineStep { rebuilding2 with turns := [] }

/-- The run from there. -/
def rebuildRun : Nat → State
  | 0 => rebuilding
  | 1 => rebuilding1
  | 2 => rebuilding2
  | n + 3 => after^[n] rebuilt

theorem rebuilt_quiet (n : Nat) : Quiet (after^[n] rebuilt) := by
  induction n with
  | zero => exact ⟨rfl, rfl, rfl⟩
  | succ n ih =>
    obtain ⟨t, h1, h2⟩ := quiet_step ih
    rw [Function.iterate_succ_apply', after, h1]
    exact h2

theorem rebuildRun_execution : Execution rebuildRun := fun n => by
  match n with
  | 0 => exact step_eng rfl
  | 1 => exact step_eng (s := rebuilding1) rfl
  | 2 => exact step_eng (s := rebuilding2) rfl
  | n + 3 =>
    obtain ⟨t, h1, -⟩ := quiet_step (rebuilt_quiet n)
    show step (after^[n] rebuilt) = .next (after^[n + 1] rebuilt)
    rw [Function.iterate_succ_apply', after, h1]

theorem witness_NothingCancelsARebuild :
    (busyAt .swap .ap).Inv ∧ (busyAt .swap .ap).phase ≠ .idle ∧
    State.Steps { busyAt .swap .ap with turns := [.ap] } (busyAt .swap .ap) ∧
    ({ busyAt .swap .ap with turns := [.ap] }).nextTurn.1 = .ap :=
  ⟨busy_inv .swap (by decide) .ap, by decide, rfl, rfl⟩

theorem witness_EveryRebuildSwapsUnlessReset :
    Execution rebuildRun ∧ EngineFair rebuildRun ∧ (rebuildRun 0).Inv ∧ (rebuildRun 0).isUpdating = true := by
  refine ⟨rebuildRun_execution, fun n h => ?_, ?_, rfl⟩
  · match n with
    | 0 => exact ⟨0, Nat.le_refl _, rfl⟩
    | 1 => exact ⟨1, Nat.le_refl _, rfl⟩
    | 2 => exact ⟨2, Nat.le_refl _, rfl⟩
    | n + 3 => exact absurd (rebuilt_quiet n).1 h
  · have h := busy_inv .commit (by decide) .cp
    exact ⟨h.legal, h.shaped, h.kernelsCanonical, h.historiesCanonical, h.samplesFit, h.gainsInRange, h.updatingPhase,
      h.updatingConfigured, h.waitUpdating, h.rateNonneg, h.channelsConfigured, h.channelsBound, h.cursors,
      h.freqsPlanned, h.windowFilled,
      h.kernelsWritten, h.historiesWritten, h.krefActive, h.krefAgree, h.krefAbsent⟩

end Sys2Proof.Tests
end

/-! PROOF. The build parameters (rule R5): what each kind of move does to them, and that no step changes them. -/

namespace Sys2Proof.Machine

variable {s t : State}

@[simp] theorem State.nextTurn_params (s : State) : s.nextTurn.2.params = s.params := by
  obtain ⟨ts, n, e⟩ := nextTurn_state s
  rw [e]

@[simp] theorem State.resetEvent_params (s : State) : s.resetEvent.params = s.params := rfl

@[simp] theorem State.engineStep_params (s : State) : s.engineStep.params = s.params := by
  rw [State.engineStep]
  cases s.phase with
  | idle => rfl
  | commit => exact s.eCommit_params
  | design => exact s.eDesign_params
  | swap => exact s.eSwap_params

theorem fetch_params {p : PortId} {c : Command} {u : State} (h : s.fetch p = some (c, u)) : u.params = s.params := by
  obtain ⟨a, b, rfl⟩ := fetch_state h
  rfl

theorem exec_params {i : Instr} (h : exec i s = .next t) : t.params = s.params := by
  rcases exec_cases h with ⟨st, rw, u, rfl, -, -, -, -, -, hu, -⟩ | ⟨-, -, -, -, -, rfl⟩
  · rw [State.respond_params, hu]
  · rfl

theorem step_params (h : step s = .next t) : t.params = s.params := by
  rcases step_cases h with rfl | ⟨p, c, u, -, hf, hrun⟩ | ⟨-, rfl⟩ | ⟨-, rfl⟩
  · exact s.nextTurn_params
  · have hu : u.params = s.params := (fetch_params hf).trans s.nextTurn_params
    rcases hrun with rfl | ⟨i, -, hx⟩
    · rw [State.respond_params, hu]
    · rw [exec_params hx, hu]
  · rw [State.engineStep_params, State.nextTurn_params]
  · rw [State.resetEvent_params, State.nextTurn_params]

/-- Settles O54, by the moves that a step can be. -/
theorem parametersNeverChange : Obligations.ParametersNeverChange := fun _ _ => step_params

end Sys2Proof.Machine

/-! PROOF. What a command can do, and what the engine can do: one lemma each, from which the facts about every
step follow. -/

namespace Sys2Proof.Machine

variable {s t : State}

/-- Channel `ch` after PROC has put the sample `x` into its ring (rule R133). -/
def State.pushSample (s : State) (ch : Nat) (x : Word) : Channel :=
  { s.channel ch with
    hist := (s.channel ch).hist.write (s.channel ch).cur (cellOf s.params.sampleWidth x)
    cur := nextCursor s.params.numTaps (s.channel ch).cur }

/-- What executing a command can come to: an answer and nothing else, or the operation's one effect with the conditions
under which it happens (rules R112, R113, R130, R137, R151 and R153 to R158). -/
inductive State.Effect (s : State) : Instr → State → Prop where
  | answer (i : Instr) (st : Status) (rw : Word) : s.Effect i (s.respond st rw)
  | configure {nch : Nat} {sr : Word} (port : s.port = .cp) (rate : 0 < BitVec.toInt sr) (least : 1 ≤ nch)
      (most : nch ≤ s.params.maxChannels) (rest : s.isUpdating = false) :
      s.Effect (.begin_ nch sr) ((s.configure nch sr).claim.respond .ok 0)
  | release (port : s.port = .cp) (rest : s.isUpdating = false) :
      s.Effect .end_ ((State.clearKrefs { s with srate := 0, nchan := 0 }).respond .ok 0)
  | storeGain {n : Nat} {g : Word} (port : s.port = .cp) (band : n < s.params.numBands)
      (value : s.num.isNaN (s.num.ofBits32 g) = false) :
      s.Effect (.setg n g) ((s.storeGain n (s.num.ofBits32 g)).respond .ok 0)
  | storeNormalised {n : Nat} {v : Word} (port : s.port = .cp) (band : n < s.params.numBands)
      (value : s.num.isNaN (s.num.ofBits32 v) = false) :
      s.Effect (.setgn n v) ((s.storeGain n (normalisedGain s.num (s.num.ofBits32 v))).respond .ok 0)
  | setAuto {en : Bool} (port : s.port = .cp) : s.Effect (.setauto en) (State.respond { s with autoUpdate := en } .ok 0)
  | claim {force : Bool} (port : s.port = .cp) (configured : s.configured = true) (rest : s.isUpdating = false)
      (needed : force = true ∨ s.gainsDirty = true) : s.Effect (.update force) (s.claim.respond .ok 1)
  | hold (port : s.port = .ap) (configured : s.configured = true) (rest : s.isUpdating = false)
      (needed : s.gainsDirty = true) : s.Effect .block { s.claim with apWait := true }
  | filter {ch : Nat} {x rw : Word} (port : s.port = .ap) (present : ch < s.nchan)
      (assigned : (s.channel ch).kref.valid = true) :
      s.Effect (.proc ch x) ((s.setChannel ch (s.pushSample ch x)).respond .ok rw)

theorem effect_of_failed {i : Instr} (h : s.FailedInto t) : s.Effect i t := by
  obtain ⟨st, -, rfl⟩ := h
  exact .answer i st 0

theorem effect_of_answered {i : Instr} {p : PortId} (h : s.FailedInto t ∨ (s.port = p ∧ ∃ rw, t = s.respond .ok rw)) :
    s.Effect i t := by
  rcases h with h | ⟨-, rw, rfl⟩
  · exact effect_of_failed h
  · exact .answer i .ok rw

/-- Every command has one of those effects. -/
theorem exec_effect {i : Instr} (h : exec i s = .next t) : s.Effect i t := by
  cases i with
  | nop => exact execNop_next h ▸ .answer _ _ _
  | begin_ nch sr =>
    rcases execBegin_next h with h | ⟨hp, hsr, h1, hn, hu, rfl⟩
    · exact effect_of_failed h
    · exact .configure hp hsr h1 hn hu
  | end_ =>
    rcases execEnd_next h with h | ⟨hp, hu, rfl⟩
    · exact effect_of_failed h
    · exact .release hp hu
  | setg n g =>
    rcases execSetg_next h with h | ⟨hp, hn, hg, rfl⟩
    · exact effect_of_failed h
    · exact .storeGain hp hn hg
  | setgn n v =>
    rcases execSetgn_next h with h | ⟨hp, hn, hv, rfl⟩
    · exact effect_of_failed h
    · exact .storeNormalised hp hn hv
  | getg sel n => exact effect_of_answered (execGetg_next h)
  | getf n => exact effect_of_answered (execGetf_next h)
  | update force =>
    rcases execUpdate_next h with h | ⟨hp, hc, hu, hd, rfl⟩
    · exact effect_of_failed h
    · exact .claim hp hc hu hd
  | setauto en =>
    rcases execSetauto_next h with h | ⟨hp, rfl⟩
    · exact effect_of_failed h
    · exact .setAuto hp
  | rdcsr r => exact effect_of_answered (execRdcsr_next h)
  | krd ksel n => exact effect_of_answered (execKrd_next h)
  | block =>
    rcases execBlock_next h with h | h | ⟨hp, hc, hu, hd, rfl⟩
    · exact effect_of_failed h
    · exact effect_of_answered (.inr h)
    · exact .hold hp hc hu hd
  | proc ch x =>
    rcases execProc_next h with h | h | ⟨hp, hch, hv, rw, rfl⟩
    · exact effect_of_failed h
    · exact effect_of_answered (.inr h)
    · exact .filter hp hch hv

/-- The engine's step is the one its phase enables (rule R115). -/
theorem engineStep_cases (s : State) :
    (s.phase = .idle ∧ s.engineStep = s) ∨ (s.phase = .commit ∧ s.engineStep = s.eCommit) ∨
    (s.phase = .design ∧ s.engineStep = s.eDesign) ∨ (s.phase = .swap ∧ s.engineStep = s.eSwap) := by
  rw [State.engineStep]
  cases s.phase with
  | idle => exact .inl ⟨rfl, rfl⟩
  | commit => exact .inr (.inl ⟨rfl, rfl⟩)
  | design => exact .inr (.inr (.inl ⟨rfl, rfl⟩))
  | swap => exact .inr (.inr (.inr ⟨rfl, rfl⟩))

end Sys2Proof.Machine

/-! PROOF. The reset state (rule R33): its values, and that it meets the invariant. -/

namespace Sys2Proof.Machine

theorem resetOf_band {p : Params} {i : Nat} (k : Nat) (h : i < p.numBands) :
    (State.resetOf p k).band i = ⟨p.num.fconst 0 1, p.num.fconst 0 1, p.num.fconst 0 1⟩ := by
  simp [State.band, State.resetOf, List.getD_eq_getElem?_getD, h]

/-- No channel has a kernel after reset, nor has one that is not there. -/
@[simp] theorem resetOf_channel_valid (p : Params) (k ch : Nat) :
    ((State.resetOf p k).channel ch).kref.valid = false := by
  simp only [State.channel, State.resetOf, List.getD_eq_getElem?_getD, List.getElem?_map]
  cases (List.range p.maxChannels)[ch]? <;> rfl

theorem resetOf_hist {p : Params} {k : Nat} {c : Channel} (h : c ∈ (State.resetOf p k).channels) : c.hist = [] := by
  obtain ⟨ch, -, rfl⟩ := List.mem_map.mp h
  rfl

theorem resetOf_inv {p : Params} (k : Nat) (hp : p.Legal) : (State.resetOf p k).Inv where
  legal := hp
  shaped := by simp [State.Shaped, State.resetOf]
  kernelsCanonical := ⟨List.Pairwise.nil, List.Pairwise.nil⟩
  historiesCanonical := fun c hc => by
    rw [resetOf_hist hc]
    exact List.Pairwise.nil
  samplesFit := fun c hc => by
    rw [resetOf_hist hc]
    exact nofun
  gainsInRange := fun b hb => by
    obtain ⟨-, ⟨val, hs⟩, -⟩ := hp
    rw [List.eq_of_mem_replicate hb]
    exact ⟨hs.zero_in_range, hs.zero_in_range⟩
  updatingPhase := ⟨nofun, fun h => absurd rfl h⟩
  updatingConfigured := nofun
  waitUpdating := nofun
  rateNonneg := Int.le_refl 0
  channelsConfigured := ⟨nofun, nofun⟩
  channelsBound := Nat.zero_le _
  cursors := nofun
  freqsPlanned := nofun
  windowFilled := nofun
  kernelsWritten := nofun
  historiesWritten := nofun
  krefActive := fun ch h => absurd ((resetOf_channel_valid p k ch).symm.trans h) nofun
  krefAgree := nofun
  krefAbsent := fun ch _ => resetOf_channel_valid p k ch

/-- Settles O45: every clause speaks of what reset clears, or is about a machine that is configured or updating. -/
theorem resetMeetsTheInvariant : Obligations.ResetMeetsTheInvariant := fun _ k => resetOf_inv k

/-- Settles O44, from the reset state's definition. -/
theorem resetValues : Obligations.ResetValues := fun p k =>
  ⟨fun _ => resetOf_band k, rfl, rfl, rfl, rfl, rfl, rfl, resetOf_channel_valid p k, rfl, rfl⟩

end Sys2Proof.Machine

/-! PROOF. The values that the machine's updates write are those the invariant asks for: tables of the right length,
samples of `W` bits, cursors inside the ring, gains in range. -/

namespace Sys2Proof.Machine

/-- A band plan has one frequency for each band (rules R80 and R81). -/
theorem bandPlan_length {F : Type} (num : Num F) (sr : Int) (n : Nat) : (bandPlan num sr n).length = n := by
  unfold bandPlan
  split
  · next h => simp [h]
  · simp

theorem window_length {F : Type} (num : Num F) (t : Nat) : (window num t).length = t := by simp [window]

/-- A stored sample has no bits above the sample width (rule R44). -/
theorem cellOf_lt (w : SampleWidth) (x : Word) : (cellOf w x).toNat < 2 ^ w.bits := by
  rw [cellOf, BitVec.toNat_setWidth]
  exact (Nat.mod_le _ _).trans_lt (BitVec.isLt _)

theorem nextCursor_lt {t : Nat} (c : Nat) (h : 0 < t) : nextCursor t c < t := Nat.mod_lt _ h

/-- A write leaves no element unwritten that was written. -/
theorem Memory.isSome_read_write {w : Nat} {m : Memory w} {j : Nat} (i : Nat) (v : BitVec w)
    (h : (m.read j).isSome = true) : ((m.write i v).read j).isSome = true := by
  rw [Memory.read_write]
  split
  · rfl
  · exact h

theorem Memory.isSome_read_writeAll {w : Nat} (m : Memory w) (f : Nat → BitVec w) {t n : Nat} (h : n < t) :
    ((m.writeAll f t).read n).isSome = true := by
  rw [Memory.read_writeAll, if_pos h, Option.isSome_some]

/-- Frequencies taken in from a plan of the right length are that plan (rule R151). -/
theorem map_freq_mapIdx_getD (l : List Band) (plan : List Flt) (h : plan.length = l.length) :
    (l.mapIdx fun i b => { b with freq := plan.getD i b.freq }).map Band.freq = plan := by
  apply List.ext_getElem
  · simp [h]
  · intro i h1 h2
    simp [h2]

/-- After a gain has been stored, every band is an old one but for that gain (rules R154 and R155). -/
theorem State.storeGain_mem {s : State} {i : Nat} {g : Flt} {b : Band} (h : b ∈ (s.storeGain i g).bands) :
    ∃ d ∈ s.bands, b.gc = d.gc ∧ (b.gp = d.gp ∨ b.gp = gclamp s.num g) := by
  obtain ⟨n, hn, rfl⟩ := List.mem_iff_getElem.mp h
  simp only [State.storeGain_bands, List.length_modify] at hn
  refine ⟨s.bands[n], List.getElem_mem hn, ?_⟩
  simp only [State.storeGain_bands, List.getElem_modify]
  split
  · exact ⟨rfl, .inr rfl⟩
  · exact ⟨rfl, .inl rfl⟩

theorem State.storeGain_freqs (s : State) (i : Nat) (g : Flt) :
    (s.storeGain i g).bands.map Band.freq = s.bands.map Band.freq := by
  rw [State.storeGain_bands]
  apply List.ext_getElem
  · simp
  · intro n h1 h2
    simp only [List.getElem_map, List.getElem_modify]
    split <;> rfl

end Sys2Proof.Machine

/-! PROOF. Channel by channel, what the updates of the channels do. -/

namespace Sys2Proof.Machine

variable {s : State}

@[simp] theorem State.clearKrefs_channel_valid (s : State) (ch : Nat) :
    (s.clearKrefs.channel ch).kref.valid = false := by rw [State.clearKrefs_channel]

@[simp] theorem State.clearHistories_channel_kref (s : State) (nch ch : Nat) :
    ((s.clearHistories nch).channel ch).kref = (s.channel ch).kref := by
  simp only [State.channel, State.clearHistories, List.getD_eq_getElem?_getD, List.getElem?_mapIdx]
  cases s.channels[ch]? with
  | none => rfl
  | some c =>
    show (if ch < nch then _ else _ : Channel).kref = c.kref
    split <;> rfl

/-- BEGIN does to the channels what its two loops do (rule R151). -/
theorem State.configure_channel (s : State) (nch : Nat) (sr : Word) (ch : Nat) :
    (s.configure nch sr).channel ch = (s.clearKrefs.clearHistories nch).channel ch := rfl

/-- BEGIN leaves no channel with a kernel (rule R151). -/
@[simp] theorem State.configure_channel_valid (s : State) (nch : Nat) (sr : Word) (ch : Nat) :
    ((s.configure nch sr).channel ch).kref.valid = false := by
  rw [State.configure_channel, State.clearHistories_channel_kref, State.clearKrefs_channel_valid]

/-- A channel that BEGIN makes exist starts with an empty ring (rule R151). -/
theorem State.configure_channel_below {nch ch : Nat} (sr : Word) (h : ch < nch) (hl : ch < s.channels.length) :
    ((s.configure nch sr).channel ch).cur = 0 ∧
    ((s.configure nch sr).channel ch).hist = (s.channel ch).hist.writeAll (fun _ => 0) s.params.numTaps := by
  rw [State.configure_channel, State.clearHistories_channel _ _ _ (by simpa using hl), if_pos h,
    State.clearKrefs_channel]
  exact ⟨rfl, rfl⟩

/-- Every ring after BEGIN is an old one, or an old one that has been zeroed. -/
theorem State.configure_hist {nch : Nat} {sr : Word} {c : Channel} (h : c ∈ (s.configure nch sr).channels) :
    ∃ d ∈ s.channels, c.hist = d.hist ∨ c.hist = d.hist.writeAll (fun _ => 0) s.params.numTaps := by
  obtain ⟨i, hi, rfl⟩ := List.mem_mapIdx.mp (show c ∈ (s.clearKrefs.clearHistories nch).channels from h)
  obtain ⟨d, hd, e⟩ := List.mem_map.mp (List.getElem_mem hi)
  refine ⟨d, hd, ?_⟩
  simp only [← e]
  split
  · exact .inr rfl
  · exact .inl rfl

/-- Assigning a kernel leaves ring and cursor alone. -/
theorem State.assignKrefs_channel_ring (s : State) (b : Buffer) (ch : Nat) :
    ((s.assignKrefs b).channel ch).hist = (s.channel ch).hist ∧
    ((s.assignKrefs b).channel ch).cur = (s.channel ch).cur := by
  simp only [State.channel, State.assignKrefs, List.getD_eq_getElem?_getD, List.getElem?_mapIdx]
  cases s.channels[ch]? with
  | none => exact ⟨rfl, rfl⟩
  | some c =>
    show (if ch < s.nchan then _ else _ : Channel).hist = c.hist ∧ (if ch < s.nchan then _ else _ : Channel).cur = c.cur
    split <;> exact ⟨rfl, rfl⟩

theorem State.assignKrefs_hist {b : Buffer} {c : Channel} (h : c ∈ (s.assignKrefs b).channels) :
    ∃ d ∈ s.channels, c.hist = d.hist := by
  obtain ⟨i, hi, rfl⟩ := List.mem_mapIdx.mp h
  refine ⟨s.channels[i], List.getElem_mem hi, ?_⟩
  split <;> rfl

/-- E-DESIGN writes the staging buffer and no other (rule R117). -/
theorem State.eDesign_kmem (s : State) (b : Buffer) :
    s.eDesign.kmem b = if b = s.asel.other then
      (s.kmem s.asel.other).writeAll (fun n => s.designed.getD n 0) s.params.numTaps else s.kmem b := by
  have e : s.eDesign.kmem b = (s.setKmem s.asel.other
      ((s.kmem s.asel.other).writeAll (fun n => s.designed.getD n 0) s.params.numTaps)).kmem b := by cases b <;> rfl
  rw [e]
  split
  · next h => rw [h, State.setKmem_kmem_same]
  · next h => exact s.setKmem_kmem_other _ h

theorem State.configure_channels_length (s : State) (nch : Nat) (sr : Word) :
    (s.configure nch sr).channels.length = s.channels.length := by simp [State.configure, State.clearHistories]

theorem State.channel_mem {ch : Nat} (h : ch < s.channels.length) : s.channel ch ∈ s.channels := by
  simp [State.channel, List.getD_eq_getElem?_getD, h]

end Sys2Proof.Machine

/-! PROOF. The invariant of rule R31: every update of the state that a step makes keeps it. -/

namespace Sys2Proof.Machine

variable {s t : State}

/-- A channel that exists is in the register file. -/
theorem State.Inv.channel_lt (h : s.Inv) {ch : Nat} (hch : ch < s.nchan) : ch < s.channels.length := by
  obtain ⟨-, -, hl⟩ := h.shaped
  exact hl ▸ hch.trans_le h.channelsBound

theorem State.Inv.sound (h : s.Inv) : ∃ val, s.num.Sound val := by
  obtain ⟨-, hs, -⟩ := h.legal
  exact hs

theorem State.Inv.taps_pos (h : s.Inv) : 0 < s.params.numTaps := by
  obtain ⟨⟨-, -, ht, -⟩, -⟩ := h.legal
  omega

/-- A channel exists only while the machine is configured (rule R17). -/
theorem State.Inv.configured_of_channel (h : s.Inv) {ch : Nat} (hch : ch < s.nchan) : s.configured = true :=
  h.channelsConfigured.mp (Nat.zero_lt_of_lt hch)

/-- The invariant says nothing of the dirty mark, the mode, the ports or the turns. -/
theorem State.Inv.outside (h : s.Inv) (d a : Bool) (p : PortId) (c₁ c₂ : Port) (ts : List Turn) (n : Nat) :
    State.Inv { s with gainsDirty := d, autoUpdate := a, port := p, cp := c₁, ap := c₂, turns := ts, freeCount := n } :=
  { h with }

theorem State.Inv.respond (h : s.Inv) (st : Status) (rw : Word) : (s.respond st rw).Inv := h.outside ..

theorem State.Inv.nextTurn (h : s.Inv) : s.nextTurn.2.Inv := by
  obtain ⟨ts, n, e⟩ := nextTurn_state s
  exact e ▸ h.outside ..

theorem State.Inv.fetch {p : PortId} {c : Command} (h : s.Inv) (hf : s.fetch p = some (c, t)) : t.Inv := by
  obtain ⟨a, b, rfl⟩ := fetch_state hf
  exact h.outside ..

/-- A rebuild may be claimed while configured (rule R112). -/
theorem State.Inv.claim (h : s.Inv) (hc : s.configured = true) : s.claim.Inv :=
  { h with
    updatingPhase := ⟨fun _ => nofun, fun _ => rfl⟩
    updatingConfigured := fun _ => hc
    waitUpdating := fun _ => rfl }

/-- The hold that BLOCK sets with its claim (rule R137). -/
theorem State.Inv.hold (h : s.Inv) (hu : s.isUpdating = true) : State.Inv { s with apWait := true } :=
  { h with waitUpdating := fun _ => hu }

/-- Storing any value that is no NaN: the clamp brings it into range (rule R13). -/
theorem State.Inv.storeGain (h : s.Inv) (i : Nat) {g : Flt} (hg : s.num.isNaN g = false) : (s.storeGain i g).Inv :=
  { h with
    shaped := by
      obtain ⟨hb, hw, hl⟩ := h.shaped
      exact ⟨by simpa using hb, hw, hl⟩
    gainsInRange := fun b hb => by
      obtain ⟨val, hs⟩ := h.sound
      obtain ⟨d, hd, ec, ep⟩ := State.storeGain_mem hb
      obtain ⟨hp, hc⟩ := h.gainsInRange d hd
      rcases ep with ep | ep
      · exact ⟨ep ▸ hp, ec ▸ hc⟩
      · exact ⟨ep ▸ gainInRange_gclamp hs hg, ec ▸ hc⟩
    freqsPlanned := fun hc => (s.storeGain_freqs i g).trans (h.freqsPlanned hc) }

/-- What BEGIN writes before it requests the rebuild (rule R151). -/
theorem State.Inv.configure (h : s.Inv) {nch : Nat} {sr : Word} (hsr : 0 < BitVec.toInt sr) (h1 : 1 ≤ nch)
    (hn : nch ≤ s.params.maxChannels) : (s.configure nch sr).Inv := by
  obtain ⟨hb, hw, hl⟩ := h.shaped
  have hc : (s.configure nch sr).configured = true := (configured_iff _).mpr hsr
  have below := fun ch (hch : ch < nch) => State.configure_channel_below (s := s) sr hch (hl ▸ hch.trans_le hn)
  exact { h with
    shaped := ⟨by simpa using hb, by simp [window_length], by simpa [State.configure_channels_length] using hl⟩
    kernelsCanonical := ⟨Memory.wf_writeAll _ _ _ h.kernelsCanonical.1, Memory.wf_writeAll _ _ _ h.kernelsCanonical.2⟩
    historiesCanonical := fun c hc => by
      obtain ⟨d, hd, e | e⟩ := State.configure_hist hc
      · exact e ▸ h.historiesCanonical d hd
      · exact e ▸ Memory.wf_writeAll _ _ _ (h.historiesCanonical d hd)
    samplesFit := fun c hc e he => by
      obtain ⟨d, hd, eq | eq⟩ := State.configure_hist hc
      · exact h.samplesFit d hd e (eq ▸ he)
      · rcases Memory.mem_writeAll _ _ _ (eq ▸ he) with he | ⟨n, -, rfl⟩
        · exact h.samplesFit d hd e he
        · exact Nat.two_pow_pos _
    gainsInRange := fun b hb => by
      obtain ⟨i, hi, rfl⟩ := List.mem_mapIdx.mp hb
      exact h.gainsInRange s.bands[i] (List.getElem_mem _)
    updatingConfigured := fun _ => hc
    rateNonneg := hsr.le
    channelsConfigured := ⟨fun _ => hc, fun _ => h1⟩
    channelsBound := hn
    cursors := fun ch hch => (below ch hch).1 ▸ h.taps_pos
    freqsPlanned := fun _ => map_freq_mapIdx_getD _ _ ((bandPlan_length ..).trans hb.symm)
    windowFilled := fun _ => rfl
    kernelsWritten := fun _ b n hn => by
      cases b with
      | bufA => exact Memory.isSome_read_writeAll _ _ hn
      | bufB => exact Memory.isSome_read_writeAll _ _ hn
    historiesWritten := fun ch hch j hj => (below ch hch).2 ▸ Memory.isSome_read_writeAll _ _ hj
    krefActive := fun ch hv => absurd ((s.configure_channel_valid nch sr ch).symm.trans hv) nofun
    krefAgree := fun ch _ => (s.configure_channel_valid nch sr ch).trans (s.configure_channel_valid nch sr 0).symm
    krefAbsent := fun ch _ => s.configure_channel_valid nch sr ch }

/-- What END writes (rule R153). -/
theorem State.Inv.release (h : s.Inv) (hu : s.isUpdating = false) :
    (State.clearKrefs { s with srate := 0, nchan := 0 }).Inv := by
  obtain ⟨hb, hw, hl⟩ := h.shaped
  have invalid := State.clearKrefs_channel_valid { s with srate := 0, nchan := 0 }
  exact { h with
    shaped := ⟨hb, hw, by simpa using hl⟩
    historiesCanonical := fun c hc => by
      obtain ⟨d, hd, rfl⟩ := List.mem_map.mp hc
      exact h.historiesCanonical d hd
    samplesFit := fun c hc => by
      obtain ⟨d, hd, rfl⟩ := List.mem_map.mp hc
      exact h.samplesFit d hd
    updatingConfigured := fun e => absurd (hu.symm.trans e) nofun
    rateNonneg := Int.le_refl 0
    channelsConfigured := ⟨nofun, nofun⟩
    channelsBound := Nat.zero_le _
    cursors := nofun
    freqsPlanned := nofun
    windowFilled := nofun
    kernelsWritten := nofun
    historiesWritten := nofun
    krefActive := fun ch hv => absurd ((invalid ch).symm.trans hv) nofun
    krefAgree := nofun
    krefAbsent := fun ch _ => invalid ch }

/-- What PROC writes: a sample at the cursor, and the next cursor (rule R133). -/
theorem State.Inv.filter (h : s.Inv) {ch : Nat} (x : Word) (hch : ch < s.nchan) :
    (s.setChannel ch (s.pushSample ch x)).Inv := by
  have hlt := h.channel_lt hch
  obtain ⟨hb, hw, hl⟩ := h.shaped
  have pushed := fun k => s.setChannel_channel (s.pushSample ch x) k hlt
  have kref : ∀ k, ((s.setChannel ch (s.pushSample ch x)).channel k).kref = (s.channel k).kref := fun k => by
    rw [pushed k]
    split
    · next e => exact e ▸ rfl
    · rfl
  exact { h with
    shaped := ⟨hb, hw, by simpa using hl⟩
    historiesCanonical := fun c hc => by
      rcases List.mem_or_eq_of_mem_set hc with hc | rfl
      · exact h.historiesCanonical c hc
      · exact Memory.wf_write _ _ _ (h.historiesCanonical _ (State.channel_mem hlt))
    samplesFit := fun c hc e he => by
      rcases List.mem_or_eq_of_mem_set hc with hc | rfl
      · exact h.samplesFit c hc e he
      · rcases Memory.mem_write _ _ _ he with rfl | he
        · exact cellOf_lt _ x
        · exact h.samplesFit _ (State.channel_mem hlt) e he
    cursors := fun k hk => by
      rw [pushed k]
      split
      · exact nextCursor_lt _ h.taps_pos
      · exact h.cursors k hk
    historiesWritten := fun k hk j hj => by
      rw [pushed k]
      split
      · exact Memory.isSome_read_write _ _ (h.historiesWritten ch hch j hj)
      · exact h.historiesWritten k hk j hj
    krefActive := fun k hv => by
      rw [kref] at hv ⊢
      exact h.krefActive k hv
    krefAgree := fun k hk => by
      rw [kref, kref]
      exact h.krefAgree k hk
    krefAbsent := fun k hk => by
      rw [kref]
      exact h.krefAbsent k hk }

/-- E-COMMIT (rule R116). -/
theorem State.Inv.eCommit (h : s.Inv) (hph : s.phase = .commit) : s.eCommit.Inv := by
  obtain ⟨hb, hw, hl⟩ := h.shaped
  exact { h with
    shaped := ⟨by simpa using hb, hw, hl⟩
    gainsInRange := fun b hb => by
      obtain ⟨d, hd, rfl⟩ := List.mem_map.mp hb
      obtain ⟨hp, -⟩ := h.gainsInRange d hd
      exact ⟨hp, hp⟩
    updatingPhase := ⟨fun _ => nofun, fun _ => h.updatingPhase.mpr (hph ▸ nofun)⟩
    freqsPlanned := fun hc => by
      rw [State.eCommit_bands, List.map_map]
      exact h.freqsPlanned hc }

/-- E-DESIGN (rule R117). -/
theorem State.Inv.eDesign (h : s.Inv) (hph : s.phase = .design) : s.eDesign.Inv := by
  have written : ∀ b, s.eDesign.kmem b = s.kmem b ∨
      ∃ f, s.eDesign.kmem b = (s.kmem b).writeAll f s.params.numTaps := fun b => by
    rw [State.eDesign_kmem]
    split
    · next e => exact .inr ⟨_, by rw [e]⟩
    · exact .inl rfl
  have canonical : ∀ b, (s.kmem b).wf → (s.eDesign.kmem b).wf := fun b hb => by
    rcases written b with e | ⟨f, e⟩
    · exact e ▸ hb
    · exact e ▸ Memory.wf_writeAll _ _ _ hb
  exact { h with
    kernelsCanonical := ⟨canonical .bufA h.kernelsCanonical.1, canonical .bufB h.kernelsCanonical.2⟩
    updatingPhase := ⟨fun _ => nofun, fun _ => h.updatingPhase.mpr (hph ▸ nofun)⟩
    kernelsWritten := fun hc b n hn => by
      rcases written b with e | ⟨f, e⟩
      · exact e ▸ h.kernelsWritten hc b n hn
      · exact e ▸ Memory.isSome_read_writeAll _ _ hn }

/-- E-SWAP (rule R118). -/
theorem State.Inv.eSwap (h : s.Inv) : s.eSwap.Inv := by
  obtain ⟨hb, hw, hl⟩ := h.shaped
  have ring := s.assignKrefs_channel_ring s.asel.other
  have below : ∀ ch < s.nchan, (s.eSwap.channel ch).kref = ⟨true, s.asel.other⟩ := fun ch hch =>
    (congrArg Channel.kref (s.assignKrefs_channel s.asel.other ch (h.channel_lt hch))).trans (by rw [if_pos hch])
  have above : ∀ ch, s.nchan ≤ ch → (s.eSwap.channel ch).kref.valid = false := fun ch hch =>
    (congrArg (·.kref.valid) (s.assignKrefs_channel_above s.asel.other ch hch)).trans (h.krefAbsent ch hch)
  exact { h with
    shaped := ⟨hb, hw, by simpa using hl⟩
    historiesCanonical := fun c hc => by
      obtain ⟨d, hd, e⟩ := State.assignKrefs_hist hc
      exact e ▸ h.historiesCanonical d hd
    samplesFit := fun c hc => by
      obtain ⟨d, hd, e⟩ := State.assignKrefs_hist hc
      exact e ▸ h.samplesFit d hd
    updatingPhase := ⟨nofun, fun e => absurd rfl e⟩
    updatingConfigured := nofun
    waitUpdating := nofun
    cursors := fun ch hch => (ring ch).2 ▸ h.cursors ch hch
    historiesWritten := fun ch hch => (ring ch).1 ▸ h.historiesWritten ch hch
    krefActive := fun ch hv => by
      rcases Nat.lt_or_ge ch s.nchan with hch | hch
      · rw [below ch hch]
        rfl
      · exact absurd ((above ch hch).symm.trans hv) nofun
    krefAgree := fun ch hch => by rw [below ch hch, below 0 (Nat.zero_lt_of_lt hch)]
    krefAbsent := above }

/-! ### Commands, the engine, reset, and the step -/

theorem State.Inv.exec {i : Instr} (h : s.Inv) (hx : exec i s = .next t) : t.Inv := by
  cases exec_effect hx with
  | answer => exact h.respond ..
  | configure _ hsr h1 hn => exact ((h.configure hsr h1 hn).claim ((configured_iff _).mpr hsr)).respond ..
  | release _ hu => exact (h.release hu).respond ..
  | storeGain _ _ hg => exact (h.storeGain _ hg).respond ..
  | storeNormalised _ _ hv =>
    obtain ⟨val, hs⟩ := h.sound
    exact (h.storeGain _ (normalisedGain_notNaN hs hv)).respond ..
  | setAuto => exact h.outside ..
  | claim _ hc => exact (h.claim hc).respond ..
  | hold _ hc => exact (h.claim hc).hold rfl
  | filter _ hch => exact (h.filter _ hch).respond ..

theorem State.Inv.engineStep (h : s.Inv) : s.engineStep.Inv := by
  rcases engineStep_cases s with ⟨-, e⟩ | ⟨hph, e⟩ | ⟨hph, e⟩ | ⟨-, e⟩ <;> rw [e]
  · exact h
  · exact h.eCommit hph
  · exact h.eDesign hph
  · exact h.eSwap

theorem State.Inv.resetEvent (h : s.Inv) : s.resetEvent.Inv := (resetOf_inv s.freeCount h.legal).outside ..

/-- Settles O46: whoever moves, each of the moves that a step can be keeps the invariant. -/
theorem everyStepKeepsTheInvariant : Obligations.EveryStepKeepsTheInvariant := by
  intro s t h hstep
  rcases step_cases hstep with rfl | ⟨p, c, u, -, hf, hrun⟩ | ⟨-, rfl⟩ | ⟨-, rfl⟩
  · exact h.nextTurn
  · have hu : u.Inv := h.nextTurn.fetch hf
    rcases hrun with rfl | ⟨i, -, hx⟩
    · exact hu.respond ..
    · exact hu.exec hx
  · exact h.nextTurn.engineStep
  · exact h.nextTurn.resetEvent

end Sys2Proof.Machine

/-! PROOF. No step of a state that meets the invariant stops (rule R33): what PROC and KRD read has been written. -/

namespace Sys2Proof.Machine

variable {s : State}

/-- A meaning that goes on: it answers neither a fault nor a refusal. -/
def Proceeds (o : Host.Outcome State Fault Refusal) : Prop := ∃ t, o = .next t

theorem respond_proceeds (st : Status) (rw : Word) (s : State) : Proceeds (respond st rw s) := ⟨_, respond_eq st rw s⟩
theorem raiseErr_proceeds (st : Status) (s : State) : Proceeds (raiseErr st s) := ⟨_, raiseErr_eq st s⟩

theorem onPort_proceeds {p : PortId} {body : Host.Outcome State Fault Refusal} (h : Proceeds body) :
    Proceeds (onPort p s body) := by
  rw [onPort]
  split
  · exact h
  · exact raiseErr_proceeds _ s

/-- A check that raises an error goes on if what follows it does. -/
theorem check_proceeds {c : Prop} [Decidable c] {st : Status} {o : Host.Outcome State Fault Refusal}
    (h : ¬ c → Proceeds o) : Proceeds (if c then raiseErr st s else o) := by
  split
  · exact raiseErr_proceeds st s
  · next hc => exact h hc

/-- Over a ring and a kernel that have been written the multiply-accumulate reads no unwritten element. -/
theorem macOver_ok_of_written {w : SampleWidth} {t c : Nat} {hist : Memory 32} {b : Buffer} {kern : Memory 16}
    (hh : ∀ j < t, (hist.read j).isSome = true) (hk : ∀ j < t, (kern.read j).isSome = true) (acc : Int) :
    ∃ r, macOver w t c hist b kern (List.range t) acc = .ok r := by
  refine ⟨_, macOver_eq_sum (x := fun k => ((hist.read (ringPos t c k)).map (sampleOf w)).getD 0)
    (k := fun k => ((kern.read k).map coeffValue).getD 0) _ acc (fun k hm => ?_) (fun k hm => ?_)⟩
  · have ht : 0 < t := Nat.zero_lt_of_lt (List.mem_range.mp hm)
    obtain ⟨v, hv⟩ := Option.isSome_iff_exists.mp (hh _ (ringPos_lt (c := c) (k := k) ht))
    exact ⟨v, hv, by rw [hv]; rfl⟩
  · obtain ⟨v, hv⟩ := Option.isSome_iff_exists.mp (hk k (List.mem_range.mp hm))
    exact ⟨v, hv, by rw [hv]; rfl⟩

theorem execKrd_proceeds (h : s.Inv) (ksel : KSel) (n : Nat) : Proceeds (execKrd ksel n s) := by
  refine onPort_proceeds (check_proceeds fun hn => check_proceeds fun hc => check_proceeds fun _ => ?_)
  obtain ⟨v, hv⟩ := Option.isSome_iff_exists.mp
    (h.kernelsWritten ((Bool.not_eq_false _).mp hc) (s.selected ksel) n (Nat.not_le.mp hn))
  rw [hv]
  exact respond_proceeds ..

theorem execProc_proceeds (h : s.Inv) (ch : Nat) (x : Word) : Proceeds (execProc ch x s) := by
  refine onPort_proceeds (check_proceeds fun hn => ?_)
  split
  · exact respond_proceeds ..
  · have hch : ch < s.nchan := Nat.not_le.mp hn
    obtain ⟨r, hr⟩ := macOver_ok_of_written (w := s.params.sampleWidth) (c := (s.channel ch).cur)
      (b := (s.channel ch).kref.sel) (fun j hj => Memory.isSome_read_write (s.channel ch).cur
        (cellOf s.params.sampleWidth x) (h.historiesWritten ch hch j hj))
      (h.kernelsWritten (h.configured_of_channel hch) (s.channel ch).kref.sel) 0
    dsimp only
    rw [hr]
    exact respond_proceeds ..

theorem execUpdate_proceeds (force : Bool) (s : State) : Proceeds (execUpdate force s) := by
  refine onPort_proceeds ?_
  rcases rebuildRequest_cases force s with ⟨e, -⟩ | ⟨e, -⟩ | ⟨e, -⟩ | ⟨e, -⟩ <;> rw [e]
  · exact raiseErr_proceeds ..
  · exact raiseErr_proceeds ..
  · exact raiseErr_proceeds ..
  · exact respond_proceeds ..

theorem execBlock_proceeds (s : State) : Proceeds (execBlock s) := by
  refine onPort_proceeds ?_
  split
  · exact respond_proceeds ..
  · rcases rebuildRequest_cases false s with ⟨e, -⟩ | ⟨e, -⟩ | ⟨e, -⟩ | ⟨e, -⟩ <;> rw [e]
    · exact respond_proceeds ..
    · exact respond_proceeds ..
    · exact respond_proceeds ..
    · exact ⟨_, rfl⟩

theorem exec_proceeds (h : s.Inv) (i : Instr) : Proceeds (exec i s) := by
  cases i with
  | nop => exact respond_proceeds ..
  | begin_ nch sr =>
    exact onPort_proceeds (check_proceeds fun _ => check_proceeds fun _ => check_proceeds fun _ => respond_proceeds ..)
  | end_ => exact onPort_proceeds (check_proceeds fun _ => respond_proceeds ..)
  | setg n g => exact onPort_proceeds (check_proceeds fun _ => check_proceeds fun _ => respond_proceeds ..)
  | setgn n v => exact onPort_proceeds (check_proceeds fun _ => check_proceeds fun _ => respond_proceeds ..)
  | getg sel n => exact onPort_proceeds (check_proceeds fun _ => respond_proceeds ..)
  | getf n => exact onPort_proceeds (check_proceeds fun _ => respond_proceeds ..)
  | update force => exact execUpdate_proceeds force s
  | setauto en => exact onPort_proceeds (respond_proceeds ..)
  | rdcsr r => exact onPort_proceeds (check_proceeds fun _ => respond_proceeds ..)
  | krd ksel n => exact execKrd_proceeds h ksel n
  | block => exact execBlock_proceeds s
  | proc ch x => exact execProc_proceeds h ch x

theorem runPort_proceeds (h : s.Inv) (p : PortId) : Proceeds (runPort p s) := by
  rw [runPort]
  split
  · exact ⟨s, rfl⟩
  · next c u hf =>
    split
    · exact raiseErr_proceeds ..
    · next i _ => exact exec_proceeds (h.fetch hf) i

/-- Settles O47: a port's command goes on, and every other move does so without a condition. -/
theorem noStepStops : Obligations.NoStepStops := by
  intro s h
  have hu := h.nextTurn
  show Proceeds (step s)
  rw [step]
  split
  · next u e => exact runPort_proceeds (by rwa [e] at hu) .cp
  · next u e =>
    split
    · exact ⟨u, rfl⟩
    · exact runPort_proceeds (by rwa [e] at hu) .ap
  · exact ⟨_, rfl⟩
  · exact ⟨_, rfl⟩

end Sys2Proof.Machine

/-! PROOF. What the moves leave alone: the kernels that channels refer to (rule R53), the gains (rules R11 to R14) and
the dirty mark (rule R19). -/

namespace Sys2Proof.Machine

variable {s t : State}

/-! ### Kernels -/

/-- A command writes no kernel, or it is BEGIN, after which no channel has one (rule R151). -/
theorem exec_kmem {i : Instr} (h : exec i s = .next t) :
    (∀ b, t.kmem b = s.kmem b) ∨ ∀ ch, (t.channel ch).kref.valid = false := by
  cases exec_effect h with
  | configure => exact .inr fun ch => s.configure_channel_valid _ _ ch
  | answer | release | storeGain | storeNormalised | setAuto | claim | hold | filter =>
    exact .inl fun b => by cases b <;> rfl

/-- The engine never writes the active kernel (rule R119). -/
theorem engineStep_kmem_active (s : State) : s.engineStep.kmem s.asel = s.kmem s.asel := by
  rcases engineStep_cases s with ⟨-, e⟩ | ⟨-, e⟩ | ⟨-, e⟩ | ⟨-, e⟩ <;> rw [e]
  · cases s.asel <;> rfl
  · rw [State.eDesign_kmem, if_neg (Buffer.other_ne _).symm]
  · cases s.asel <;> rfl

theorem nextTurn_kmem (s : State) (b : Buffer) : s.nextTurn.2.kmem b = s.kmem b := by
  obtain ⟨ts, n, e⟩ := nextTurn_state s
  rw [e]
  cases b <;> rfl

theorem nextTurn_asel (s : State) : s.nextTurn.2.asel = s.asel := by
  obtain ⟨ts, n, e⟩ := nextTurn_state s
  rw [e]

theorem fetch_kmem {p : PortId} {c : Command} (h : s.fetch p = some (c, t)) (b : Buffer) : t.kmem b = s.kmem b := by
  obtain ⟨_, _, rfl⟩ := fetch_state h
  cases b <;> rfl

/-- Settles O48: a valid reference names the active buffer, which only BEGIN and reset write, and both leave no valid
reference. -/
theorem referencedKernelIsNeverWritten : Obligations.ReferencedKernelIsNeverWritten := by
  intro s t ch h hstep hv
  rw [h.krefActive ch hv]
  rcases step_cases hstep with rfl | ⟨p, c, u, -, hf, hrun⟩ | ⟨-, rfl⟩ | ⟨-, rfl⟩
  · exact .inl (nextTurn_kmem s _)
  · have hu : ∀ b, u.kmem b = s.kmem b := fun b => (fetch_kmem hf b).trans (nextTurn_kmem s b)
    rcases hrun with rfl | ⟨i, -, hx⟩
    · exact .inl ((u.respond_kmem ..).trans (hu _))
    · exact (exec_kmem hx).imp_left fun e => (e _).trans (hu _)
  · refine .inl ?_
    rw [← nextTurn_asel, engineStep_kmem_active, nextTurn_kmem]
  · exact .inr fun c => resetOf_channel_valid _ _ c

/-! ### Gains -/

theorem State.configure_band_gains (s : State) (nch : Nat) (sr : Word) (n : Nat) :
    ((s.configure nch sr).band n).gp = (s.band n).gp ∧ ((s.configure nch sr).band n).gc = (s.band n).gc := by
  simp only [State.band, State.configure_bands, List.getD_eq_getElem?_getD, List.getElem?_mapIdx]
  cases s.bands[n]? <;> exact ⟨rfl, rfl⟩

theorem State.storeGain_band_gc (s : State) (i : Nat) (g : Flt) (n : Nat) :
    ((s.storeGain i g).band n).gc = (s.band n).gc := by
  simp only [State.band, State.storeGain_bands, List.getD_eq_getElem?_getD, List.getElem?_modify]
  cases s.bands[n]? with
  | none => rfl
  | some b =>
    show (if i = n then _ else _ : Band).gc = b.gc
    split <;> rfl

/-- No command changes a committed gain (rule R14). -/
theorem exec_gc {i : Instr} (h : exec i s = .next t) (n : Nat) : (t.band n).gc = (s.band n).gc := by
  cases exec_effect h with
  | configure => exact (s.configure_band_gains _ _ n).2
  | storeGain | storeNormalised => exact s.storeGain_band_gc _ _ n
  | answer | release | setAuto | claim | hold | filter => rfl

/-- No command but SETG and SETGN changes a pending gain (rule R13). -/
theorem exec_gp {i : Instr} (h : exec i s = .next t) (h1 : ∀ n g, i ≠ .setg n g) (h2 : ∀ n v, i ≠ .setgn n v)
    (n : Nat) : (t.band n).gp = (s.band n).gp := by
  cases exec_effect h with
  | configure => exact (s.configure_band_gains _ _ n).1
  | storeGain => exact absurd rfl (h1 _ _)
  | storeNormalised => exact absurd rfl (h2 _ _)
  | answer | release | setAuto | claim | hold | filter => rfl

/-- Settles O52, by the effects that a command and an engine step can have. -/
theorem gainsChangeOnlyWhereSaid : Obligations.GainsChangeOnlyWhereSaid := by
  refine ⟨fun i s t h => ⟨exec_gc h, exec_gp h⟩, fun s hph => ?_⟩
  rcases engineStep_cases s with ⟨-, e⟩ | ⟨hc, -⟩ | ⟨-, e⟩ | ⟨-, e⟩
  · rw [e]
  · exact absurd hc hph
  · rw [e, State.eDesign_bands]
  · rw [e, State.eSwap_bands]

/-- A gain in range is no NaN, and lies strictly beyond neither bound (rule R154). -/
theorem gclamp_of_inRange {F : Type} {num : Num F} {val : F → EReal} (hs : num.Sound val) {g : F}
    (h : gainInRange num g = true) : num.isNaN g = false ∧ gclamp num g = g := by
  obtain ⟨hlo, hhi⟩ := (gainInRange_iff num g).mp h
  have hn := fle_notNaN_left hs hhi
  refine ⟨hn, ?_⟩
  rcases gclamp_cases num g with ⟨e, -⟩ | ⟨-, e, -⟩ | ⟨-, -, e⟩
  · rw [flt_eq_not_fle hs hn (fle_notNaN_left hs hlo), hlo] at e
    cases e
  · rw [flt_eq_not_fle hs (fle_notNaN_right hs hhi) hn, hhi] at e
    cases e
  · exact e

/-- Settles O16, by the laws of the clamp and of the image of a normalised value. -/
theorem storedGainsAreInRange : Obligations.StoredGainsAreInRange := fun _ _ _ hs =>
  ⟨fun _ => gainInRange_gclamp hs, fun _ => gclamp_of_inRange hs,
    fun _ hv => gainInRange_gclamp hs (normalisedGain_notNaN hs hv)⟩

/-! ### The dirty mark -/

/-- A command leaves the dirty mark, or is a control-port command that sets it (rule R19). -/
theorem exec_gainsDirty {i : Instr} (h : exec i s = .next t) :
    t.gainsDirty = s.gainsDirty ∨ (s.port = .cp ∧ t.gainsDirty = true) := by
  cases exec_effect h with
  | storeGain hp | storeNormalised hp => exact .inr ⟨hp, rfl⟩
  | answer | configure | release | setAuto | claim | hold | filter => exact .inl rfl

/-- An engine step leaves the dirty mark, or is E-SWAP, which clears it (rule R118). -/
theorem engineStep_gainsDirty (s : State) :
    s.engineStep.gainsDirty = s.gainsDirty ∨ (s.phase = .swap ∧ s.engineStep.gainsDirty = false) := by
  rcases engineStep_cases s with ⟨-, e⟩ | ⟨-, e⟩ | ⟨-, e⟩ | ⟨hph, e⟩ <;> rw [e]
  · exact .inl rfl
  · exact .inl s.eCommit_gainsDirty
  · exact .inl s.eDesign_gainsDirty
  · exact .inr ⟨hph, s.eSwap_gainsDirty⟩

/-- What a step can do to the dirty mark, and whose step it is (rules R19, R118 and R190). -/
theorem step_gainsDirty (h : step s = .next t) :
    t.gainsDirty = s.gainsDirty ∨ (s.nextTurn.1 = .cp ∧ t.gainsDirty = true) ∨
    (((s.nextTurn.1 = .eng ∧ s.phase = .swap) ∨ s.nextTurn.1 = .reset) ∧ t.gainsDirty = false) := by
  obtain ⟨ts, n, e⟩ := nextTurn_state s
  rcases step_cases h with rfl | ⟨p, c, u, hp, hf, hrun⟩ | ⟨ht, rfl⟩ | ⟨ht, rfl⟩
  · exact .inl (by rw [e])
  · rw [e] at hf
    obtain ⟨_, _, rfl⟩ := fetch_state hf
    rcases hrun with rfl | ⟨i, -, hx⟩
    · exact .inl rfl
    · rcases exec_gainsDirty hx with hd | ⟨rfl, hd⟩
      · exact .inl hd
      · rcases hp with ⟨ht, -⟩ | ⟨-, hp, -⟩
        · exact .inr (.inl ⟨ht, hd⟩)
        · cases hp
  · rw [e]
    rcases engineStep_gainsDirty { s with turns := ts, freeCount := n } with hd | ⟨hph, hd⟩
    · exact .inl hd
    · exact .inr (.inr ⟨.inl ⟨ht, hph⟩, hd⟩)
  · exact .inr (.inr ⟨.inr ht, rfl⟩)

/-- Settles O53: the mark changes by a step of one kind only in each direction. -/
theorem dirtyMarkChangesOnlyWhereSaid : Obligations.DirtyMarkChangesOnlyWhereSaid := by
  intro s t h
  rcases step_gainsDirty h with e | ⟨hcp, e⟩ | ⟨hw, e⟩ <;> rw [e]
  · exact ⟨fun h1 h2 => absurd (h1.symm.trans h2) nofun, fun h1 h2 => absurd (h1.symm.trans h2) nofun⟩
  · exact ⟨nofun, fun _ _ => hcp⟩
  · exact ⟨fun _ _ => hw, nofun⟩

end Sys2Proof.Machine

/-! PROOF. Whose turn it is decides what a step is (rules R50 and R61), one equation per agent; and what a port's move
is, by what its master has to present. -/

namespace Sys2Proof.Machine

variable {s u : State}

theorem nextTurn_of_turns {a : Turn} {ts : List Turn} (h : s.turns = a :: ts) :
    s.nextTurn = (a, { s with turns := ts }) := by rw [State.nextTurn, h]

theorem step_of_cpTurn (e : s.nextTurn = (.cp, u)) : step s = runPort .cp u := by rw [step, e]

theorem step_of_apTurn (e : s.nextTurn = (.ap, u)) : step s = if u.apWait then .next u else runPort .ap u := by
  rw [step, e]

theorem step_of_engTurn (e : s.nextTurn = (.eng, u)) : step s = .next u.engineStep := by rw [step, e]

theorem step_of_resetTurn (e : s.nextTurn = (.reset, u)) : step s = .next u.resetEvent := by rw [step, e]

theorem runPort_of_decodes {p : PortId} {c : Command} {i : Instr} (hf : s.fetch p = some (c, u))
    (hd : decodeCommand c.cw c.aw = .ok i) : runPort p s = exec i u := by rw [runPort, hf]; dsimp only; rw [hd]

theorem runPort_of_nothing {p : PortId} (h : (s.portOf p).pending = []) : runPort p s = .next s := by
  rcases s.fetch_cases p with ⟨hf, -⟩ | ⟨c, cs, hc, -⟩
  · rw [runPort, hf]
  · rw [h] at hc
    cases hc

theorem fetch_cp_of_pending {c : Command} {cs : List Command} (h : s.cp.pending = c :: cs) :
    s.fetch .cp = some (c, { s with cp := { s.cp with pending := cs }, port := .cp }) := by
  simp only [State.fetch, h]

theorem fetch_ap_of_pending {c : Command} {cs : List Command} (h : s.ap.pending = c :: cs) :
    s.fetch .ap = some (c, { s with ap := { s.ap with pending := cs }, port := .ap }) := by
  simp only [State.fetch, h]

/-- Settles O7: the turn selects the port's move, and the move runs the command at the head of its queue. -/
theorem stepRunsTheNextCommand : Obligations.StepRunsTheNextCommand := by
  refine ⟨fun s ts c cs i ht hc hd => ?_, fun s ts c cs i ht hw hc hd => ?_, fun s ts ht hc => ?_, fun s ts ht hc => ?_⟩
  · rw [step_of_cpTurn (nextTurn_of_turns ht)]
    exact runPort_of_decodes (fetch_cp_of_pending hc) hd
  · rw [step_of_apTurn (nextTurn_of_turns ht), if_neg (Bool.eq_false_iff.mp hw)]
    exact runPort_of_decodes (fetch_ap_of_pending hc) hd
  · rw [step_of_cpTurn (nextTurn_of_turns ht)]
    exact runPort_of_nothing hc
  · rw [step_of_apTurn (nextTurn_of_turns ht)]
    split
    · rfl
    · exact runPort_of_nothing hc

end Sys2Proof.Machine

/-! PROOF. A rebuild in flight (rules R51, R57 and R115): the ports leave it alone, each engine step brings it nearer
to E-SWAP, and only E-SWAP and reset end it. -/

namespace Sys2Proof.Machine

variable {s t : State}

/-! ### One step -/

/-- The rebuild stands where it stood: phase, mark of the update, and hold of the audio port. -/
structure State.KeepsRebuild (s t : State) : Prop where
  phase : t.phase = s.phase
  isUpdating : t.isUpdating = s.isUpdating
  apWait : t.apWait = s.apWait

theorem nextTurn_keepsRebuild (s : State) : s.KeepsRebuild s.nextTurn.2 := by
  obtain ⟨ts, n, e⟩ := nextTurn_state s
  rw [e]
  exact ⟨rfl, rfl, rfl⟩

theorem fetch_keepsRebuild {p : PortId} {c : Command} (h : s.fetch p = some (c, t)) : s.KeepsRebuild t := by
  obtain ⟨a, b, rfl⟩ := fetch_state h
  exact ⟨rfl, rfl, rfl⟩

theorem respond_keepsRebuild (s : State) (st : Status) (rw : Word) : s.KeepsRebuild (s.respond st rw) := ⟨rfl, rfl, rfl⟩

theorem State.KeepsRebuild.trans {u : State} (h1 : s.KeepsRebuild t) (h2 : t.KeepsRebuild u) : s.KeepsRebuild u :=
  ⟨h2.phase.trans h1.phase, h2.isUpdating.trans h1.isUpdating, h2.apWait.trans h1.apWait⟩

/-- While a rebuild is in flight no command touches it: those that would start one find it in flight (rules R112 and
R151). -/
theorem exec_keepsRebuild {i : Instr} (h : exec i s = .next t) (hu : s.isUpdating = true) : s.KeepsRebuild t := by
  cases exec_effect h with
  | configure _ _ _ _ rest | claim _ _ rest | hold _ _ rest => exact absurd (hu.symm.trans rest) nofun
  | answer | release | storeGain | storeNormalised | setAuto | filter => exact ⟨rfl, rfl, rfl⟩

theorem step_keepsRebuild (h : step s = .next t) (hu : s.isUpdating = true) (heng : s.nextTurn.1 ≠ .eng)
    (hreset : s.nextTurn.1 ≠ .reset) : s.KeepsRebuild t := by
  have hn := nextTurn_keepsRebuild s
  rcases step_cases h with rfl | ⟨p, c, v, -, hf, hrun⟩ | ⟨ht, -⟩ | ⟨ht, -⟩
  · exact hn
  · have hv := hn.trans (fetch_keepsRebuild hf)
    rcases hrun with rfl | ⟨i, -, hx⟩
    · exact hv.trans (respond_keepsRebuild ..)
    · exact hv.trans (exec_keepsRebuild hx (hv.isUpdating.trans hu))
  · exact absurd ht heng
  · exact absurd ht hreset

/-- Settles O57: the invariant says that the rebuild is marked as in flight, and then no port's command touches it. -/
theorem nothingCancelsARebuild : Obligations.NothingCancelsARebuild := by
  intro s t hi hph h heng hreset
  have hu := hi.updatingPhase.mpr hph
  have hk := step_keepsRebuild h hu heng hreset
  exact ⟨hk.phase, hk.isUpdating.trans hu, hk.apWait⟩

/-- How many engine steps a rebuild still needs (rule R115). -/
def Phase.stepsLeft : Phase → Nat
  | .idle => 0
  | .commit => 3
  | .design => 2
  | .swap => 1

/-- An engine step ends the rebuild, if it is E-SWAP, or brings it nearer to its end (rule R115). -/
theorem engineStep_advances (h : s.phase ≠ .idle) :
    (s.phase = .swap ∧ s.engineStep.isUpdating = false ∧ s.engineStep.apWait = false) ∨
    (s.engineStep.isUpdating = s.isUpdating ∧ s.engineStep.phase.stepsLeft < s.phase.stepsLeft) := by
  rcases engineStep_cases s with ⟨hp, -⟩ | ⟨hp, e⟩ | ⟨hp, e⟩ | ⟨hp, e⟩
  · exact absurd hp h
  · rw [e, hp, s.eCommit_phase]
    exact .inr ⟨rfl, by decide⟩
  · rw [e, hp, s.eDesign_phase]
    exact .inr ⟨rfl, by decide⟩
  · rw [e]
    exact .inl ⟨hp, rfl, rfl⟩

/-- The step from this state ends a rebuild: it is E-SWAP or the reset event (rules R118 and R190). -/
def State.EndsRebuild (s : State) : Prop := (s.nextTurn.1 = .eng ∧ s.phase = .swap) ∨ s.nextTurn.1 = .reset

/-- What a step can do to a rebuild in flight, and whose step it is. -/
theorem step_rebuild_cases (h : step s = .next t) (hi : s.Inv) (hu : s.isUpdating = true) :
    (s.EndsRebuild ∧ t.isUpdating = false ∧ t.apWait = false) ∨
    (t.isUpdating = true ∧ t.phase.stepsLeft < s.phase.stepsLeft) ∨
    (s.nextTurn.1 ≠ .eng ∧ t.isUpdating = true ∧ t.phase = s.phase) := by
  have hn := nextTurn_keepsRebuild s
  by_cases hreset : s.nextTurn.1 = .reset
  · rw [step_of_resetTurn (Prod.ext hreset rfl)] at h
    cases h
    exact .inl ⟨.inr hreset, rfl, rfl⟩
  by_cases heng : s.nextTurn.1 = .eng
  · rw [step_of_engTurn (Prod.ext heng rfl)] at h
    cases h
    rcases engineStep_advances (hn.phase ▸ hi.updatingPhase.mp hu) with ⟨hp, he⟩ | ⟨hv, hlt⟩
    · exact .inl ⟨.inl ⟨heng, hn.phase ▸ hp⟩, he⟩
    · exact .inr (.inl ⟨hv.trans (hn.isUpdating.trans hu), hn.phase ▸ hlt⟩)
  · have hk := step_keepsRebuild h hu heng hreset
    exact .inr (.inr ⟨heng, hk.isUpdating.trans hu, hk.phase⟩)

/-! ### Runs -/

variable {tr : Nat → State}

/-- A run that starts in a state that meets the invariant is safe (rule R31). -/
theorem Execution.safeRun (hx : Execution tr) (h : (tr 0).Inv) : SafeRun tr := by
  intro n
  induction n with
  | zero => exact h
  | succ n ih => exact everyStepKeepsTheInvariant _ _ ih (hx n)

/-- From instant `n` on a rebuild is in flight until a step ends it, and with it the hold of the audio port. -/
def RebuildEnds (tr : Nat → State) (n : Nat) : Prop :=
  ∃ m, n ≤ m ∧ (∀ k, n ≤ k → k ≤ m → (tr k).isUpdating = true) ∧ (tr m).EndsRebuild ∧
    (tr (m + 1)).isUpdating = false ∧ (tr (m + 1)).apWait = false

theorem rebuildEnds_now {n : Nat} (hu : (tr n).isUpdating = true) (he : (tr n).EndsRebuild)
    (h : (tr (n + 1)).isUpdating = false ∧ (tr (n + 1)).apWait = false) : RebuildEnds tr n :=
  ⟨n, Nat.le_refl n, fun _ h1 h2 => Nat.le_antisymm h1 h2 ▸ hu, he, h⟩

theorem rebuildEnds_of_succ {n : Nat} (hu : (tr n).isUpdating = true) : RebuildEnds tr (n + 1) → RebuildEnds tr n := by
  rintro ⟨m, hm, hfly, he⟩
  refine ⟨m, Nat.le_of_succ_le hm, fun k h1 h2 => ?_, he⟩
  rcases Nat.eq_or_lt_of_le h1 with rfl | h1
  · exact hu
  · exact hfly k h1 h2

/-- One step of the argument: if every rebuild nearer to its end does end, then this one does, or it is left as it is by
a step that is not the engine's. -/
theorem rebuildEnds_or_kept (hx : Execution tr) (hs : SafeRun tr) {n : Nat} (hu : (tr n).isUpdating = true)
    (ih : ∀ k, (tr k).isUpdating = true → (tr k).phase.stepsLeft < (tr n).phase.stepsLeft → RebuildEnds tr k) :
    RebuildEnds tr n ∨
      ((tr n).nextTurn.1 ≠ .eng ∧ (tr (n + 1)).isUpdating = true ∧ (tr (n + 1)).phase = (tr n).phase) := by
  rcases step_rebuild_cases (hx n) (hs n) hu with ⟨he, h⟩ | ⟨hv, hlt⟩ | hkept
  · exact .inl (rebuildEnds_now hu he h)
  · exact .inl (rebuildEnds_of_succ hu (ih _ hv hlt))
  · exact .inr hkept

/-- If the engine has a turn `d` steps on, the rebuild cannot be left as it is until then. -/
theorem rebuildEnds_of_engineTurn (hx : Execution tr) (hs : SafeRun tr) {n d : Nat} (hu : (tr n).isUpdating = true)
    (heng : (tr (n + d)).nextTurn.1 = .eng)
    (ih : ∀ k, (tr k).isUpdating = true → (tr k).phase.stepsLeft < (tr n).phase.stepsLeft → RebuildEnds tr k) :
    RebuildEnds tr n := by
  induction d generalizing n with
  | zero => exact (rebuildEnds_or_kept hx hs hu ih).resolve_right fun ⟨hne, _⟩ => hne heng
  | succ d ihd =>
    rcases rebuildEnds_or_kept hx hs hu ih with h | ⟨-, hv, hp⟩
    · exact h
    · exact rebuildEnds_of_succ hu (ihd hv (by rwa [Nat.add_right_comm]) (by rwa [hp]))

/-- Settles O58, by induction on the engine steps that the rebuild still needs: fairness gives the engine its next
turn. -/
theorem everyRebuildSwapsUnlessReset : Obligations.EveryRebuildSwapsUnlessReset := by
  intro tr hx hf h0 n hu
  have hs := hx.safeRun h0
  show RebuildEnds tr n
  induction hk : (tr n).phase.stepsLeft using Nat.strong_induction_on generalizing n with
  | _ k ih =>
    obtain ⟨m, hnm, heng⟩ := hf n ((hs n).updatingPhase.mp hu)
    obtain ⟨d, rfl⟩ := Nat.exists_eq_add_of_le hnm
    exact rebuildEnds_of_engineTurn hx hs hu heng fun j hj hlt => ih _ (hk ▸ hlt) j hj rfl

end Sys2Proof.Machine

/-! PROOF. The command encoding (rules R62 to R71): what a word must be to decode, that decoding and encoding are each
other's inverse, and that the decoder is the table of rule R63. -/

namespace Sys2Proof

/-! ### From a command to its words and back -/

/-- The number in a well-formed index operand survives the field `IDX` (rules R62 and R65). -/
theorem mod_of_fitsIdx {n : Nat} (h : fitsIdx n = true) : n % 65536 = n := Nat.mod_eq_of_lt (of_decide_eq_true h)

theorem decodeCommand_encode {i : Instr} (h : i.wellFormed = true) :
    decodeCommand (encode i).cw (encode i).aw = .ok i := by
  cases i with
  | nop | end_ | block | update | setauto => simp [encode, decodeCommand, checkFields_ok]
  | begin_ n | setg n | setgn n | getg _ n | getf n | rdcsr n | krd _ n | proc n =>
    have hn : n % 65536 = n := mod_of_fitsIdx h
    simp [encode, decodeCommand, checkFields_ok, hn]

/-- The decoder on bytes reads the words whose byte lanes come first (rules R42 and R71). -/
theorem decodeBytes_wordBytes {cw aw : Word} {i : Instr} (h : decodeCommand cw aw = .ok i) (rest : List Byte) :
    decodeBytes (wordBytes cw ++ wordBytes aw ++ rest) = .ok (i, rest) := by
  simp [decodeBytes, wordBytes, h]

/-- Settles O2: each operation's fields are read back from its command word, and the words from their byte lanes. -/
theorem decodeEncodeRoundTrip : Obligations.DecodeEncodeRoundTrip := fun _ h =>
  ⟨decodeCommand_encode h, decodeBytes_wordBytes (decodeCommand_encode h)⟩

/-- A command that the decoder reads is well formed and has those words, but for an argument word it ignores. -/
theorem encode_of_decodeCommand {cw aw : Word} {i : Instr} (h : decodeCommand cw aw = .ok i) :
    i.wellFormed = true ∧ (encode i).cw = cw ∧ (i.usesArgument = true → (encode i).aw = aw) := by
  have fits : fitsIdx (idxField cw).toNat = true := decide_eq_true (idxField cw).isLt
  dsimp only [decodeCommand] at h
  split at h
  case h_14 => cases h
  all_goals
    obtain ⟨rfl, hr, hf, hx⟩ := checkFields_ok.mp h
    have ho := opcField_of_toNat ‹_›
  -- no operand in the command word: NOP, END, BLOCK
  case h_1 | h_3 | h_12 =>
    exact ⟨rfl, commandWord_of_fields ho (fn_of_undefined hf) hr (congrArg BitVec.toNat (hx rfl)), nofun⟩
  -- an index, with an argument word: BEGIN, SETG, SETGN, PROC; and without: GETF, RDCSR
  case h_2 | h_4 | h_5 | h_13 =>
    exact ⟨fits, commandWord_of_fields ho (fn_of_undefined hf) hr rfl, fun _ => rfl⟩
  case h_7 | h_10 => exact ⟨fits, commandWord_of_fields ho (fn_of_undefined hf) hr rfl, nofun⟩
  -- a flag: UPDATE, SETAUTO
  case h_8 | h_9 =>
    exact ⟨rfl, commandWord_of_fields ho (fnOfFlag_of_undefined hf).symm hr (congrArg BitVec.toNat (hx rfl)), nofun⟩
  -- a flag or a selector with an index: GETG, KRD
  case h_6 => exact ⟨fits, commandWord_of_fields ho (fnOfFlag_of_undefined hf).symm hr rfl, nofun⟩
  case h_11 => exact ⟨fits, commandWord_of_fields ho (fnOfKsel_of_undefined hf).symm hr rfl, nofun⟩

/-- Settles O3, operation by operation: the checks leave no bit of the command word open. -/
theorem encodeDecodeRoundTrip : Obligations.EncodeDecodeRoundTrip := fun _ _ _ => encode_of_decodeCommand

/-! ### Which words decode (rule R69) -/

/-- An opcode that no operation has. -/
abbrev ReservedOpcode (opc : BitVec 4) : Prop := opc = 0xB ∨ opc = 0xE ∨ opc = 0xF

/-- The `FN` bits that the operation with this opcode defines. -/
def definedFn (opc : BitVec 4) : BitVec 4 :=
  if opc = 5 ∨ opc = 7 ∨ opc = 8 then 1 else if opc = 0xA then 3 else 0

/-- Whether the operation with this opcode has an index: it is not of shape Z or F. -/
def indexed (opc : BitVec 4) : Bool := decide ¬(opc = 0 ∨ opc = 2 ∨ opc = 0xC ∨ opc = 7 ∨ opc = 8)

theorem indexed_eq_false_iff (opc : BitVec 4) :
    indexed opc = false ↔ opc = 0 ∨ opc = 2 ∨ opc = 0xC ∨ opc = 7 ∨ opc = 8 := by
  rw [indexed, decide_eq_false_iff_not, not_not]

/-- A command word with none of the four faults of rule R69. -/
def LegalWord (cw : Word) : Prop :=
  ¬ ReservedOpcode (opcField cw) ∧ rsvField cw = 0 ∧ fnField cw &&& ~~~definedFn (opcField cw) = 0 ∧
    (indexed (opcField cw) = false → idxField cw = 0)

theorem not_legalWord_iff (cw : Word) :
    ¬ LegalWord cw ↔ ReservedOpcode (opcField cw) ∨ rsvField cw ≠ 0 ∨ fnField cw &&& ~~~definedFn (opcField cw) ≠ 0 ∨
      (indexed (opcField cw) = false ∧ idxField cw ≠ 0) := by
  unfold LegalWord
  tauto

/-- The decoder rejects a reserved opcode, and checks the rest of every other word by its opcode alone. -/
theorem decodeCommand_cases (cw aw : Word) :
    (ReservedOpcode (opcField cw) ∧ decodeCommand cw aw = .error .reservedOpcode) ∨
    (¬ ReservedOpcode (opcField cw) ∧ ∃ i, decodeCommand cw aw =
      checkFields (definedFn (opcField cw)) (indexed (opcField cw)) cw i) := by
  dsimp only [decodeCommand]
  split
  case h_14 =>
    have hn : (opcField cw).toNat = 11 ∨ (opcField cw).toNat = 14 ∨ (opcField cw).toNat = 15 := by
      simp only [imp_false] at *
      omega
    exact .inl ⟨hn.imp opcField_of_toNat (Or.imp opcField_of_toNat opcField_of_toNat), rfl⟩
  all_goals
    rw [opcField_of_toNat ‹_›]
    exact .inr ⟨by decide, _, rfl⟩

/-- The words that decode are the legal ones. -/
theorem decodes_iff_legalWord (cw aw : Word) : (∃ i, decodeCommand cw aw = .ok i) ↔ LegalWord cw := by
  rcases decodeCommand_cases cw aw with ⟨hr, e⟩ | ⟨hr, j, e⟩ <;> rw [e]
  · exact ⟨nofun, fun ⟨hn, _⟩ => absurd hr hn⟩
  · simp only [checkFields_ok, exists_eq_left', LegalWord]
    exact (and_iff_right hr).symm

/-- In every row of the table match and mask say what a legal word of that opcode is (rules R62 and R63). -/
theorem opTable_rows : ∀ r ∈ opTable, ¬ ReservedOpcode (opcField r.pattern) ∧
    r.pattern = commandWord (opcField r.pattern) 0 0 ∧ opcField r.mask = 15 ∧
    fnField r.mask = ~~~definedFn (opcField r.pattern) ∧ rsvField r.mask = 255 ∧
    idxField r.mask = if indexed (opcField r.pattern) then 0 else 65535 := by decide

/-- Every opcode that is not reserved has a row. -/
theorem exists_row : ∀ opc, ¬ ReservedOpcode opc → ∃ r ∈ opTable, opcField r.pattern = opc := by decide

theorem selects_iff_legalWord {r : OpRow} (hr : r ∈ opTable) (cw : Word) :
    r.selects cw = true ↔ LegalWord cw ∧ opcField cw = opcField r.pattern := by
  obtain ⟨hres, hp, h1, h2, h3, h4⟩ := opTable_rows r hr
  rw [selects_iff_fields cw hp h1 h2 h3 h4]
  constructor
  · rintro ⟨ho, fields⟩
    rw [← ho] at hres fields
    exact ⟨⟨hres, fields⟩, ho⟩
  · rintro ⟨⟨-, fields⟩, ho⟩
    rw [ho] at fields
    exact ⟨ho, fields⟩

/-- A word that no row selects is one with a fault (rules R63 and R69). -/
theorem no_row_selects_iff (cw : Word) : (∀ r ∈ opTable, r.selects cw = false) ↔ ¬ LegalWord cw := by
  constructor
  · intro h hl
    obtain ⟨r, hr, ho⟩ := exists_row _ hl.1
    exact absurd ((selects_iff_legalWord hr cw).mpr ⟨hl, ho.symm⟩) (Bool.eq_false_iff.mp (h r hr))
  · intro h r hr
    exact Bool.eq_false_iff.mpr fun hs => h ((selects_iff_legalWord hr cw).mp hs).1

/-- An operation's row is the one of its opcode. -/
theorem mnemonic_eq_iff_opcode {r : OpRow} (hr : r ∈ opTable) (i : Instr) :
    i.mnemonic = r.mnemonic ↔ opcField (encode i).cw = opcField r.pattern := by
  revert r
  cases i <;> simp only [encode, opcField_commandWord, Instr.mnemonic] <;> decide

/-- Settles O4: row and decoder accept the same words, the legal ones of that opcode. -/
theorem decoderAgreesWithTheTable : Obligations.DecoderAgreesWithTheTable := by
  refine ⟨fun cw aw r hr => ?_, fun cw aw i hd => ?_⟩
  · rw [selects_iff_legalWord hr, ← decodes_iff_legalWord cw aw]
    constructor
    · rintro ⟨⟨i, hd⟩, ho⟩
      obtain ⟨-, hcw, -⟩ := encode_of_decodeCommand hd
      exact ⟨i, hd, (mnemonic_eq_iff_opcode hr i).mpr (hcw ▸ ho)⟩
    · rintro ⟨i, hd, hm⟩
      obtain ⟨-, hcw, -⟩ := encode_of_decodeCommand hd
      exact ⟨⟨i, hd⟩, hcw ▸ (mnemonic_eq_iff_opcode hr i).mp hm⟩
  · obtain ⟨-, hcw, -⟩ := encode_of_decodeCommand hd
    obtain ⟨r, hr, ho⟩ := exists_row _ ((decodes_iff_legalWord cw aw).mp ⟨i, hd⟩).1
    exact ⟨r, hr, ((mnemonic_eq_iff_opcode hr i).mpr (hcw ▸ ho.symm)).symm⟩

/-- Settles O1, by decoding each word. -/
theorem vectorWordsDecode : Obligations.VectorWordsDecode := by
  unfold Obligations.VectorWordsDecode
  decide

end Sys2Proof

/-! PROOF. Which commands a port takes and what it does with the others (rules R64 and R69). -/

namespace Sys2Proof.Machine

variable {s t u : State}

/-! ### Ports that an update leaves alone -/

theorem State.portOf_congr (hcp : t.cp = s.cp) (hap : t.ap = s.ap) (p : PortId) : t.portOf p = s.portOf p := by
  cases p
  · exact hcp
  · exact hap

/-- Starting a rebuild and holding the audio port touches no port (rule R137). -/
theorem State.hold_portOf (s : State) (p : PortId) :
    ({ s.claim with apWait := true } : State).portOf p = s.portOf p := State.portOf_congr rfl rfl p

/-! ### Illegal words (rule R69) -/

theorem runPort_of_illegal {p : PortId} {c : Command} (hf : s.fetch p = some (c, u))
    (hc : ∀ r ∈ opTable, r.selects c.cw = false) : runPort p s = .next (u.respond .errIllegal 0) := by
  rw [runPort, hf]
  dsimp only
  split
  · rfl
  · next i hd => exact absurd ((decodes_iff_legalWord c.cw c.aw).mp ⟨i, hd⟩) ((no_row_selects_iff c.cw).mp hc)

/-- Settles O5: no row selects a word exactly when it has one of the four faults, and then it does not decode. -/
theorem illegalWordAnswersErrIllegal : Obligations.IllegalWordAnswersErrIllegal := by
  refine ⟨fun cw => ?_, fun s ts c cs ht hp hc => ?_, fun s ts c cs ht hw hp hc => ?_⟩
  · rw [no_row_selects_iff, not_legalWord_iff, indexed_eq_false_iff, definedFn]
  · rw [step_of_cpTurn (nextTurn_of_turns ht)]
    exact runPort_of_illegal (fetch_cp_of_pending hp) hc
  · rw [step_of_apTurn (nextTurn_of_turns ht), if_neg (Bool.eq_false_iff.mp hw)]
    exact runPort_of_illegal (fetch_ap_of_pending hp) hc

/-! ### Commands on the wrong port and on the right one (rule R64) -/

theorem acceptedOn_nop (p : PortId) : acceptedOn p .nop = true := by cases p <;> rfl

/-- What a port accepts, said by the opcode: once the operation is known, both sides are about one number. -/
theorem accepted_iff_opcode (p : PortId) (i : Instr) :
    (p = .cp ∧ opcField (encode i).cw ≤ 0xA) ∨
      (p = .ap ∧ (opcField (encode i).cw = 0 ∨ opcField (encode i).cw = 0xC ∨ opcField (encode i).cw = 0xD)) ↔
    acceptedOn p i = true := by
  cases p <;> cases i <;> simp only [encode, opcField_commandWord, acceptedOn] <;> decide

/-- Two ports that differ on an operation are different. -/
theorem port_ne_of_accepted {p q : PortId} {i : Instr} (hp : acceptedOn p i = false) (hq : acceptedOn q i = true) :
    p ≠ q := by
  rintro rfl
  exact absurd (hp.symm.trans hq) nofun

theorem exec_of_not_accepted {i : Instr} (h : acceptedOn s.port i = false) :
    exec i s = .next (s.respond .errIllegal 0) := by
  cases i with
  | nop => exact absurd (h.symm.trans (acceptedOn_nop s.port)) nofun
  | begin_ | end_ | setg | setgn | getg | getf | update | setauto | rdcsr | krd =>
    exact onPort_other (port_ne_of_accepted (q := .cp) h rfl) _
  | block | proc => exact onPort_other (port_ne_of_accepted (q := .ap) h rfl) _

/-- The answer that a meaning run from `s` gives, if it gives one, is not ERR_ILLEGAL. -/
def NeverIllegal (s : State) (o : Host.Outcome State Fault Refusal) : Prop :=
  ∀ t st rw, o = .next t → (t.portOf s.port).answers = ⟨st, rw⟩ :: (s.portOf s.port).answers → st ≠ .errIllegal

theorem respond_neverIllegal {st : Status} {rw : Word} (hst : st ≠ .errIllegal) (hport : u.port = s.port) :
    NeverIllegal s (respond st rw u) := by
  rintro t st' rw' h ha
  obtain rfl := (respond_next_iff ..).mp h
  rw [← hport, u.respond_answers] at ha
  obtain ⟨rfl, -⟩ := Answer.mk.inj (List.cons.inj ha).1
  exact hst

theorem check_neverIllegal {c : Prop} [Decidable c] {st : Status} {o : Host.Outcome State Fault Refusal}
    (hst : st ≠ .errIllegal) (h : NeverIllegal s o) : NeverIllegal s (if c then raiseErr st s else o) := by
  split
  · exact respond_neverIllegal hst rfl
  · exact h

theorem fault_neverIllegal (f : Fault) : NeverIllegal s (.fault f) := by
  rintro t st rw ⟨⟩

theorem onPort_neverIllegal {p : PortId} {body : Host.Outcome State Fault Refusal} (hp : s.port = p)
    (h : NeverIllegal s body) : NeverIllegal s (onPort p s body) := by rwa [onPort_same hp]

theorem rebuildRequest_port (force : Bool) (s : State) : (rebuildRequest force s).2.port = s.port := by
  rcases rebuildRequest_cases force s with ⟨e, -⟩ | ⟨e, -⟩ | ⟨e, -⟩ | ⟨e, -⟩ <;> rw [e]
  rfl

theorem execUpdate_neverIllegal (hp : s.port = .cp) (force : Bool) : NeverIllegal s (execUpdate force s) := by
  refine onPort_neverIllegal hp ?_
  rcases rebuildRequest_cases force s with ⟨e, -⟩ | ⟨e, -⟩ | ⟨e, -⟩ | ⟨e, -⟩ <;> rw [e]
  all_goals exact respond_neverIllegal nofun rfl

theorem execKrd_neverIllegal (hp : s.port = .cp) (ksel : KSel) (n : Nat) : NeverIllegal s (execKrd ksel n s) := by
  refine onPort_neverIllegal hp
    (check_neverIllegal nofun (check_neverIllegal nofun (check_neverIllegal nofun ?_)))
  split
  · exact fault_neverIllegal _
  · exact respond_neverIllegal nofun rfl

/-- BLOCK that starts a rebuild gives no answer yet (rule R137). -/
theorem hold_neverIllegal (s : State) : NeverIllegal s (.next { s.claim with apWait := true }) := by
  rintro t st rw ⟨⟩ ha
  rw [s.hold_portOf] at ha
  exact absurd ha.symm (List.cons_ne_self _ _)

theorem execBlock_neverIllegal (hp : s.port = .ap) : NeverIllegal s (execBlock s) := by
  refine onPort_neverIllegal hp ?_
  split
  · exact respond_neverIllegal nofun rfl
  · rcases rebuildRequest_cases false s with ⟨e, -⟩ | ⟨e, -⟩ | ⟨e, -⟩ | ⟨e, -⟩ <;> rw [e]
    · exact respond_neverIllegal nofun rfl
    · exact respond_neverIllegal nofun rfl
    · exact respond_neverIllegal nofun rfl
    · exact hold_neverIllegal s

theorem execProc_neverIllegal (hp : s.port = .ap) (ch : Nat) (x : Word) : NeverIllegal s (execProc ch x s) := by
  refine onPort_neverIllegal hp (check_neverIllegal nofun ?_)
  split
  · exact respond_neverIllegal nofun rfl
  · dsimp only
    split
    · exact fault_neverIllegal _
    · exact respond_neverIllegal nofun rfl

theorem eq_cp_of_accepted {p : PortId} {i : Instr} (h : acceptedOn p i = true) (hap : acceptedOn .ap i = false) :
    p = .cp := by
  cases p with
  | cp => rfl
  | ap => exact absurd (hap.symm.trans h) nofun

theorem eq_ap_of_accepted {p : PortId} {i : Instr} (h : acceptedOn p i = true) (hcp : acceptedOn .cp i = false) :
    p = .ap := by
  cases p with
  | cp => exact absurd (hcp.symm.trans h) nofun
  | ap => rfl

theorem exec_neverIllegal {i : Instr} (h : acceptedOn s.port i = true) : NeverIllegal s (exec i s) := by
  cases i with
  | nop => exact respond_neverIllegal nofun rfl
  | begin_ nch sr =>
    exact onPort_neverIllegal (eq_cp_of_accepted h rfl) (check_neverIllegal nofun (check_neverIllegal nofun
      (check_neverIllegal nofun (respond_neverIllegal nofun (rebuildRequest_port true _)))))
  | end_ =>
    exact onPort_neverIllegal (eq_cp_of_accepted h rfl) (check_neverIllegal nofun (respond_neverIllegal nofun rfl))
  | setg | setgn =>
    exact onPort_neverIllegal (eq_cp_of_accepted h rfl)
      (check_neverIllegal nofun (check_neverIllegal nofun (respond_neverIllegal nofun rfl)))
  | getg | getf | rdcsr =>
    exact onPort_neverIllegal (eq_cp_of_accepted h rfl) (check_neverIllegal nofun (respond_neverIllegal nofun rfl))
  | update force => exact execUpdate_neverIllegal (eq_cp_of_accepted h rfl) force
  | setauto => exact onPort_neverIllegal (eq_cp_of_accepted h rfl) (respond_neverIllegal nofun rfl)
  | krd ksel n => exact execKrd_neverIllegal (eq_cp_of_accepted h rfl) ksel n
  | block => exact execBlock_neverIllegal (eq_ap_of_accepted h rfl)
  | proc ch x => exact execProc_neverIllegal (eq_ap_of_accepted h rfl) ch x

/-- Settles O6: on the port of its opcode a command's own checks answer, and none of them is ERR_ILLEGAL. -/
theorem portLegality : Obligations.PortLegality := by
  intro i s _
  split
  · next h => exact exec_neverIllegal ((accepted_iff_opcode ..).mp h)
  · next h => exact exec_of_not_accepted (Bool.eq_false_iff.mpr (mt (accepted_iff_opcode ..).mpr h))

/-! ### One answer for each command (rules R60 and R61) -/

/-- An answer takes nothing from what the masters have to present. -/
@[simp] theorem State.respond_pending (s : State) (st : Status) (rw : Word) (p : PortId) :
    ((s.respond st rw).portOf p).pending = (s.portOf p).pending := by
  by_cases h : p = s.port
  · subst h
    cases h : s.port <;> simp [State.portOf, h]
  · rw [s.respond_portOf_other st rw p h]

/-- Settles O50: a command's own update leaves ports and turns alone, and then it answers or holds the port. -/
theorem everyCommandIsAnsweredOnce : Obligations.EveryCommandIsAnsweredOnce := by
  intro i s t h
  rcases exec_cases h with ⟨st, rw, u, rfl, -, hcp, hap, hport, hturns, -⟩ | ⟨rfl, -, -, -, -, rfl⟩
  · have hu := State.portOf_congr hcp hap
    rw [← hport]
    refine ⟨.inl ⟨⟨st, rw⟩, ?_⟩, fun p hp => ?_, ?_, rfl, hturns⟩
    · rw [u.respond_answers, hu]
    · rw [u.respond_portOf_other st rw p hp, hu]
    · rw [u.respond_pending, hu]
  · exact ⟨.inr ⟨rfl, rfl, by rw [s.hold_portOf]⟩, fun p _ => s.hold_portOf p, by rw [s.hold_portOf], rfl, rfl⟩

/-! ### What the audio port leaves alone (rules R181 and R183) -/

/-- PROC keeps every channel's kernel reference (rule R133). -/
theorem State.setChannel_pushSample_kref (s : State) (ch : Nat) (x : Word) (k : Nat) :
    ((s.setChannel ch (s.pushSample ch x)).channel k).kref = (s.channel k).kref := by
  rcases Nat.lt_or_ge ch s.channels.length with hlt | hge
  · rw [s.setChannel_channel _ k hlt]
    split
    · next e => exact e ▸ rfl
    · rfl
  · rw [State.setChannel, List.set_eq_of_length_le hge]

/-- Settles O51: of the effects that a command can have, the audio port has an answer, the hold and PROC's sample. -/
theorem audioPortChangesNoConfiguration : Obligations.AudioPortChangesNoConfiguration := by
  intro i s t hap h
  cases exec_effect h with
  | configure port | release port | storeGain port | storeNormalised port | setAuto port | claim port =>
    exact absurd (hap.symm.trans port) nofun
  | answer | hold => exact ⟨rfl, rfl, rfl, rfl, rfl, rfl, rfl, rfl, rfl, rfl, fun _ => rfl⟩
  | filter =>
    exact ⟨rfl, rfl, rfl, rfl, rfl, rfl, rfl, rfl, rfl, rfl, s.setChannel_pushSample_kref _ _⟩

end Sys2Proof.Machine

/-! PROOF. The designer: how many values each stage gives (rules R80, R84, R92 and R106), and that every value it
computes on a configured machine is finite (rules R83, R91 and R108). -/

namespace Sys2Proof.Machine

variable {F : Type} {num : Num F} {p : Params} {win : List F} {srf : F}

/-! ### Sizes -/

theorem impulse_length (num : Num F) (t : Nat) : (impulse num t).length = t := by simp [impulse]

theorem bandpass_length (num : Num F) (win : List F) (t : Nat) (fL fH : F) :
    (bandpass num win t fL fH).length = t := by simp [bandpass]

theorem accumulate_length {tf bp : List F} {norm lin : F} (h : bp.length = tf.length) :
    (accumulate num tf bp norm lin).length = tf.length := by simp [accumulate, h]

theorem quantise_length (num : Num F) (free : Nat → Coeff) (tf : List F) : (quantise num free tf).length = tf.length :=
  List.length_mapIdx

/-- A band is skipped or added tap by tap; either way the number of taps stays `T`. -/
theorem addBand_length {tf : List F} {g fc : F} (h : tf.length = p.numTaps) :
    (addBand num p win srf tf g fc).length = p.numTaps := by
  unfold addBand
  split
  · exact h
  · dsimp only
    split
    · rw [accumulate_length ((bandpass_length ..).trans h.symm), h]
    · exact h

theorem addBands_length : ∀ {tf gains freqs : List F}, tf.length = p.numTaps →
    (addBands num p win srf tf gains freqs).length = p.numTaps
  | _, [], _, h => h
  | _, _ :: _, [], h => h
  | _, _ :: _, _ :: _, h => by rw [addBands]; exact addBands_length (addBand_length h)

theorem design_length (num : Num F) (p : Params) (free : Nat → Coeff) (gains freqs : List F) (sr : Int) (win : List F) :
    (design num p free gains freqs sr win).length = p.numTaps := by
  rw [design, quantise_length, addBands_length (impulse_length ..)]

/-- Settles O28, from the number of taps that each step of the designer keeps. -/
theorem designerSizes : Obligations.DesignerSizes := fun _ num p free gains freqs sr win =>
  ⟨design_length num p free gains freqs sr win, window_length num p.numTaps, bandPlan_length num sr p.numBands⟩

/-! ### The coefficient at a NaN is not used where the products are finite (rule R108) -/

/-- A finite value is rounded to an integer, so its coefficient is that integer's. -/
theorem quantiseTap_fround_congr {val : F → EReal} (hs : num.Sound val) {x : F} (hx : num.isFinite x = true)
    (c c' : Coeff) : quantiseTap c (num.fround x) = quantiseTap c' (num.fround x) := by
  obtain ⟨k, hk, -⟩ := hs.round_nearest x hx
  rw [hk, quantiseTap, quantiseTap]

theorem quantise_congr {val : F → EReal} (hs : num.Sound val) {tf : List F}
    (h : ∀ x ∈ tf, num.isFinite (num.fmul x (num.fconst 32767 1)) = true) (free free' : Nat → Coeff) :
    quantise num free tf = quantise num free' tf :=
  List.mapIdx_eq_mapIdx_iff.mpr fun _ hi => quantiseTap_fround_congr hs (h _ (List.getElem_mem hi)) _ _

theorem design_congr {val : F → EReal} (hs : num.Sound val) {gains freqs : List F} {sr : Int}
    (h : ∀ x ∈ designParts num p gains freqs sr win, num.isFinite x = true) (free free' : Nat → Coeff) :
    design num p free gains freqs sr win = design num p free' gains freqs sr win :=
  quantise_congr hs (fun _ hx => h _ (List.mem_append_right _ (List.mem_map_of_mem hx))) free free'

/-! ### What condition 5 of rule R91 says of a configured machine -/

theorem mem_windowParts_of_mem_window {t : Nat} {x : F} (h : x ∈ window num t) : x ∈ windowParts num t :=
  List.mem_append_right _ h

theorem mem_bandPlanParts_of_mem_bandPlan {sr : Int} {n : Nat} {x : F} (h : x ∈ bandPlan num sr n) :
    x ∈ bandPlanParts num sr n := List.mem_append_right _ h

variable {s : State}

/-- The committed gains have the number and the range for which condition 5 is stated (rules R10 and R14). -/
theorem State.Inv.committedGains (h : s.Inv) :
    (s.bands.map Band.gc).length = s.params.numBands ∧ ∀ g ∈ s.bands.map Band.gc, gainInRange s.num g = true :=
  ⟨List.length_map .. |>.trans h.shaped.1, List.forall_mem_map.mpr fun b hb => (h.gainsInRange b hb).2⟩

/-- Settles O30: a configured machine holds a rate, gains, centres and a window that condition 5 of rule R91 ranges
over, and finite products are rounded to integers. -/
theorem everyDesignedValueIsFinite : Obligations.EveryDesignedValueIsFinite := by
  intro s h hc
  obtain ⟨-, ⟨val, hsound⟩, -, hwin, -, hrate⟩ := h.legal
  have hpos : 1 ≤ s.srate.toInt := (configured_iff s).mp hc
  obtain ⟨hplan, -, hgains⟩ := hrate s.srate.toInt hpos BitVec.toInt_lt
  obtain ⟨hlen, hrange⟩ := h.committedGains
  obtain ⟨hparts, hdivs⟩ := hgains (s.bands.map Band.gc) hlen hrange
  have hfreq := h.freqsPlanned hc
  have hw := h.windowFilled hc
  have hfinite : ∀ x ∈ designParts s.num s.params (s.bands.map Band.gc) (s.bands.map Band.freq) s.srate.toInt s.win,
      s.num.isFinite x = true := by rw [hfreq, hw]; exact hparts
  refine ⟨?_, ?_, hfinite, ?_, fun free => design_congr hsound hfinite _ free⟩
  · rw [← List.forall_mem_map (f := Band.freq) (P := fun x => s.num.isFinite x = true), hfreq]
    exact fun x hx => hplan x (mem_bandPlanParts_of_mem_bandPlan hx)
  · rw [hw]
    exact fun x hx => hwin x (mem_windowParts_of_mem_window hx)
  · rw [hfreq, hw]
    exact hdivs

end Sys2Proof.Machine

/-! PROOF. The designer's result where no band counts (rule R105), and what two rebuilds in a row leave (rule R106). -/

namespace Sys2Proof.Machine

variable {F : Type} {num : Num F} {p : Params}

/-! ### Negligible gains -/

theorem addBand_of_negligible {g : F} (h : negligible num g = true) (win : List F) (srf : F) (tf : List F) (fc : F) :
    addBand num p win srf tf g fc = tf := if_pos h

theorem addBands_of_negligible (win : List F) (srf : F) (tf : List F) : ∀ {gains : List F} (freqs : List F),
    (∀ g ∈ gains, negligible num g = true) → addBands num p win srf tf gains freqs = tf
  | [], _, _ => rfl
  | _ :: _, [], _ => rfl
  | _ :: _, _ :: freqs, h => by
    obtain ⟨hg, hgs⟩ := List.forall_mem_cons.mp h
    rw [addBands, addBand_of_negligible hg, addBands_of_negligible win srf tf freqs hgs]

/-- A finite value that is an integer rounds to it: any other is at least 1 away. -/
theorem fround_of_val_eq_intCast {val : F → EReal} (hs : num.Sound val) {x : F} {j : Int}
    (hx : num.isFinite x = true ∧ val x = (j : ℝ)) : num.fround x = .int j := by
  obtain ⟨k, hk, hnear, -⟩ := hs.round_nearest x hx.1
  rw [hx.2, EReal.toReal_coe, ← Int.cast_sub] at hnear
  have hlt : |j - k| < 1 := by
    have : ((|j - k| : Int) : ℝ) < 1 := by rw [Int.cast_abs]; linarith
    exact_mod_cast this
  rw [hk, sub_eq_zero.mp (Int.abs_lt_one_iff.mp hlt)]

/-- The two products that quantisation forms from the impulse are 32767 and 0 (rule R91 item 4). -/
theorem quantise_impulse {val : F → EReal} (hs : num.Sound val) (free : Nat → Coeff) (t : Nat) :
    quantise num free (impulse num t) = (List.range t).map fun n => if n = (t - 1) / 2 then 32767 else 0 := by
  have hone : num.fround (num.fmul (num.fconst 1 1) (num.fconst 32767 1)) = .int 32767 :=
    fround_of_val_eq_intCast hs hs.full_scale
  have hzero : num.fround (num.fmul (num.fconst 0 1) (num.fconst 32767 1)) = .int 0 := by
    have hfin : num.isFinite (num.fconst 32767 1) = true := (hs.literal_exact 32767 (by decide)).1
    exact fround_of_val_eq_intCast hs (by simpa using hs.zero_mul _ hfin)
  refine List.ext_getElem (by simp [quantise_length, impulse_length]) fun n _ _ => ?_
  simp only [quantise, impulse, List.getElem_mapIdx, List.getElem_map, List.getElem_range, centreTap]
  split
  · rw [hone]; exact (by decide : clampCoeff 32767 = 32767)
  · rw [hzero]; exact (by decide : clampCoeff 0 = 0)

theorem design_of_negligible {val : F → EReal} (hs : num.Sound val) {gains : List F}
    (h : ∀ g ∈ gains, num.flt (num.fabs g) (num.fconst 1 10) = true ∨ g = num.fconst 0 1) (free : Nat → Coeff)
    (freqs : List F) (sr : Int) (win : List F) :
    design num p free gains freqs sr win =
      (List.range p.numTaps).map fun n => if n = (p.numTaps - 1) / 2 then 32767 else 0 := by
  have hneg : ∀ g ∈ gains, negligible num g = true := fun g hg =>
    (h g hg).elim id fun h0 => h0 ▸ hs.zero_negligible
  rw [design, addBands_of_negligible _ _ _ _ hneg, quantise_impulse hs]

/-- Settles O29: every band is skipped, so the impulse itself is quantised. -/
theorem negligibleGainsGiveTheIdentityKernel : Obligations.NegligibleGainsGiveTheIdentityKernel := by
  refine ⟨fun F num val p free gains freqs sr win hs _ h => design_of_negligible hs h free freqs sr win,
    fun s hlegal h => ?_⟩
  obtain ⟨-, ⟨val, hs⟩, -⟩ := hlegal
  exact design_of_negligible hs (List.forall_mem_map.mpr h) _ _ _ _

/-! ### Two rebuilds in a row -/

@[simp] theorem State.eSwap_kmem (s : State) (b : Buffer) : s.eSwap.kmem b = s.kmem b := by cases b <;> rfl
@[simp] theorem State.eCommit_kmem (s : State) (b : Buffer) : s.eCommit.kmem b = s.kmem b := by cases b <;> rfl

@[simp] theorem State.rebuild_params (s : State) : s.rebuild.params = s.params := rfl
@[simp] theorem State.rebuild_asel (s : State) : s.rebuild.asel = s.asel.other := rfl

/-- A rebuild writes the designed kernel into the staging buffer and no other (rules R116 to R118). -/
theorem State.rebuild_read (s : State) (b : Buffer) {n : Nat} (h : n < s.params.numTaps) :
    (s.rebuild.kmem b).read n =
      if b = s.asel.other then some (s.claim.eCommit.designed.getD n 0) else (s.kmem b).read n := by
  rw [State.rebuild, State.eSwap_kmem, State.eDesign_kmem]
  by_cases hb : b = s.asel.other
  · simp [hb, Memory.read_writeAll, h]
  · simp [hb]

/-- A second commit finds every committed gain equal to the pending one, and the designer's other inputs are as they
were (rule R106). -/
theorem State.designed_rebuild (s : State) : s.rebuild.claim.eCommit.designed = s.claim.eCommit.designed := by
  have hgains : s.rebuild.claim.eCommit.bands.map Band.gc = s.claim.eCommit.bands.map Band.gc := by
    simp [State.rebuild, Function.comp_def]
  have hfreqs : s.rebuild.claim.eCommit.bands.map Band.freq = s.claim.eCommit.bands.map Band.freq := by
    simp [State.rebuild, Function.comp_def]
  rw [State.designed, State.designed, hgains, hfreqs]
  rfl

/-- Settles O56: the second rebuild computes the same kernel and writes it into the buffer that the first one left. -/
theorem repeatedRebuildIsIdentical : Obligations.RepeatedRebuildIsIdentical := by
  intro s n hn
  have hfirst : ∀ b, (s.rebuild.kmem b).read n =
      if b = s.asel.other then some (s.claim.eCommit.designed.getD n 0) else (s.kmem b).read n :=
    fun b => s.rebuild_read b hn
  have hboth : ∀ b, (s.rebuild.rebuild.kmem b).read n = some (s.claim.eCommit.designed.getD n 0) := fun b => by
    rw [State.rebuild_read _ _ (by simpa using hn), State.designed_rebuild, hfirst]
    cases b <;> cases h : s.asel <;> simp [h, Buffer.other]
  exact ⟨by simp [hboth, hfirst], by rw [hboth, hboth]⟩

end Sys2Proof.Machine

/-! PROOF. Quantisation (rules R103 and R108), and that binary32 meets rule R91. -/

namespace Sys2Proof.Machine

/-! ### Quantisation -/

theorem quantise_getElem? {F : Type} (num : Num F) (free : Nat → Coeff) {tf : List F} {n : Nat} {x : F}
    (h : tf[n]? = some x) :
    (quantise num free tf)[n]? = some (quantiseTap (free n) (num.fround (num.fmul x (num.fconst 32767 1)))) := by
  rw [quantise, List.getElem?_mapIdx, h]; rfl

theorem fround32_of_isInf32 {a : F32} (h : isInf32 a = true) :
    fround32 a = if sign32 a then .negInf else .posInf := by
  have hn : isNaN32 a = false := by simp_all [isInf32, isNaN32]
  simp [fround32, h, hn]

theorem fround32_of_isNaN32 {a : F32} (h : isNaN32 a = true) : fround32 a = .nan := if_pos h

theorem clampCoeff_toInt (k : Int) : (clampCoeff k).toInt = min (max k (-32768)) 32767 := by
  rw [clampCoeff, BitVec.toInt_ofInt, Int.bmod_eq_of_le (by omega) (by omega)]

theorem quantiseTap_int_toInt (free : Coeff) (k : Int) :
    (quantiseTap free (.int k)).toInt = if k < -32768 then -32768 else if 32767 < k then 32767 else k := by
  rw [quantiseTap, clampCoeff_toInt]
  split
  · omega
  · split <;> omega

/-- Settles O33: each tap is treated alone, by the kind of value that its product rounds to. -/
theorem quantisationRoundsAndSaturates : Obligations.QuantisationRoundsAndSaturates :=
  ⟨fun _ num free tf => ⟨quantise_length num free tf, fun _ _ h => quantise_getElem? num free h⟩,
    fun _ => fround32_spec, fun _ => fround32_of_isInf32, fun _ => fround32_of_isNaN32, quantiseTap_int_toInt,
    fun _ => ⟨rfl, rfl, rfl⟩⟩

/-! ### Binary32 as `NUM` -/

theorem num_of_binary32 {p : Params} (h : p.numerics = .binary32) : p.num = (binary32 Config.openFns.fns).coded := by
  rw [Params.num, h]

/-! ### The order of binary32 values (rule R91 item 2) -/

theorem compare32_of_nan {a b : F32} (h : isNaN32 a = true ∨ isNaN32 b = true) :
    flt32 a b = false ∧ fle32 a b = false := by
  rcases h with h | h <;> simp [flt32, fle32, h]

theorem flt32_iff {a b : F32} (ha : isFinite32 a = true) (hb : isFinite32 b = true) :
    flt32 a b = true ↔ signedUnits32 a < signedUnits32 b := by
  have ha := isNaN32_of_finite ha
  have hb := isNaN32_of_finite hb
  rw [flt32_eq_not_fle32 ha hb, Bool.not_eq_true', ← Bool.not_eq_true, fle32_iff hb ha, not_le]

theorem fle32_iff_value32 {a b : F32} (ha : isNaN32 a = false) (hb : isNaN32 b = false) :
    fle32 a b = true ↔ value32 a ≤ value32 b := by
  simpa [val32] using fle32_iff_val32 (a := Flt.ofBits a) (b := Flt.ofBits b) (by simpa using ha) (by simpa using hb)

theorem flt32_iff_value32 {a b : F32} (ha : isNaN32 a = false) (hb : isNaN32 b = false) :
    flt32 a b = true ↔ value32 a < value32 b := by
  rw [flt32_eq_not_fle32 ha hb, Bool.not_eq_true', ← Bool.not_eq_true, fle32_iff_value32 hb ha, not_le]

/-- The infinities lie at the ends. -/
theorem flt32_inf32 {a : F32} (ha : isFinite32 a = true) :
    flt32 a (inf32 false) = true ∧ flt32 (inf32 true) a = true := by
  obtain ⟨hlo, hhi⟩ := (orderKey32_bounds a).1 ha
  have hpos : orderKey32 (inf32 false) = 255 * 2 ^ 23 := by decide
  have hneg : orderKey32 (inf32 true) = -(255 * 2 ^ 23) := by decide
  simp only [flt32, isNaN32_of_finite ha, isNaN32_inf32, hpos, hneg, hlo, hhi]
  decide

theorem literals32_exact : ∀ k ∈ [0, 1, 2, 4, 20, 32767],
    isFinite32 (fconst32 k 1) = true ∧ signedUnits32 (fconst32 k 1) = k * 2 ^ 149 := by decide +kernel

/-- Settles O31, item by item: the record by its definition, the order by the places of the patterns in it, the
literals by computation, and condition 5 from the type of the open functions. -/
theorem binary32MeetsTheConditions : Obligations.Binary32MeetsTheConditions := by
  refine ⟨fun p hp => ?record, fun k _ _ => ofInt32_exact (by omega), literals32_exact, by decide +kernel,
    fun _ _ => compare32_of_nan, fun a b ha hb => ⟨flt32_iff ha hb, ?fle⟩,
    fun _ _ ha hb => ⟨flt32_iff_value32 ha hb, fle32_iff_value32 ha hb⟩, fun _ => flt32_inf32, by decide +kernel,
    by decide +kernel, fun _ ha => isZero32_fmul32 (.inl ⟨by decide, ha⟩), by decide +kernel,
    fun p hp hs h1 h2 => ?condition5⟩
  case record =>
    rw [num_of_binary32 hp]
    have hlo : fconst32 (-90) 1 = 0xC2B40000 := by decide +kernel
    have hhi : fconst32 12 1 = 0x41400000 := by decide +kernel
    simp [Num.coded, binary32, hlo, hhi]
  case fle => exact fle32_iff (isNaN32_of_finite ha) (isNaN32_of_finite hb)
  case condition5 =>
    rw [num_of_binary32 hp]
    exact Config.openFns.staysFinite p hs h1 h2

end Sys2Proof.Machine

/-! PROOF. The binary32 operations are correctly rounded (rule R90). A magnitude is divided by a power of two and
rounded to a whole number of it; no binary32 value lies strictly between two neighbours of that grid, so that the nearer
neighbour is the nearest value. -/

namespace Sys2Proof.Machine

/-! ### Signs -/

/-- The real number of this sign and magnitude. -/
def signed (neg : Bool) (y : ℝ) : ℝ := if neg then -y else y

@[simp] theorem abs_signed (neg : Bool) (y : ℝ) : |signed neg y| = |y| := by cases neg <;> simp [signed]

theorem signedUnits32_cast (a : F32) : (signedUnits32 a : ℝ) = signed (sign32 a) (units32 a) := by
  cases h : sign32 a <;> simp [signedUnits32, signed, h]

/-- Distances do not change when both signs do. -/
theorem abs_signed_sub (neg : Bool) (y z : ℝ) : |signed neg y - z| = |y - signed neg z| := by
  cases neg
  · rfl
  · rw [signed, signed, if_pos rfl, if_pos rfl, ← abs_neg]; congr 1; ring

theorem signed_signed (neg : Bool) (y : ℝ) : signed neg (signed neg y) = y := by cases neg <;> simp [signed]

theorem signed_mul (m n : Bool) (y z : ℝ) : signed m y * signed n z = signed (m != n) (y * z) := by
  cases m <;> cases n <;> simp [signed]

theorem signed_div (m n : Bool) (y z : ℝ) : signed m y / signed n z = signed (m != n) (y / z) := by
  cases m <;> cases n <;> simp [signed, neg_div, div_neg]

theorem signed_mul_const (m : Bool) (y z : ℝ) : signed m y * z = signed m (y * z) := by cases m <;> simp [signed]

theorem signed_div_const (m : Bool) (y z : ℝ) : signed m y / z = signed m (y / z) := by
  cases m <;> simp [signed, neg_div]

theorem intCast_eq_signed (k : Int) : (k : ℝ) = signed (decide (k < 0)) k.natAbs := by
  rcases lt_or_ge k 0 with h | h
  · simp [signed, h, abs_of_neg]
  · simp [signed, not_lt.mpr h, abs_of_nonneg h]

/-! ### The grid -/

/-- `m` is `y / 2 ^ sh` rounded to a whole number, ties to even; `q` is the whole number below. -/
structure RoundsOnGrid (y : ℝ) (sh q m : Nat) : Prop where
  lower : q * 2 ^ sh ≤ y
  upper : y ≤ (q + 1) * 2 ^ sh
  choice : m = q ∧ 2 * y ≤ (2 * q + 1) * 2 ^ sh ∨ m = q + 1 ∧ (2 * q + 1) * 2 ^ sh ≤ 2 * y
  tie_even : 2 * y = (2 * q + 1) * 2 ^ sh → m % 2 = 0

/-- No binary32 magnitude lies strictly between two neighbours of a grid that has its 24 bits. -/
theorem units32_off_grid (f : F32) {sh q : Nat} (h : sh = 0 ∨ 2 ^ 23 ≤ q) :
    units32 f ≤ q * 2 ^ sh ∨ (q + 1) * 2 ^ sh ≤ units32 f := by
  have hfrac := frac32_lt f
  rcases h with rfl | hq
  · simp only [pow_zero, Nat.mul_one]; omega
  have hmin : 2 ^ 23 * 2 ^ sh ≤ q * 2 ^ sh := Nat.mul_le_mul_right _ hq
  unfold units32
  split
  · have : 2 ^ 23 * 1 ≤ 2 ^ 23 * 2 ^ sh := Nat.mul_le_mul_left _ Nat.one_le_two_pow
    omega
  · by_cases he : sh ≤ exp32 f - 1
    · obtain ⟨d, hd⟩ := Nat.exists_eq_add_of_le' he
      rw [hd, pow_add, ← Nat.mul_assoc]
      rcases Nat.lt_or_ge ((2 ^ 23 + frac32 f) * 2 ^ d) (q + 1) with hlt | hge
      · exact .inl (Nat.mul_le_mul_right _ (by omega))
      · exact .inr (Nat.mul_le_mul_right _ hge)
    · left
      calc (2 ^ 23 + frac32 f) * 2 ^ (exp32 f - 1) ≤ 2 ^ 24 * 2 ^ (exp32 f - 1) := Nat.mul_le_mul_right _ (by omega)
        _ = 2 ^ 23 * 2 ^ (exp32 f - 1 + 1) := by rw [pow_succ]; ring
        _ ≤ 2 ^ 23 * 2 ^ sh := Nat.mul_le_mul_left _ (Nat.pow_le_pow_right (by decide) (by omega))
        _ ≤ q * 2 ^ sh := hmin

/-- The nearer end of an interval is nearest among all that is not inside, and the only such unless `y` is in the
middle. -/
theorem nearest_end {a b y r g : ℝ} (hay : a ≤ y) (hyb : y ≤ b)
    (hr : r = a ∧ 2 * y ≤ a + b ∨ r = b ∧ a + b ≤ 2 * y) (hg : g ≤ a ∨ b ≤ g) :
    |y - r| ≤ |y - g| ∧ (|y - r| = |y - g| → g = r ∨ 2 * y = a + b) := by
  have below : ∀ z ≤ y, |y - z| = y - z := fun z h => abs_of_nonneg (sub_nonneg.mpr h)
  have above : ∀ z, y ≤ z → |y - z| = z - y := fun z h => by rw [abs_sub_comm]; exact abs_of_nonneg (sub_nonneg.mpr h)
  rcases hr with ⟨hr, hmid⟩ | ⟨hr, hmid⟩ <;> rcases hg with hg | hg
  · rw [hr, below a hay, below g (hg.trans hay)]
    exact ⟨by linarith, fun _ => .inl (by linarith)⟩
  · rw [hr, below a hay, above g (hyb.trans hg)]
    exact ⟨by linarith, fun _ => .inr (by linarith)⟩
  · rw [hr, above b hyb, below g (hg.trans hay)]
    exact ⟨by linarith, fun _ => .inr (by linarith)⟩
  · rw [hr, above b hyb, above g (hyb.trans hg)]
    exact ⟨by linarith, fun _ => .inl (by linarith)⟩

/-- On the grid: `m` multiples of `2 ^ sh` are nearest to `y` among the binary32 values, and at a tie `m` is even. -/
theorem RoundsOnGrid.nearest {y : ℝ} {sh q m : Nat} (h : RoundsOnGrid y sh q m) (hq : sh = 0 ∨ 2 ^ 23 ≤ q) {g : ℝ}
    {f : F32} (hg : |g| = units32 f) :
    |y - m * 2 ^ sh| ≤ |y - g| ∧ (|y - m * 2 ^ sh| = |y - g| → g = m * 2 ^ sh ∨ m % 2 = 0) := by
  have hoff : g ≤ q * 2 ^ sh ∨ (q + 1 : ℝ) * 2 ^ sh ≤ g := by
    rcases units32_off_grid f hq with hf | hf
    · exact .inl ((le_abs_self g).trans (hg ▸ by exact_mod_cast hf))
    · rcases abs_cases g with ⟨habs, -⟩ | ⟨-, hneg⟩
      · exact .inr (habs ▸ hg ▸ by exact_mod_cast hf)
      · exact .inl (hneg.le.trans (by positivity))
  have hend : (m : ℝ) * 2 ^ sh = q * 2 ^ sh ∧ 2 * y ≤ q * 2 ^ sh + (q + 1) * 2 ^ sh ∨
      (m : ℝ) * 2 ^ sh = (q + 1) * 2 ^ sh ∧ q * 2 ^ sh + (q + 1) * 2 ^ sh ≤ 2 * y := by
    rcases h.choice with ⟨hm, hy⟩ | ⟨hm, hy⟩
    · exact .inl ⟨by rw [hm], by linarith⟩
    · exact .inr ⟨by rw [hm]; push_cast; rfl, by linarith⟩
  obtain ⟨hle, heq⟩ := nearest_end h.lower h.upper hend hoff
  exact ⟨hle, fun he => (heq he).imp_right fun ht => h.tie_even (by linarith)⟩

/-- In the highest binade that has finite values only the significand 2^24 is too large, and it is reached from halfway
past the greatest of them. -/
theorem RoundsOnGrid.overflow_iff_top {y : ℝ} {q m : Nat} (h : RoundsOnGrid y 253 q m) (hq : q < 2 ^ 24) :
    2 ^ 24 ≤ m ↔ (2 ^ 25 - 1) * 2 ^ 252 ≤ y := by
  rcases h.choice with ⟨hm, hy⟩ | ⟨hm, hy⟩
  · refine iff_of_false (by omega) fun hT => ?_
    have hqmax : (2 ^ 25 - 1 : ℝ) ≤ 2 * q + 1 :=
      le_of_mul_le_mul_right (by linarith : (2 ^ 25 - 1 : ℝ) * 2 ^ 253 ≤ (2 * q + 1) * 2 ^ 253) (by positivity)
    have hqeq : q = 2 ^ 24 - 1 := by
      have : 2 ^ 25 ≤ 2 * q + 2 := by exact_mod_cast (by linarith : (2 ^ 25 : ℝ) ≤ 2 * q + 2)
      omega
    have heven : m % 2 = 0 := h.tie_even (by rw [hqeq] at hy ⊢; push_cast at hy ⊢; linarith)
    omega
  · by_cases hqmax : q + 1 = 2 ^ 24
    · have hqeq : (q : ℝ) = 2 ^ 24 - 1 := by rw [eq_sub_iff_add_eq]; exact_mod_cast hqmax
      exact iff_of_true (by omega) (by rw [hqeq] at hy; linarith)
    · have hqlt : (q : ℝ) + 2 ≤ 2 ^ 24 := by exact_mod_cast (by omega : q + 2 ≤ 2 ^ 24)
      have hyle : y ≤ (2 ^ 24 - 1) * 2 ^ 253 :=
        h.upper.trans (mul_le_mul_of_nonneg_right (by linarith) (by positivity))
      exact iff_of_false (by omega) (not_le.mpr (hyle.trans_lt (by norm_num)))

/-- On the grid: the rounded value has the exponent of an infinity from halfway past the greatest finite value on. -/
theorem RoundsOnGrid.overflow_iff {y : ℝ} {sh q m : Nat} (h : RoundsOnGrid y sh q m) (hq1 : q < 2 ^ 24)
    (hq2 : sh = 0 ∨ 2 ^ 23 ≤ q) : 255 * 2 ^ 23 ≤ sh * 2 ^ 23 + m ↔ (2 ^ 25 - 1) * 2 ^ 252 ≤ y := by
  have hm : q ≤ m ∧ m ≤ q + 1 := by rcases h.choice with ⟨hm, -⟩ | ⟨hm, -⟩ <;> omega
  rcases Nat.lt_trichotomy sh 253 with hsh | rfl | hsh
  · have hq : (q : ℝ) + 1 ≤ 2 ^ 24 := by exact_mod_cast hq1
    have hpow : (2 : ℝ) ^ sh ≤ 2 ^ 252 := pow_le_pow_right₀ (by norm_num) (by omega)
    have hy : y ≤ 2 ^ 24 * 2 ^ 252 := h.upper.trans (mul_le_mul hq hpow (by positivity) (by positivity))
    exact iff_of_false (by omega) (not_le.mpr (hy.trans_lt (by norm_num)))
  · rw [← h.overflow_iff_top hq1]
    omega
  · have hq : (2 : ℝ) ^ 23 ≤ q := by exact_mod_cast hq2.resolve_left (by omega)
    have hpow : (2 : ℝ) ^ 254 ≤ 2 ^ sh := pow_le_pow_right₀ (by norm_num) (by omega)
    have hy : 2 ^ 23 * 2 ^ 254 ≤ y := (mul_le_mul hq hpow (by positivity) (by positivity)).trans h.lower
    exact iff_of_true (by omega) ((by norm_num : (2 ^ 25 - 1 : ℝ) * 2 ^ 252 ≤ 2 ^ 23 * 2 ^ 254).trans hy)

/-- Among the multiples of half of `2 ^ sh` the real number `y` has the place of the ratio `x / d`. -/
def SamePlace (y : ℝ) (x d sh : Nat) : Prop :=
  ∀ k : Nat, (k * (d * 2 ^ sh) ≤ 2 * x ↔ k * 2 ^ sh ≤ 2 * y) ∧ (2 * x ≤ k * (d * 2 ^ sh) ↔ 2 * y ≤ k * 2 ^ sh)

theorem samePlace_ratio (x : Nat) {d : Nat} (hd : 0 < d) (sh : Nat) : SamePlace (x / d) x d sh := by
  intro k
  have hd' : (0 : ℝ) < d := by exact_mod_cast hd
  rw [← mul_div_assoc, le_div_iff₀ hd', div_le_iff₀ hd', ← Nat.cast_le (α := ℝ), ← Nat.cast_le (α := ℝ)]
  push_cast
  constructor <;> ring_nf

/-- The quotient and remainder of the ratio decide the rounding of every real number in the same place. -/
theorem roundsOnGrid_of_samePlace {y : ℝ} {x d sh : Nat} (hd : 0 < d) (h : SamePlace y x d sh) :
    RoundsOnGrid y sh (x / (d * 2 ^ sh))
      (if roundsUp (x / (d * 2 ^ sh)) (x % (d * 2 ^ sh)) (d * 2 ^ sh) then x / (d * 2 ^ sh) + 1
        else x / (d * 2 ^ sh)) := by
  obtain ⟨D, hD⟩ : ∃ D, D = d * 2 ^ sh := ⟨_, rfl⟩
  unfold SamePlace at h
  rw [← hD] at h ⊢
  have hx : x = D * (x / D) + x % D := (Nat.div_add_mod x D).symm
  have hr : x % D < D := Nat.mod_lt _ (by rw [hD]; positivity)
  generalize x / D = q at hx ⊢
  generalize x % D = r at hx hr ⊢
  have hmid : (2 * q + 1) * D = 2 * (D * q) + D := by ring
  have hlo := (h (2 * q)).1.mp (by rw [hx]; linarith)
  have hhi := (h (2 * (q + 1))).2.mp (by rw [hx]; linarith)
  have hge := (h (2 * q + 1)).1
  have hle := (h (2 * q + 1)).2
  push_cast at hlo hhi hge hle
  refine ⟨by linarith, by linarith, ?_, fun ht => ?_⟩
  · by_cases hup : roundsUp q r D = true
    · have hup' : (2 * q + 1) * D ≤ 2 * x := by
        simp only [roundsUp, Bool.or_eq_true, Bool.and_eq_true, decide_eq_true_eq] at hup
        omega
      exact .inr ⟨if_pos hup, hge.mp hup'⟩
    · have hup' : 2 * x ≤ (2 * q + 1) * D := by
        simp only [roundsUp, Bool.or_eq_true, Bool.and_eq_true, decide_eq_true_eq] at hup
        omega
      exact .inl ⟨if_neg hup, hle.mp hup'⟩
  · have h1 := hge.mpr ht.ge
    have h2 := hle.mpr ht.le
    have htie : 2 * r = D := by omega
    simp only [roundsUp, htie, lt_irrefl, decide_false, decide_true, Bool.false_or, Bool.true_and, beq_iff_eq]
    split <;> omega

/-! ### Rounding a ratio -/

/-- `roundRatio` rounds correctly every magnitude that has the place of its ratio. -/
theorem roundsTo_of_samePlace (neg : Bool) {num den : Nat} {y : ℝ} (hd : 0 < den) (hy : 0 ≤ y)
    (h : SamePlace y (num * 2 ^ 149) den (Nat.log2 (num * 2 ^ 149 / den) - 23)) :
    RoundsTo (signed neg y) (roundRatio neg num den) := by
  obtain ⟨sh, m, hsh, hq1, hq2, hm, hinf, hfin⟩ := roundRatio_spec neg num den
  have hgrid := roundsOnGrid_of_samePlace hd (hsh ▸ h)
  rw [← hm] at hgrid
  have hover := hgrid.overflow_iff hq1 hq2
  refine ⟨fun hneg => ?_, fun hpos => ?_, fun hlt => ?_, fun hge => ?_⟩
  · rw [sign32_roundRatio]
    cases neg
    · exact absurd hneg (not_lt.mpr hy)
    · rfl
  · rw [sign32_roundRatio]
    cases neg
    · rfl
    · exact absurd hpos (not_lt.mpr (neg_nonpos.mpr hy))
  · rw [abs_signed, abs_of_nonneg hy] at hlt
    have hlow := not_le.mp (mt hover.mp (not_le.mpr hlt))
    obtain ⟨hpack, hfinite, hunits⟩ := hfin hlow
    refine ⟨hfinite, fun f hf => ?_⟩
    have hr : (signedUnits32 (roundRatio neg num den) : ℝ) = signed neg (m * 2 ^ sh) := by
      rw [signedUnits32_cast, sign32_roundRatio, hunits]; push_cast; rfl
    have hg : |signed neg (signedUnits32 f)| = units32 f := by
      rw [abs_signed, signedUnits32_cast, abs_signed, Nat.abs_cast]
    have hfrac : frac32 (roundRatio neg num den) % 2 = m % 2 := by
      rw [hpack, frac32_pack32 neg (by omega)]; omega
    obtain ⟨hle, heq⟩ := hgrid.nearest hq2 hg
    rw [hr, abs_signed_sub, signed_signed, abs_signed_sub, hfrac]
    refine ⟨hle, fun he => (heq he).imp_left fun hgm => ?_⟩
    have : (signedUnits32 f : ℝ) = signedUnits32 (roundRatio neg num den) := by
      rw [hr, ← hgm, signed_signed]
    exact_mod_cast this
  · rw [abs_signed, abs_of_nonneg hy] at hge
    rw [hinf (hover.mpr hge)]
    cases neg <;> decide

theorem roundsTo_roundRatio (neg : Bool) (num : Nat) {den : Nat} (hd : 0 < den) :
    RoundsTo (signed neg (num * 2 ^ 149 / den)) (roundRatio neg num den) := by
  have h := samePlace_ratio (num * 2 ^ 149) hd (Nat.log2 (num * 2 ^ 149 / den) - 23)
  rw [Nat.cast_mul, Nat.cast_pow, Nat.cast_ofNat] at h
  exact roundsTo_of_samePlace neg hd (by positivity) h

theorem roundsTo_zero {r : F32} (hr : isZero32 r = true) : RoundsTo 0 r := by
  obtain ⟨hfin, hunits⟩ := isZero32_iff.mp hr
  have hval : signedUnits32 r = 0 := by simp [signedUnits32, hunits]
  refine ⟨fun h => absurd h (lt_irrefl _), fun h => absurd h (lt_irrefl _), fun _ => ⟨hfin, fun f _ => ?_⟩, fun h => ?_⟩
  · rw [hval]
    exact ⟨by simp, fun he => .inl (by simpa using he.symm)⟩
  · norm_num at h

/-! ### The operations -/

theorem finite32_flags {a : F32} (h : isFinite32 a = true) : isNaN32 a = false ∧ isInf32 a = false :=
  ⟨isNaN32_of_finite h, isInf32_of_finite h⟩

theorem units32_pos_of_not_zero {a : F32} (h : isFinite32 a = true) (hz : isZero32 a = false) : 0 < units32 a :=
  Nat.pos_of_ne_zero fun h0 => Bool.eq_false_iff.mp hz (isZero32_iff.mpr ⟨h, h0⟩)

theorem roundsTo_fconst32 (k : Int) {d : Nat} (hd : 0 < d) : RoundsTo (k * 2 ^ 149 / d) (fconst32 k d) := by
  have h := roundsTo_roundRatio (decide (k < 0)) k.natAbs hd
  rwa [← signed_div_const, ← signed_mul_const, ← intCast_eq_signed] at h

theorem signedUnits32_neg32 (a : F32) : signedUnits32 (neg32 a) = -signedUnits32 a := by
  have hsign : sign32 (neg32 a) = !sign32 a := by simp [sign32, neg32]
  have hunits : units32 (neg32 a) = units32 a := units32_congr (congrArg BitVec.toNat (low32_neg32 a))
  cases h : sign32 a <;> simp [signedUnits32, hsign, hunits, h]

theorem isFinite32_neg32 {a : F32} (h : isFinite32 a = true) : isFinite32 (neg32 a) = true := by
  have hlow := congrArg BitVec.toNat (low32_neg32 a)
  have hfrac := frac32_lt a
  have hfrac' := frac32_lt (neg32 a)
  rw [low32_parts, low32_parts] at hlow
  have hexp : exp32 (neg32 a) = exp32 a := by omega
  rwa [isFinite32, hexp]

theorem roundsTo_fadd32 {a b : F32} (ha : isFinite32 a = true) (hb : isFinite32 b = true) :
    RoundsTo (signedUnits32 a + signedUnits32 b) (fadd32 a b) := by
  rw [← Int.cast_add]
  simp only [fadd32, finite32_flags ha, finite32_flags hb, Bool.or_self, Bool.false_eq_true, if_false]
  generalize signedUnits32 a + signedUnits32 b = z
  split
  · next hz => rw [hz, Int.cast_zero]; exact roundsTo_zero (isZero32_pack32 _)
  · have h := roundsTo_roundRatio (decide (z < 0)) z.natAbs (den := 2 ^ 149) (by positivity)
    rwa [Nat.cast_pow, Nat.cast_ofNat, mul_div_cancel_right₀ _ (by positivity), ← intCast_eq_signed] at h

theorem roundsTo_fsub32 {a b : F32} (ha : isFinite32 a = true) (hb : isFinite32 b = true) :
    RoundsTo (signedUnits32 a - signedUnits32 b) (fsub32 a b) := by
  have h := roundsTo_fadd32 ha (isFinite32_neg32 hb)
  rwa [signedUnits32_neg32, Int.cast_neg, ← sub_eq_add_neg] at h

theorem roundsTo_fmul32 {a b : F32} (ha : isFinite32 a = true) (hb : isFinite32 b = true) :
    RoundsTo (signedUnits32 a * signedUnits32 b / 2 ^ 149) (fmul32 a b) := by
  have h := roundsTo_roundRatio (sign32 a != sign32 b) (units32 a * units32 b) (den := 2 ^ 149 * 2 ^ 149)
    (by positivity)
  simp only [fmul32, finite32_flags ha, finite32_flags hb, Bool.or_self, Bool.false_eq_true, if_false]
  rw [signedUnits32_cast, signedUnits32_cast, signed_mul, signed_div_const]
  rwa [Nat.cast_mul, Nat.cast_mul, Nat.cast_pow, Nat.cast_ofNat, mul_div_mul_right _ _ (by positivity)] at h

theorem roundsTo_fdiv32 {a b : F32} (ha : isFinite32 a = true) (hb : isFinite32 b = true) (hz : isZero32 b = false) :
    RoundsTo (signedUnits32 a * 2 ^ 149 / signedUnits32 b) (fdiv32 a b) := by
  have hpos : 0 < units32 b := units32_pos_of_not_zero hb hz
  simp only [fdiv32, finite32_flags ha, finite32_flags hb, hz, Bool.or_self, Bool.false_eq_true, if_false]
  rw [signedUnits32_cast, signedUnits32_cast, signed_mul_const, signed_div]
  exact roundsTo_roundRatio _ _ hpos

/-! ### The square root -/

theorem lt_isqrtFrom_succ_sq (k n r : Nat) (h : n < (r + 2 ^ k) * (r + 2 ^ k)) :
    n < (isqrtFrom k n r + 1) * (isqrtFrom k n r + 1) := by
  induction k generalizing r with
  | zero => exact h
  | succ k ih =>
    rw [isqrtFrom]
    refine ih _ ?_
    split
    · rwa [Nat.add_assoc, ← Nat.two_mul, ← pow_succ']
    · next hlt => exact not_le.mp hlt

theorem isqrtFrom_eq_sqrt {k n : Nat} (h : n < 2 ^ k * 2 ^ k) : isqrtFrom k n 0 = Nat.sqrt n :=
  Nat.eq_sqrt.mpr ⟨isqrtFrom_sq_le k n 0 (Nat.zero_le _), lt_isqrtFrom_succ_sq k n 0 (by simpa using h)⟩

/-- The greatest exponent of a finite value is 254. -/
theorem units32_lt_of_finite {a : F32} (h : isFinite32 a = true) : units32 a < 2 ^ 24 * 2 ^ 253 := by
  have hexp : exp32 a ≤ 254 := by
    have := exp32_le a
    have : exp32 a ≠ 255 := by simpa [isFinite32] using h
    omega
  have hfrac := frac32_lt a
  unfold units32
  split
  · omega
  · calc (2 ^ 23 + frac32 a) * 2 ^ (exp32 a - 1) < 2 ^ 24 * 2 ^ (exp32 a - 1) :=
          Nat.mul_lt_mul_of_pos_right (by omega) (by positivity)
      _ ≤ 2 ^ 24 * 2 ^ 253 := Nat.mul_le_mul_left _ (Nat.pow_le_pow_right (by decide) (by omega))

/-- The integer root in half units: one more when it is not exact. -/
def halfRoot (n : Nat) : Nat := 2 * Nat.sqrt n + if Nat.sqrt n * Nat.sqrt n = n then 0 else 1

/-- No multiple of a whole unit tells the root from the integer root in half units. -/
theorem halfRoot_place (n j : Nat) :
    (2 * j ≤ halfRoot n ↔ (j : ℝ) ≤ √n) ∧ (halfRoot n ≤ 2 * j ↔ √(n : ℝ) ≤ j) := by
  have hle : j ≤ Nat.sqrt n ↔ j * j ≤ n := Nat.le_sqrt
  have hlt : Nat.sqrt n < j ↔ n < j * j := Nat.sqrt_lt
  have hreal : ((j : ℝ) ≤ √n ↔ j * j ≤ n) ∧ (√(n : ℝ) ≤ j ↔ n ≤ j * j) := by
    rw [Real.le_sqrt (Nat.cast_nonneg j) (Nat.cast_nonneg n), Real.sqrt_le_left (Nat.cast_nonneg j), sq]
    exact ⟨by exact_mod_cast Iff.rfl, by exact_mod_cast Iff.rfl⟩
  rw [hreal.1, hreal.2, halfRoot]
  split
  · next hsq =>
    have hself : Nat.sqrt n ≤ j ↔ Nat.sqrt n * Nat.sqrt n ≤ j * j := Nat.mul_self_le_mul_self_iff.symm
    omega
  · next hsq =>
    have hne : n ≠ j * j := by rintro rfl; exact hsq (by rw [Nat.sqrt_eq])
    omega

theorem samePlace_halfRoot (n : Nat) {sh : Nat} (hsh : 1 ≤ sh) :
    SamePlace (√n) (halfRoot n * 2 ^ 149) (2 * 2 ^ 149) sh := by
  intro k
  obtain ⟨t, rfl⟩ := Nat.exists_eq_add_of_le' hsh
  have hgrid : k * (2 * 2 ^ 149 * 2 ^ (t + 1)) = 2 * (k * 2 ^ t) * (2 * 2 ^ 149) := by rw [pow_succ]; ring
  have hroot : 2 * (halfRoot n * 2 ^ 149) = halfRoot n * (2 * 2 ^ 149) := by ring
  have hreal : (k : ℝ) * 2 ^ (t + 1) = 2 * ((k * 2 ^ t : Nat) : ℝ) := by push_cast; ring
  rw [hgrid, hroot, Nat.mul_le_mul_right_iff (by positivity), Nat.mul_le_mul_right_iff (by positivity), hreal,
    mul_le_mul_iff_right₀ two_pos, mul_le_mul_iff_right₀ two_pos]
  exact halfRoot_place n (k * 2 ^ t)

/-- The root of such a number has more bits than a binary32 value, so that the half unit is finer than half of the
grid. -/
theorem roundsTo_sqrt {n : Nat} (h : 2 ^ 149 ≤ n) :
    RoundsTo (√n) (roundRatio false (halfRoot n) (2 * 2 ^ 149)) := by
  refine roundsTo_of_samePlace false (by positivity) (Real.sqrt_nonneg _) (samePlace_halfRoot n ?_)
  have hroot : 2 ^ 74 ≤ Nat.sqrt n := Nat.le_sqrt.mpr (by omega)
  have hge : 2 ^ 24 ≤ halfRoot n * 2 ^ 149 / (2 * 2 ^ 149) := by
    rw [Nat.mul_div_mul_right _ _ (by positivity), halfRoot]; omega
  have hlog : 24 ≤ Nat.log2 (halfRoot n * 2 ^ 149 / (2 * 2 ^ 149)) := (Nat.le_log2 (by omega)).mpr hge
  omega

theorem fsqrt32_of_pos {a : F32} (ha : isFinite32 a = true) (hz : isZero32 a = false) (hs : sign32 a = false) :
    fsqrt32 a = roundRatio false (halfRoot (units32 a * 2 ^ 149)) (2 * 2 ^ 149) := by
  have hroot : isqrtFrom 214 (units32 a * 2 ^ 149) 0 = Nat.sqrt (units32 a * 2 ^ 149) :=
    isqrtFrom_eq_sqrt (by have := units32_lt_of_finite ha; omega)
  simp only [fsqrt32, finite32_flags ha, hz, hs, Bool.false_eq_true, if_false, hroot, halfRoot]

theorem roundsTo_fsqrt32 {a : F32} (ha : isFinite32 a = true) (h0 : 0 ≤ signedUnits32 a) :
    RoundsTo (√(signedUnits32 a * 2 ^ 149)) (fsqrt32 a) := by
  cases hz : isZero32 a with
  | true =>
    have hval : signedUnits32 a = 0 := by simp [signedUnits32, (isZero32_iff.mp hz).2]
    rw [hval, Int.cast_zero, zero_mul, Real.sqrt_zero]
    exact roundsTo_zero (isZero32_fsqrt32 hz)
  | false =>
    have hpos : 0 < units32 a := units32_pos_of_not_zero ha hz
    have hs : sign32 a = false := by
      by_contra hs
      rw [signedUnits32, if_pos (by simpa using hs)] at h0
      omega
    have hn : (signedUnits32 a : ℝ) * 2 ^ 149 = ((units32 a * 2 ^ 149 : Nat) : ℝ) := by
      rw [signedUnits32_cast, hs, Nat.cast_mul, Nat.cast_pow, Nat.cast_ofNat]; rfl
    rw [fsqrt32_of_pos ha hz hs, hn]
    exact roundsTo_sqrt (Nat.le_mul_of_pos_left _ hpos)

/-- Settles O32: every operation rounds the ratio, or the root, that is its exact result. -/
theorem arithmeticIsCorrectlyRounded : Obligations.ArithmeticIsCorrectlyRounded :=
  ⟨fun _ _ ha hb => ⟨roundsTo_fadd32 ha hb, roundsTo_fsub32 ha hb, roundsTo_fmul32 ha hb, roundsTo_fdiv32 ha hb,
    roundsTo_fsqrt32 ha⟩, fun k _ => roundsTo_fconst32 k,
    fun k => by simpa [ofInt32] using roundsTo_fconst32 k (d := 1) one_pos⟩

end Sys2Proof.Machine

/-! PROOF. The kernel store (spec/42_kernel_store.md): the rebuild request and its UPDATE, KRD, and the three steps of
the rebuild engine, one equation for each case and then what it writes. -/

namespace Sys2Proof.Machine

variable {s : State}

/-! ### The rebuild request (rule R112) -/

theorem rebuildRequest_of_notConfigured (force : Bool) (hc : s.configured = false) :
    rebuildRequest force s = (.notCfg, s) := by simp [rebuildRequest, State.requestResult, hc]

theorem rebuildRequest_of_updating (force : Bool) (hc : s.configured = true) (hu : s.isUpdating = true) :
    rebuildRequest force s = (.busy, s) := by simp [rebuildRequest, State.requestResult, hc, hu]

theorem rebuildRequest_of_clean (hc : s.configured = true) (hu : s.isUpdating = false) (hd : s.gainsDirty = false) :
    rebuildRequest false s = (.notNeeded, s) := by simp [rebuildRequest, State.requestResult, hc, hu, hd]

theorem rebuildRequest_of_needed {force : Bool} (hc : s.configured = true) (hu : s.isUpdating = false)
    (hn : force = true ∨ s.gainsDirty = true) : rebuildRequest force s = (.started, s.claim) := by
  have hr : s.requestResult force = .started := (requestResult_started_iff force s).mpr ⟨hc, hu, hn⟩
  simp [rebuildRequest, hr]

/-- Settles O22: the four cases exclude each other, and only the last one writes. -/
theorem rebuildRequestIsATestAndSet : Obligations.RebuildRequestIsATestAndSet := by
  intro force s
  rw [← configured_iff, ← not_configured_iff]
  refine ⟨rebuildRequest_of_notConfigured force, rebuildRequest_of_updating force, ?_, rebuildRequest_of_needed⟩
  rintro hc hu rfl hd
  exact rebuildRequest_of_clean hc hu hd

/-! ### UPDATE (rule R113) -/

/-- What UPDATE makes of the result of its request (rule R113). -/
def RequestResult.answerUpdate : RequestResult → Status × Word
  | .notCfg => (.errNotCfg, 0)
  | .busy => (.busy, 0)
  | .notNeeded => (.notNeeded, 0)
  | .started => (.ok, 1)

/-- On its port UPDATE is the request, answered by its result. -/
theorem exec_update_of_request {force : Bool} {r : RequestResult} {t : State} (hp : s.port = .cp)
    (h : rebuildRequest force s = (r, t)) :
    exec (.update force) s = .next (t.respond r.answerUpdate.1 r.answerUpdate.2) := by
  rw [exec, execUpdate, onPort_same hp]
  rcases rebuildRequest_cases force s with ⟨e, -⟩ | ⟨e, -⟩ | ⟨e, -⟩ | ⟨e, -⟩ <;> rw [e] at h ⊢
  all_goals
    cases h
    rfl

/-- Settles O23, by the cases of the request. -/
theorem updateClaimsOrDrops : Obligations.UpdateClaimsOrDrops := by
  intro force s hp
  rw [← configured_iff, ← not_configured_iff]
  refine ⟨fun hc => ?_, fun hc hu => ?_, ?_, fun hc hu hn => ?_⟩
  · exact exec_update_of_request hp (rebuildRequest_of_notConfigured force hc)
  · exact exec_update_of_request hp (rebuildRequest_of_updating force hc hu)
  · rintro hc hu rfl hd
    exact exec_update_of_request hp (rebuildRequest_of_clean hc hu hd)
  · exact ⟨_, exec_update_of_request hp (rebuildRequest_of_needed hc hu hn), rfl, rfl, rfl, rfl⟩

/-! ### KRD (rule R120) -/

/-- Past its three checks KRD reads the selected buffer. -/
theorem exec_krd_of_readable {ksel : KSel} {n : Nat} (hp : s.port = .cp) (hn : n < s.params.numTaps)
    (hc : s.configured = true) (hr : s.isUpdating = false ∨ s.selected ksel = s.asel) :
    exec (.krd ksel n) s =
      ((s.kmem (s.selected ksel)).read n).elim (.fault (.unwrittenKernelTap (s.selected ksel) n))
        fun v => .next (s.respond .ok (v.signExtend 32)) := by
  have hfree : ¬(s.isUpdating = true ∧ s.selected ksel = s.asel.other) := by
    rintro ⟨hu, hs⟩
    rcases hr with hr | hr
    · exact absurd (hr.symm.trans hu) nofun
    · exact s.asel.other_ne (hs.symm.trans hr)
  rw [exec, execKrd, onPort_same hp, if_neg (Nat.not_le.mpr hn), if_neg (by simp [hc]), if_neg hfree]
  cases (s.kmem (s.selected ksel)).read n <;> rfl

/-- Settles O24: the checks in their order, then the element itself. -/
theorem krdReadsTheSelectedBuffer : Obligations.KrdReadsTheSelectedBuffer := by
  intro ksel n s hp b
  have hb : b = s.selected ksel := by cases ksel <;> rfl
  clear_value b
  subst hb
  rw [← configured_iff, ← not_configured_iff]
  refine ⟨fun hn => ?_, fun hn hc => ?_, fun hn hc hu hs => ?_, fun v hn hc hr hv => ?_, fun hn hc hr hv => ?_⟩
  · rw [exec, execKrd, onPort_same hp, if_pos hn, raiseErr_eq]
  · rw [exec, execKrd, onPort_same hp, if_neg (Nat.not_le.mpr hn), if_pos hc, raiseErr_eq]
  · rw [exec, execKrd, onPort_same hp, if_neg (Nat.not_le.mpr hn), if_neg (by simp [hc]), if_pos ⟨hu, hs⟩,
      raiseErr_eq]
  · rw [exec_krd_of_readable hp hn hc hr, hv, Option.elim_some]
  · rw [exec_krd_of_readable hp hn hc hr, hv, Option.elim_none]

/-! ### The engine's phases (rule R115) -/

theorem engineStep_of_idle (h : s.phase = .idle) : s.engineStep = s := by rw [State.engineStep, h]
theorem engineStep_of_commit (h : s.phase = .commit) : s.engineStep = s.eCommit := by rw [State.engineStep, h]
theorem engineStep_of_design (h : s.phase = .design) : s.engineStep = s.eDesign := by rw [State.engineStep, h]
theorem engineStep_of_swap (h : s.phase = .swap) : s.engineStep = s.eSwap := by rw [State.engineStep, h]

/-- Settles O9: the turn is the engine's, and its step is the one of the phase. -/
theorem engineFollowsItsPhase : Obligations.EngineFollowsItsPhase := by
  intro s ts ht
  refine ⟨_, step_of_engTurn (nextTurn_of_turns ht), fun h => ?_, fun h => ?_, fun h => ?_, fun h => ?_⟩
  · exact engineStep_of_idle h
  · have e := engineStep_of_commit (s := { s with turns := ts }) h
    exact ⟨congrArg State.phase e, e⟩
  · have e := engineStep_of_design (s := { s with turns := ts }) h
    exact ⟨congrArg State.phase e, e⟩
  · have e := engineStep_of_swap (s := { s with turns := ts }) h
    exact ⟨congrArg State.phase e, e⟩

/-! ### E-COMMIT (rule R116) -/

theorem State.eCommit_band (s : State) (i : Nat) : s.eCommit.band i = { s.band i with gc := (s.band i).gp } := by
  simp only [State.band, State.eCommit_bands, List.getD_eq_getElem?_getD, List.getElem?_map]
  cases s.bands[i]? <;> rfl

theorem State.eCommit_frame (s : State) : { s.eCommit with bands := s.bands, phase := s.phase } = s := rfl

/-- Settles O25, band by band. -/
theorem commitCopiesEveryGain : Obligations.CommitCopiesEveryGain := by
  intro s h
  rw [engineStep_of_commit h]
  refine ⟨fun i => ?_, s.eCommit_phase, s.eCommit_frame⟩
  rw [s.eCommit_band]
  exact ⟨rfl, rfl, rfl⟩

/-! ### E-DESIGN (rule R117) -/

theorem State.designed_length (s : State) : s.designed.length = s.params.numTaps := design_length ..

/-- The staging buffer after E-DESIGN: the designed taps, and above them what was there. -/
theorem State.eDesign_read_staging (s : State) (n : Nat) :
    (s.eDesign.kmem s.asel.other).read n =
      if n < s.params.numTaps then s.designed[n]? else (s.kmem s.asel.other).read n := by
  rw [State.eDesign_kmem, if_pos rfl, Memory.read_writeAll]
  split
  · next hn =>
    have hl : n < s.designed.length := s.designed_length.symm ▸ hn
    rw [List.getD_eq_getElem _ _ hl, List.getElem?_eq_getElem hl]
  · rfl

theorem State.eDesign_kmem_active (s : State) : s.eDesign.kmem s.asel = s.kmem s.asel := by
  rw [State.eDesign_kmem, if_neg (Buffer.other_ne _).symm]

theorem State.eDesign_frame (s : State) :
    { s.eDesign with kmemA := s.kmemA, kmemB := s.kmemB, phase := s.phase } = s := rfl

/-- Settles O26, from the reads of the two buffers. -/
theorem designWritesOnlyTheStagingBuffer : Obligations.DesignWritesOnlyTheStagingBuffer := by
  intro s h
  rw [engineStep_of_design h]
  refine ⟨s.designed, rfl, fun n hn => ?_, fun n hn => ?_, s.eDesign_kmem_active, s.eDesign_phase, s.eDesign_frame⟩
  · rw [s.eDesign_read_staging, if_pos hn]
  · rw [s.eDesign_read_staging, if_neg (Nat.not_lt.mpr hn)]

/-! ### E-SWAP (rule R118) -/

theorem State.eSwap_channel (s : State) (ch : Nat) : s.eSwap.channel ch = (s.assignKrefs s.asel.other).channel ch := rfl

/-- Beyond the flags, the active buffer and the references, E-SWAP only answers a held BLOCK (rule R137). -/
theorem State.eSwap_frame (s : State) :
    { s.eSwap with asel := s.asel, channels := s.channels, gainsDirty := s.gainsDirty,
                   isUpdating := s.isUpdating, phase := s.phase, apWait := s.apWait } =
      if s.apWait then s.answerOn .ap ⟨.ok, 1⟩ else s := by
  dsimp only
  rw [State.eSwap_ap]
  split <;> rfl

/-- Settles O27, channel by channel for the references and by one frame for the rest. -/
theorem swapPublishesTheStagingBuffer : Obligations.SwapPublishesTheStagingBuffer := by
  rintro s h ⟨-, -, hl⟩ hmax
  rw [engineStep_of_swap h]
  refine ⟨s.eSwap_asel, s.asel.other_ne, fun ch hch => ?_, fun ch hch => ?_, s.eSwap_gainsDirty, s.eSwap_isUpdating,
    s.eSwap_phase, s.eSwap_apWait, s.eSwap_frame⟩
  · rw [s.eSwap_channel, s.assignKrefs_channel _ ch (hl ▸ hch.trans_le hmax), if_pos hch]
    exact ⟨rfl, rfl, rfl⟩
  · rw [s.eSwap_channel, s.assignKrefs_channel_above _ ch hch]

end Sys2Proof.Machine

/-! PROOF. The arithmetic of the convolver (rules R134 and R135): the floor and the saturation, and that the exact sum
fits the accumulator. -/

namespace Sys2Proof.Machine

/-! ### Floor and saturation (rule R135) -/

theorem saturate_of_inRange {w : SampleWidth} {v : Int} (hlo : -2 ^ (w.bits - 1) ≤ v) (hhi : v < 2 ^ (w.bits - 1)) :
    saturate w v = v := by
  rw [saturate, max_eq_left hlo, min_eq_left (Int.le_sub_one_of_lt hhi)]

theorem saturate_of_above {w : SampleWidth} {v : Int} (h : 2 ^ (w.bits - 1) ≤ v) :
    saturate w v = 2 ^ (w.bits - 1) - 1 := by
  have hp : (0 : Int) < 2 ^ (w.bits - 1) := Int.pow_pos (by decide)
  rw [saturate, max_eq_left (by omega), min_eq_right (by omega)]

theorem saturate_of_below {w : SampleWidth} {v : Int} (h : v < -2 ^ (w.bits - 1)) :
    saturate w v = -2 ^ (w.bits - 1) := by
  have hp : (0 : Int) < 2 ^ (w.bits - 1) := Int.pow_pos (by decide)
  rw [saturate, max_eq_right h.le, min_eq_left (by omega)]

theorem saturate_inRange (w : SampleWidth) (v : Int) :
    -2 ^ (w.bits - 1) ≤ saturate w v ∧ saturate w v < 2 ^ (w.bits - 1) := by
  have hp : (0 : Int) < 2 ^ (w.bits - 1) := Int.pow_pos (by decide)
  rw [saturate]
  omega

theorem descale_floor (acc : Int) : descale acc * 32768 ≤ acc ∧ acc < (descale acc + 1) * 32768 := by
  rw [descale]
  omega

/-- Settles O39: the division rounds down, and the clamp has three ranges. -/
theorem descaleFloorsThenSaturates : Obligations.DescaleFloorsThenSaturates :=
  ⟨descale_floor, saturate_inRange, fun _ _ => saturate_of_inRange, fun _ _ => saturate_of_above,
    fun _ _ => saturate_of_below, by decide, by decide, by decide, by decide⟩

/-! ### The accumulator's range (rule R134) -/

theorem sampleWidth_bits_le (w : SampleWidth) : w.bits ≤ 32 := by cases w <;> decide

theorem sampleWidth_bits_pos (w : SampleWidth) : 0 < w.bits := by cases w <;> decide

/-- A sample is a two's-complement number of `W` bits. -/
theorem sampleOf_inRange (w : SampleWidth) (x : Word) :
    -2 ^ (w.bits - 1) ≤ sampleOf w x ∧ sampleOf w x < 2 ^ (w.bits - 1) :=
  ⟨BitVec.le_toInt _, BitVec.toInt_lt⟩

theorem abs_sampleOf_le (w : SampleWidth) (x : Word) : |sampleOf w x| ≤ 2 ^ (w.bits - 1) := by
  obtain ⟨hlo, hhi⟩ := sampleOf_inRange w x
  exact abs_le.mpr ⟨hlo, hhi.le⟩

theorem abs_coeffValue_le (v : Coeff) : |coeffValue v| ≤ 2 ^ 15 :=
  abs_le.mpr ⟨BitVec.le_toInt v, (BitVec.toInt_lt (x := v)).le⟩

/-- The largest magnitude of one product (rule R134). -/
theorem abs_product_le (w : SampleWidth) (x : Word) (v : Coeff) :
    |sampleOf w x * coeffValue v| ≤ 2 ^ (w.bits + 14) := by
  have hw := sampleWidth_bits_pos w
  calc |sampleOf w x * coeffValue v| = |sampleOf w x| * |coeffValue v| := abs_mul ..
    _ ≤ 2 ^ (w.bits - 1) * 2 ^ 15 :=
      mul_le_mul (abs_sampleOf_le w x) (abs_coeffValue_le v) (abs_nonneg _) (by positivity)
    _ = 2 ^ (w.bits + 14) := by rw [← pow_add]; congr 1; omega

/-- Each tap moves the accumulator by one product at most. -/
theorem abs_macOver_sub_le {w : SampleWidth} {t c : Nat} {hist : Memory 32} {b : Buffer} {kern : Memory 16}
    {ks : List Nat} {acc r : Int} (h : macOver w t c hist b kern ks acc = .ok r) :
    |r - acc| ≤ ks.length * 2 ^ (w.bits + 14) := by
  induction ks generalizing acc with
  | nil =>
    cases h
    simp
  | cons k ks ih =>
    rw [macOver] at h
    split at h
    · cases h
    · next x _ =>
      split at h
      · cases h
      · next v _ =>
        calc |r - acc| ≤ |r - (acc + sampleOf w x * coeffValue v)| + |acc + sampleOf w x * coeffValue v - acc| :=
              abs_sub_le ..
          _ = |r - (acc + sampleOf w x * coeffValue v)| + |sampleOf w x * coeffValue v| := by rw [add_sub_cancel_left]
          _ ≤ ks.length * 2 ^ (w.bits + 14) + 2 ^ (w.bits + 14) := add_le_add (ih h) (abs_product_le w x v)
          _ = (k :: ks).length * 2 ^ (w.bits + 14) := by rw [List.length_cons]; push_cast; ring

theorem le_two_pow_ceilLog2 (n : Nat) : n ≤ 2 ^ ceilLog2 n := by
  rw [ceilLog2]
  split
  · next h => exact h
  · exact Nat.le_of_pred_lt Nat.lt_log2_self

/-- The bound of rule R134 on a sum of `m` products, with the width that rule R5 asks of the accumulator. -/
theorem products_lt_accRange {p : Params} (hp : p.Sizes) {m : Nat} (hm : m ≤ p.numTaps) :
    (m : Int) * 2 ^ (p.sampleWidth.bits + 14) < 2 ^ (p.accWidth - 1) := by
  obtain ⟨-, -, -, -, -, hacc, -⟩ := hp
  have hmt : (m : Int) ≤ 2 ^ ceilLog2 p.numTaps := by exact_mod_cast hm.trans (le_two_pow_ceilLog2 _)
  calc (m : Int) * 2 ^ (p.sampleWidth.bits + 14)
      ≤ 2 ^ ceilLog2 p.numTaps * 2 ^ (p.sampleWidth.bits + 14) := mul_le_mul_of_nonneg_right hmt (by positivity)
    _ = 2 ^ (ceilLog2 p.numTaps + (p.sampleWidth.bits + 14)) := (pow_add ..).symm
    _ < 2 ^ (p.accWidth - 1) := pow_lt_pow_right₀ (by decide) (by omega)

/-- Settles O38: `m` products of at most `2^(W+14)` stay below the accumulator's ends. -/
theorem accumulatorNeverOverflows : Obligations.AccumulatorNeverOverflows := by
  intro p c hist b kern m acc hp hm h
  have hsum := abs_macOver_sub_le h
  rw [List.length_range, sub_zero] at hsum
  obtain ⟨hlo, hhi⟩ := abs_lt.mp (hsum.trans_lt (products_lt_accRange hp hm))
  exact ⟨hlo.le, hhi⟩

end Sys2Proof.Machine

/-! PROOF. PROC (rules R130 to R133, R136 and R140): one equation for each case, what the filtering case reads and
writes, and from these what it answers. -/

namespace Sys2Proof.Machine

variable {s t u : State} {ch : Nat} {x : Word}

/-! ### Samples and coefficients -/

theorem State.sampleAt_of_read {j : Nat} {v : Word} (h : (s.channel ch).hist.read j = some v) :
    s.sampleAt ch j = sampleOf s.params.sampleWidth v := by rw [State.sampleAt, h]

theorem State.coeffAt_of_read {b : Buffer} {n : Nat} {v : Coeff} (h : (s.kmem b).read n = some v) :
    s.coeffAt b n = coeffValue v := by rw [State.coeffAt, h]; rfl

theorem State.sampleAt_congr {j : Nat} (hp : t.params = s.params)
    (h : (t.channel ch).hist.read j = (s.channel ch).hist.read j) : t.sampleAt ch j = s.sampleAt ch j := by
  rw [State.sampleAt, State.sampleAt, h, hp]

theorem State.coeffAt_congr {b : Buffer} (h : t.kmem b = s.kmem b) (n : Nat) : t.coeffAt b n = s.coeffAt b n := by
  rw [State.coeffAt, State.coeffAt, h]

theorem State.sampleAt_inRange (s : State) (ch j : Nat) :
    -2 ^ (s.params.sampleWidth.bits - 1) ≤ s.sampleAt ch j ∧
      s.sampleAt ch j < 2 ^ (s.params.sampleWidth.bits - 1) := by
  cases h : (s.channel ch).hist.read j with
  | some v => exact State.sampleAt_of_read h ▸ sampleOf_inRange _ v
  | none =>
    have hz : s.sampleAt ch j = 0 := by rw [State.sampleAt, h]
    rw [hz]
    exact ⟨neg_nonpos.mpr (by positivity), by positivity⟩

/-- A cell keeps the whole sample: reading it back gives what was stored (rule R44). -/
@[simp] theorem sampleOf_cellOf (w : SampleWidth) (x : Word) : sampleOf w (cellOf w x) = sampleOf w x := by
  rw [sampleOf, cellOf, BitVec.setWidth_setWidth_of_le _ (sampleWidth_bits_le w), BitVec.setWidth_eq, sampleOf]

theorem sampleOf_zero (w : SampleWidth) : sampleOf w 0 = 0 := by simp [sampleOf]

/-! ### A sample goes into the ring -/

/-- The state once PROC's sample is in the ring and the cursor has moved on (rule R133). -/
def State.push (s : State) (ch : Nat) (x : Word) : State := s.setChannel ch (s.pushSample ch x)

theorem State.push_kmem (s : State) (ch : Nat) (x : Word) (b : Buffer) : (s.push ch x).kmem b = s.kmem b := by
  cases b <;> rfl

theorem State.push_channel (h : ch < s.channels.length) (x : Word) (k : Nat) :
    (s.push ch x).channel k = if k = ch then s.pushSample ch x else s.channel k := s.setChannel_channel _ k h

theorem State.push_channel_same (h : ch < s.channels.length) (x : Word) :
    (s.push ch x).channel ch = s.pushSample ch x := by rw [State.push_channel h, if_pos rfl]

theorem State.push_sampleAt_cur (h : ch < s.channels.length) (x : Word) :
    (s.push ch x).sampleAt ch (s.channel ch).cur = sampleOf s.params.sampleWidth x := by
  rw [State.sampleAt_of_read (v := cellOf s.params.sampleWidth x), State.push, State.setChannel_params, sampleOf_cellOf]
  rw [State.push_channel_same h]
  exact Memory.read_write_same ..

theorem State.push_read_other (h : ch < s.channels.length) (x : Word) {j : Nat} (hj : j ≠ (s.channel ch).cur) :
    ((s.push ch x).channel ch).hist.read j = (s.channel ch).hist.read j := by
  rw [State.push_channel_same h]
  exact Memory.read_write_other _ _ hj

theorem State.push_sampleAt_other (h : ch < s.channels.length) (x : Word) {j : Nat} (hj : j ≠ (s.channel ch).cur) :
    (s.push ch x).sampleAt ch j = s.sampleAt ch j := State.sampleAt_congr rfl (State.push_read_other h x hj)

/-! ### The cases of PROC -/

theorem exec_proc_of_absent (hp : s.port = .ap) (hch : s.nchan ≤ ch) :
    exec (.proc ch x) s = .next (s.respond .errIndex 0) := by
  rw [exec, execProc, onPort_same hp, if_pos hch, raiseErr_eq]

theorem exec_proc_of_bypass (hp : s.port = .ap) (hch : ch < s.nchan) (hv : (s.channel ch).kref.valid = false) :
    exec (.proc ch x) s = .next (s.respond .ok (responseOf (sampleOf s.params.sampleWidth x))) := by
  rw [exec, execProc, onPort_same hp, if_neg (Nat.not_le.mpr hch), if_pos hv, respond_eq]

/-- The multiply-accumulate of a PROC: over the ring that the sample has gone into, with the channel's kernel. -/
def State.mac (s : State) (ch : Nat) (x : Word) : Except Fault Int :=
  macOver s.params.sampleWidth s.params.numTaps (s.channel ch).cur (s.pushSample ch x).hist (s.channel ch).kref.sel
    (s.kmem (s.channel ch).kref.sel) (List.range s.params.numTaps) 0

/-- What PROC makes of the multiply-accumulate: a fault, or the answer with the sample in the ring (rules R133 and
R135). -/
def State.afterMac (s : State) (ch : Nat) (x : Word) : Except Fault Int → Host.Outcome State Fault Refusal
  | .error f => .fault f
  | .ok acc => .next ((s.push ch x).respond .ok (responseOf (saturate s.params.sampleWidth (descale acc))))

theorem exec_proc_of_assigned (hp : s.port = .ap) (hch : ch < s.nchan) (hv : (s.channel ch).kref.valid = true) :
    exec (.proc ch x) s = s.afterMac ch x (s.mac ch x) := by
  rw [exec, execProc, onPort_same hp, if_neg (Nat.not_le.mpr hch), if_neg (by simp [hv])]
  rfl

/-- Settles O36: a machine that is not configured has no channels (rule R17). -/
theorem procOnAnAbsentChannel : Obligations.ProcOnAnAbsentChannel := by
  rintro ch x s hp (hch | ⟨hi, hc⟩)
  · exact exec_proc_of_absent hp hch
  · refine exec_proc_of_absent hp (Nat.le_of_not_lt fun hch => ?_)
    exact absurd (hc.symm.trans (hi.configured_of_channel hch)) nofun

/-- Settles O37, from the case of a reference that is not valid. -/
theorem procBypassesWithoutAKernel : Obligations.ProcBypassesWithoutAKernel := fun _ _ _ => exec_proc_of_bypass

/-! ### The filtering case (rules R130 and R133) -/

/-- PROC on this channel takes the filtering path and reads no element that has not been written. -/
structure State.Ready (s : State) (ch : Nat) : Prop where
  port : s.port = .ap
  present : ch < s.nchan
  inFile : ch < s.channels.length
  assigned : (s.channel ch).kref.valid = true
  ringWritten : ∀ j < s.params.numTaps, ((s.channel ch).hist.read j).isSome = true
  kernelWritten : ∀ n < s.params.numTaps, ((s.kmem (s.channel ch).kref.sel).read n).isSome = true

theorem State.Inv.ready (h : s.Inv) (hp : s.port = .ap) (hch : ch < s.nchan)
    (hv : (s.channel ch).kref.valid = true) : s.Ready ch where
  port := hp
  present := hch
  inFile := h.channel_lt hch
  assigned := hv
  ringWritten := h.historiesWritten ch hch
  kernelWritten := h.kernelsWritten (h.configured_of_channel hch) _

/-- The exact sum of a PROC: the sample of age `k`, the new one being of age 0, times coefficient `k` (rule R133). -/
def State.filtered (s : State) (ch : Nat) (x : Word) : Int :=
  ∑ k ∈ Finset.range s.params.numTaps,
    (s.push ch x).sampleAt ch (ringPos s.params.numTaps (s.channel ch).cur k) * s.coeffAt (s.channel ch).kref.sel k

theorem State.Ready.mac_eq_filtered (h : s.Ready ch) (x : Word) : s.mac ch x = .ok (s.filtered ch x) := by
  rw [State.mac, macOver_eq_sum
    (x := fun k => (s.push ch x).sampleAt ch (ringPos s.params.numTaps (s.channel ch).cur k))
    (k := s.coeffAt (s.channel ch).kref.sel), zero_add]
  · rfl
  · intro k hk
    have ht : 0 < s.params.numTaps := Nat.zero_lt_of_lt (List.mem_range.mp hk)
    obtain ⟨v, hr⟩ := Option.isSome_iff_exists.mp
      (Memory.isSome_read_write (s.channel ch).cur (cellOf s.params.sampleWidth x)
        (h.ringWritten _ (ringPos_lt (c := (s.channel ch).cur) (k := k) ht)))
    refine ⟨v, hr, (State.sampleAt_of_read (s := s.push ch x) ?_).symm⟩
    rw [State.push_channel_same h.inFile]
    exact hr
  · intro k hk
    obtain ⟨v, hr⟩ := Option.isSome_iff_exists.mp (h.kernelWritten k (List.mem_range.mp hk))
    exact ⟨v, hr, (State.coeffAt_of_read hr).symm⟩

/-- The answer of a PROC that filters (rule R135). -/
def State.output (s : State) (ch : Nat) (x : Word) : Word :=
  responseOf (saturate s.params.sampleWidth (descale (s.filtered ch x)))

theorem State.Ready.exec_proc (h : s.Ready ch) (x : Word) :
    exec (.proc ch x) s = .next ((s.push ch x).respond .ok (s.output ch x)) := by
  rw [exec_proc_of_assigned h.port h.present h.assigned, h.mac_eq_filtered, State.afterMac, State.output]

/-- The answer is the newest on the audio port. -/
theorem State.push_respond_answers (hp : s.port = .ap) (x rw : Word) :
    ((s.push ch x).respond .ok rw).ap.answers = ⟨.ok, rw⟩ :: s.ap.answers := by
  rw [State.respond_ap, State.push, State.setChannel_port, if_pos hp, State.setChannel_ap]

/-- Settles O34: the sum is the one that the multiply-accumulate computes, and one push writes all the rest. -/
theorem procFiltersOneSample : Obligations.ProcFiltersOneSample := by
  rintro ch x s hp ⟨-, -, hl⟩ hch hmax hv - hring hkern
  have hlt : ch < s.channels.length := hl ▸ hch.trans_le hmax
  have hready : s.Ready ch := ⟨hp, hch, hlt, hv, hring, hkern⟩
  have hsame := State.push_channel_same hlt x
  refine ⟨_, s.filtered ch x, hready.exec_proc x, Finset.sum_congr rfl fun k hk => ?_, State.push_sampleAt_cur hlt x,
    fun j hj => State.push_read_other hlt x hj, congrArg Channel.cur hsame,
    s.setChannel_pushSample_kref ch x ch, fun c hc => ?_, rfl⟩
  · rw [ringPos_eq_emod (Finset.mem_range.mp hk)]
    rfl
  · rw [State.respond_channel, State.push_channel hlt, if_neg hc]

/-! ### Channel independence (rule R140) -/

theorem State.kmem_congr (ha : s.kmemA = u.kmemA) (hb : s.kmemB = u.kmemB) (b : Buffer) : s.kmem b = u.kmem b := by
  cases b
  · exact ha
  · exact hb

theorem State.pushSample_congr (hp : s.params = u.params) (hc : s.channel ch = u.channel ch) (x : Word) :
    s.pushSample ch x = u.pushSample ch x := by rw [State.pushSample, State.pushSample, hp, hc]

theorem State.mac_congr (hp : s.params = u.params) (hc : s.channel ch = u.channel ch)
    (hk : ∀ b, s.kmem b = u.kmem b) (x : Word) : s.mac ch x = u.mac ch x := by
  rw [State.mac, State.mac, State.pushSample_congr hp hc, hp, hc, hk]

/-- The newest answer on the audio port is the one just given there. -/
theorem State.respond_ap_head (hp : s.port = .ap) (st : Status) (rw : Word) :
    (s.respond st rw).ap.answers.head? = some ⟨st, rw⟩ := by rw [State.respond_ap, if_pos hp, List.head?_cons]

/-- Settles O41: in each case of PROC the two states give one answer and push one sample. -/
theorem procDependsOnlyOnItsChannel : Obligations.ProcDependsOnlyOnItsChannel := by
  rintro ch x s u hps hpu hp hn hc ha hb ⟨-, -, hls⟩ ⟨-, -, hlu⟩ hmax t h
  rcases Nat.lt_or_ge ch s.nchan with hch | hch
  · cases hv : (s.channel ch).kref.valid with
    | false =>
      rw [exec_proc_of_bypass hps hch hv] at h
      cases h
      refine ⟨_, exec_proc_of_bypass hpu (hn ▸ hch) (hc ▸ hv), ?_, hc.symm⟩
      rw [State.respond_ap_head hpu, State.respond_ap_head hps, hp]
    | true =>
      have hmac := State.mac_congr hp hc (State.kmem_congr ha hb) x
      rw [exec_proc_of_assigned hps hch hv] at h
      rw [exec_proc_of_assigned hpu (hn ▸ hch) (hc ▸ hv), ← hmac]
      cases hacc : s.mac ch x with
      | error f =>
        rw [hacc] at h
        cases h
      | ok acc =>
        rw [hacc] at h
        cases h
        have hlts : ch < s.channels.length := hls ▸ hch.trans_le hmax
        have hltu : ch < u.channels.length := by
          rw [hlu, ← hp]
          exact hch.trans_le hmax
        refine ⟨_, rfl, ?_, ?_⟩
        · rw [State.respond_ap_head (s := u.push ch x) hpu, State.respond_ap_head (s := s.push ch x) hps, hp]
        · rw [State.respond_channel, State.respond_channel, State.push_channel_same hlts, State.push_channel_same hltu,
            State.pushSample_congr hp hc]
  · rw [exec_proc_of_absent hps hch] at h
    cases h
    refine ⟨_, exec_proc_of_absent hpu (hn ▸ hch), ?_, hc.symm⟩
    rw [State.respond_ap_head hpu, State.respond_ap_head hps]

/-! ### The identity kernel (rule R136) -/

theorem centreTap_lt {t : Nat} (h : 0 < t) : centreTap t < t := by rw [centreTap]; omega

theorem coeffValue_identityKernel (t n : Nat) :
    coeffValue (identityKernel t n) = if n = centreTap t then 32767 else 0 := by
  rw [identityKernel]
  split <;> rfl

/-- With the identity kernel one product is left, that of the centre tap. -/
theorem State.filtered_of_identity (ht : 0 < s.params.numTaps)
    (hid : ∀ n < s.params.numTaps,
      (s.kmem (s.channel ch).kref.sel).read n = some (identityKernel s.params.numTaps n)) :
    s.filtered ch x = (s.push ch x).sampleAt ch
      (ringPos s.params.numTaps (s.channel ch).cur (centreTap s.params.numTaps)) * 32767 := by
  rw [State.filtered, Finset.sum_eq_single_of_mem _ (Finset.mem_range.mpr (centreTap_lt ht))]
  · rw [State.coeffAt_of_read (hid _ (centreTap_lt ht)), coeffValue_identityKernel, if_pos rfl]
  · intro k hk hne
    rw [State.coeffAt_of_read (hid k (Finset.mem_range.mp hk)), coeffValue_identityKernel, if_neg hne, mul_zero]

/-- The gain of 32767/32768, floored, is the loss of rule R136, and it brings no sample out of range. -/
theorem saturate_descale_identity {w : SampleWidth} {v : Int} (hlo : -2 ^ (w.bits - 1) ≤ v)
    (hhi : v < 2 ^ (w.bits - 1)) : saturate w (descale (v * 32767)) = v - -((-v) / 32768) := by
  have hd : descale (v * 32767) = v - -((-v) / 32768) := by
    rw [descale]
    omega
  rw [hd]
  exact saturate_of_inRange (by omega) (by omega)

/-- Settles O40: the sum is one product, of the sample of age `M`. -/
theorem identityKernelOutput : Obligations.IdentityKernelOutput := by
  intro ch x s hi hp hch hv hid
  rw [← hi.krefActive ch hv] at hid
  refine ⟨_, _, (hi.ready hp hch hv).exec_proc x, rfl, ?_⟩
  obtain ⟨hlo, hhi⟩ := (s.push ch x).sampleAt_inRange ch
    (ringPos s.params.numTaps (s.channel ch).cur (centreTap s.params.numTaps))
  rw [State.push_respond_answers hp, State.output, State.filtered_of_identity hi.taps_pos hid,
    saturate_descale_identity (w := s.params.sampleWidth) hlo hhi, ringPos_eq_emod (centreTap_lt hi.taps_pos)]
  rfl

end Sys2Proof.Machine

/-! PROOF. A sequence of PROCs is a convolution (rule R133): after `n` of them the ring holds the latest inputs, each at
the position of its number modulo `T`. -/

namespace Sys2Proof.Machine

variable {s t : State} {ch n : Nat} {x : Nat → Word}

theorem execAll_append (is js : List Instr) (h : execAll is s = .next t) :
    execAll (is ++ js) s = execAll js t := by
  induction is generalizing s with
  | nil =>
    cases h
    rfl
  | cons i is ih =>
    rw [execAll] at h
    rw [List.cons_append, execAll]
    split at h
    · exact ih h
    · cases h
    · cases h

/-- The input of age `k` when input `m` is the newest; before input 0 there was silence (rule R133). -/
def delayedInput (w : SampleWidth) (x : Nat → Word) (m k : Nat) : Int := if k ≤ m then sampleOf w (x (m - k)) else 0

/-- What the `m`-th PROC answers, by the convolution of the inputs `x` with the kernel of channel `ch` (rule R133). -/
def State.convolved (s : State) (ch : Nat) (x : Nat → Word) (m : Nat) : Answer :=
  ⟨.ok, responseOf (saturate s.params.sampleWidth (descale (∑ k ∈ Finset.range s.params.numTaps,
    delayedInput s.params.sampleWidth x m k * s.coeffAt (s.channel ch).kref.sel k)))⟩

/-- The ring of channel `ch` after the first `n` inputs `x` have gone into it, from zeroes and cursor 0. -/
structure State.RingHolds (s : State) (ch : Nat) (x : Nat → Word) (n : Nat) : Prop where
  cursor : (s.channel ch).cur = n % s.params.numTaps
  latest : ∀ i < n, n ≤ i + s.params.numTaps →
    s.sampleAt ch (i % s.params.numTaps) = sampleOf s.params.sampleWidth (x i)
  unused : ∀ j, n ≤ j → j < s.params.numTaps → s.sampleAt ch j = 0

/-- `n` and an earlier number less than `t` back have different remainders by `t`. -/
theorem mod_ne_mod_of_near {t i n : Nat} (h : i < n) (hn : n < i + t) : i % t ≠ n % t := by
  intro e
  have hd : t ∣ n - i := (Nat.modEq_iff_dvd' h.le).mp e
  exact absurd (Nat.le_of_dvd (by omega) hd) (by omega)

theorem State.RingHolds.push (h : s.RingHolds ch x n) (hlt : ch < s.channels.length) :
    (s.push ch (x n)).RingHolds ch x (n + 1) where
  cursor := by
    rw [State.push_channel_same hlt]
    show ((s.channel ch).cur + 1) % s.params.numTaps = (n + 1) % s.params.numTaps
    rw [h.cursor, Nat.mod_add_mod]
  latest := fun i hi hage => by
    show (s.push ch (x n)).sampleAt ch (i % s.params.numTaps) = sampleOf s.params.sampleWidth (x i)
    rcases Nat.lt_succ_iff_lt_or_eq.mp hi with hi | rfl
    · have hne := mod_ne_mod_of_near hi hage
      rw [State.push_sampleAt_other hlt _ (h.cursor ▸ hne), h.latest i hi (Nat.le_of_succ_le hage)]
    · rw [← h.cursor, State.push_sampleAt_cur hlt]
  unused := fun j hj hjt => by
    have hjt : j < s.params.numTaps := hjt
    rw [State.push_sampleAt_other hlt _ (by rw [h.cursor, Nat.mod_eq_of_lt (by omega)]; omega),
      h.unused j (Nat.le_of_succ_le hj) hjt]

/-- Age `k` before the input `n` is input `n - k`, or a zero that nothing has overwritten yet. -/
theorem State.RingHolds.sampleAt_age {k : Nat} (h : s.RingHolds ch x (n + 1)) (hk : k < s.params.numTaps) :
    s.sampleAt ch (ringPos s.params.numTaps (n % s.params.numTaps) k) = delayedInput s.params.sampleWidth x n k := by
  rw [delayedInput, ringPos, Nat.add_sub_assoc hk.le, Nat.mod_add_mod]
  split
  · next hkn =>
    have e : n + (s.params.numTaps - k) = n - k + s.params.numTaps := by omega
    rw [e, Nat.add_mod_right, h.latest (n - k) (by omega) (by omega)]
  · rw [Nat.mod_eq_of_lt (by omega), h.unused _ (by omega) (by omega)]

theorem State.RingHolds.filtered_eq (h : s.RingHolds ch x n) (hlt : ch < s.channels.length) :
    s.filtered ch (x n) = ∑ k ∈ Finset.range s.params.numTaps,
      delayedInput s.params.sampleWidth x n k * s.coeffAt (s.channel ch).kref.sel k := by
  refine Finset.sum_congr rfl fun k hk => ?_
  rw [h.cursor]
  exact congrArg (· * _) ((h.push hlt).sampleAt_age (Finset.mem_range.mp hk))

/-- `t` is what the first `n` PROCs make of `s`: kernels and reference as they were, the ring filled, the answers
given. -/
structure State.ConvolvedInto (s : State) (ch : Nat) (x : Nat → Word) (n : Nat) (t : State) : Prop where
  inv : t.Inv
  port : t.port = s.port
  nchan : t.nchan = s.nchan
  params : t.params = s.params
  kernels : ∀ b, t.kmem b = s.kmem b
  kref : (t.channel ch).kref = (s.channel ch).kref
  ring : t.RingHolds ch x n
  answers : t.ap.answers = ((List.range n).map (s.convolved ch x)).reverse ++ s.ap.answers

theorem State.ConvolvedInto.convolved_eq (h : s.ConvolvedInto ch x n t) (m : Nat) :
    t.convolved ch x m = s.convolved ch x m := by
  have hk := State.coeffAt_congr (h.kernels (s.channel ch).kref.sel)
  simp only [State.convolved, h.params, h.kref, hk]

/-- One more PROC answers one more value of the convolution. -/
theorem State.ConvolvedInto.proc (h : s.ConvolvedInto ch x n t) (hready : t.Ready ch) :
    ∃ u, exec (.proc ch (x n)) t = .next u ∧ s.ConvolvedInto ch x (n + 1) u := by
  have hx := hready.exec_proc (x n)
  have hout : (⟨.ok, t.output ch (x n)⟩ : Answer) = s.convolved ch x n := by
    rw [State.output, h.ring.filtered_eq hready.inFile, ← h.convolved_eq n]
    rfl
  refine ⟨_, hx, h.inv.exec hx, h.port, h.nchan, h.params, fun b => ?_, ?_, ?_, ?_⟩
  · rw [State.respond_kmem, State.push_kmem, h.kernels]
  · rw [State.respond_channel, State.push_channel_same hready.inFile]
    exact h.kref
  · exact { h.ring.push hready.inFile with }
  · rw [State.push_respond_answers hready.port, hout, h.answers, List.range_succ]
    simp

/-- The whole sequence, for inputs given by their number. -/
theorem execAll_procs (hi : s.Inv) (hp : s.port = .ap) (hch : ch < s.nchan) (hv : (s.channel ch).kref.valid = true)
    (hring : s.RingHolds ch x 0) (n : Nat) :
    ∃ t, execAll ((List.range n).map fun i => .proc ch (x i)) s = .next t ∧ s.ConvolvedInto ch x n t := by
  induction n with
  | zero => exact ⟨s, rfl, hi, rfl, rfl, rfl, fun _ => rfl, rfl, hring, rfl⟩
  | succ n ih =>
    obtain ⟨t, ht, hc⟩ := ih
    obtain ⟨u, hu, hcu⟩ := hc.proc (hc.inv.ready (hc.port.trans hp) (hc.nchan ▸ hch) (hc.kref ▸ hv))
    refine ⟨u, ?_, hcu⟩
    rw [List.range_succ, List.map_append, execAll_append _ _ ht]
    simp only [List.map_cons, List.map_nil, execAll, hu]

theorem map_eq_map_range_getD {α β : Type} (f : α → β) (xs : List α) (d : α) :
    xs.map f = (List.range xs.length).map fun i => f (xs.getD i d) := by
  apply List.ext_getElem
  · simp
  · intro i h1 h2
    rw [List.length_map] at h1
    simp [h1]

/-- Settles O35, by induction on the number of PROCs. -/
theorem procSequenceIsAConvolution : Obligations.ProcSequenceIsAConvolution := by
  intro ch xs s hi hp hch hv hcur hzero
  have hring : s.RingHolds ch (xs.getD · 0) 0 := by
    refine ⟨by rw [hcur, Nat.zero_mod], nofun, fun j _ hj => ?_⟩
    rw [State.sampleAt_of_read (hzero j hj), sampleOf_zero]
  obtain ⟨t, ht, hc⟩ := execAll_procs hi hp hch hv hring xs.length
  exact ⟨t, map_eq_map_range_getD (Instr.proc ch) xs 0 ▸ ht, hc.answers⟩

end Sys2Proof.Machine

/-! PROOF. BLOCK and the hold of the audio port (rules R137 and R138). -/

namespace Sys2Proof.Machine

variable {s : State}

/-- Settles O8: the audio port's turn is taken, and the port has no step while it is held. -/
theorem heldAudioPortWaits : Obligations.HeldAudioPortWaits := by
  intro s ts ht hw
  rw [step_of_apTurn (nextTurn_of_turns ht), if_pos hw]

/-- What BLOCK makes of the result of its request (rule R137). -/
def State.afterBlock (s : State) : RequestResult → State
  | .notCfg => s.respond .ok 4
  | .busy => s.respond .ok 2
  | .notNeeded => s.respond .ok 3
  | .started => { s.claim with apWait := true }

theorem exec_block_of_autoOff (hp : s.port = .ap) (ha : s.autoUpdate = false) :
    exec .block s = .next (s.respond .ok 0) := by
  rw [exec, execBlock, onPort_same hp, if_pos ha, respond_eq]

/-- With auto-update on BLOCK is a request that is not forced, and its result decides. -/
theorem exec_block_of_request {r : RequestResult} {t : State} (hp : s.port = .ap) (ha : s.autoUpdate = true)
    (h : rebuildRequest false s = (r, t)) : exec .block s = .next (s.afterBlock r) := by
  rw [exec, execBlock, onPort_same hp, if_neg (by simp [ha])]
  rcases rebuildRequest_cases false s with ⟨e, -⟩ | ⟨e, -⟩ | ⟨e, -⟩ | ⟨e, -⟩ <;> rw [e] at h ⊢
  all_goals
    cases h
    rfl

/-- Settles O42, by the cases of the request; E-SWAP answers where the port is held. -/
theorem blockRequestsAndHolds : Obligations.BlockRequestsAndHolds := by
  refine ⟨fun s hw => ⟨?_, s.eSwap_apWait⟩, fun s hp => ?_⟩
  · rw [State.eSwap_ap, if_pos hw]
  · rw [← configured_iff, ← not_configured_iff]
    exact ⟨exec_block_of_autoOff hp,
      fun ha hc => exec_block_of_request hp ha (rebuildRequest_of_notConfigured false hc),
      fun ha hc hu => exec_block_of_request hp ha (rebuildRequest_of_updating false hc hu),
      fun ha hc hu hd => exec_block_of_request hp ha (rebuildRequest_of_clean hc hu hd),
      fun ha hc hu hd => exec_block_of_request hp ha (rebuildRequest_of_needed hc hu (.inr hd))⟩

/-- Settles O43, from what E-SWAP writes to the ports. -/
theorem swapAnswersTheHeldBlock : Obligations.SwapAnswersTheHeldBlock := by
  intro s h
  rw [engineStep_of_swap h]
  refine ⟨s.eSwap_apWait, s.eSwap_cp, ?_, ?_⟩
  · rw [State.eSwap_ap]
    split <;> rfl
  · rw [State.eSwap_ap]
    split <;> rfl

end Sys2Proof.Machine

/-! PROOF. The facade's operations on the bands, the mode and the registers (rules R150 and R154 to R160): what each
answers past its checks, and what it writes. -/

namespace Sys2Proof.Machine

variable {s t : State} {i : Nat}

/-- Settles O11: a zero command word has no operand to check, and a held port has no step (rule R138). -/
theorem nopAnswersOk : Obligations.NopAnswersOk :=
  ⟨fun _ => rfl, respond_eq .ok 0, fun s ts _ _ ht _ hw => heldAudioPortWaits s ts ht hw⟩

/-! ### The check of the band index, which four operations share (rule R160) -/

theorem onPort_of_bandAbsent (hp : s.port = .cp) (hi : s.params.numBands ≤ i)
    (body : Host.Outcome State Fault Refusal) :
    onPort .cp s (if s.params.numBands ≤ i then raiseErr .errIndex s else body) = .next (s.respond .errIndex 0) := by
  rw [onPort_same hp, if_pos hi, raiseErr_eq]

theorem onPort_of_bandPresent (hp : s.port = .cp) (hi : i < s.params.numBands)
    (body : Host.Outcome State Fault Refusal) :
    onPort .cp s (if s.params.numBands ≤ i then raiseErr .errIndex s else body) = body := by
  rw [onPort_same hp, if_neg (Nat.not_le.mpr hi)]

/-- Settles O19: the index is the first check of each of these operations. -/
theorem bandIndexOutOfRangeChangesNothing : Obligations.BandIndexOutOfRangeChangesNothing := by
  intro i s w hp hi c hc
  simp only [List.mem_cons, List.not_mem_nil, or_false] at hc
  rcases hc with rfl | rfl | rfl | rfl | rfl
  all_goals exact onPort_of_bandAbsent hp hi _

/-! ### SETG and SETGN (rules R154 and R155) -/

theorem gclamp_of_below {F : Type} {nm : Num F} {g : F} (h : nm.flt g (nm.fconst (-90) 1) = true) :
    gclamp nm g = nm.fconst (-90) 1 := if_pos h

theorem gclamp_of_above {F : Type} {nm : Num F} {g : F} (hlo : nm.flt g (nm.fconst (-90) 1) = false)
    (h : nm.flt (nm.fconst 12 1) g = true) : gclamp nm g = nm.fconst 12 1 := by
  rw [gclamp, if_neg (by simp [hlo]), if_pos h]

theorem gclamp_of_between {F : Type} {nm : Num F} {g : F} (hlo : nm.flt g (nm.fconst (-90) 1) = false)
    (hhi : nm.flt (nm.fconst 12 1) g = false) : gclamp nm g = g := by
  rw [gclamp, if_neg (by simp [hlo]), if_neg (by simp [hhi])]

/-- Past their two checks both setters store a gain; this is what that writes, and that it writes nothing else. -/
theorem State.storeGain_writes (hs : s.Shaped) (hi : i < s.params.numBands) (g : Flt) :
    (s.storeGain i g).band i = { s.band i with gp := gclamp s.num g } ∧
    (∀ j, j ≠ i → (s.storeGain i g).band j = s.band j) ∧ (s.storeGain i g).gainsDirty = true ∧
    { (s.storeGain i g).respond .ok 0 with bands := s.bands, gainsDirty := s.gainsDirty } = s.respond .ok 0 := by
  obtain ⟨hb, -, -⟩ := hs
  have hband := fun j => s.storeGain_band g j (hb.symm ▸ hi)
  exact ⟨(hband i).trans (if_pos rfl), fun j hj => (hband j).trans (if_neg hj), rfl, rfl⟩

theorem exec_setg_of_notNaN {g : Word} (hp : s.port = .cp) (hi : i < s.params.numBands)
    (hg : s.num.isNaN (s.num.ofBits32 g) = false) :
    exec (.setg i g) s = .next ((s.storeGain i (s.num.ofBits32 g)).respond .ok 0) := by
  rw [exec, execSetg, onPort_of_bandPresent hp hi, if_neg (by simp [hg]), respond_eq]

theorem exec_setgn_of_notNaN {v : Word} (hp : s.port = .cp) (hi : i < s.params.numBands)
    (hv : s.num.isNaN (s.num.ofBits32 v) = false) :
    exec (.setgn i v) s = .next ((s.storeGain i (normalisedGain s.num (s.num.ofBits32 v))).respond .ok 0) := by
  rw [exec, execSetgn, onPort_of_bandPresent hp hi, if_neg (by simp [hv]), respond_eq]

/-- Settles O14: the clamp by its three cases, the two checks in their order, and the store. -/
theorem setgStoresTheClampedGain : Obligations.SetgStoresTheClampedGain := by
  refine ⟨fun _ _ _ => ⟨gclamp_of_below, gclamp_of_above, gclamp_of_between⟩, fun i aw s hp hs => ⟨?_, ?_, ?_⟩⟩
  · exact fun hi => onPort_of_bandAbsent hp hi _
  · intro hi hg
    rw [exec, execSetg, onPort_of_bandPresent hp hi, if_pos hg, raiseErr_eq]
  · exact fun hi hg => ⟨_, exec_setg_of_notNaN hp hi hg, State.storeGain_writes hs hi _⟩

/-- Settles O15: SETG's checks and store, for the image of the mapping. -/
theorem setgnStoresTheMappedGain : Obligations.SetgnStoresTheMappedGain := by
  refine fun i aw s hp hs => ⟨?_, ?_, ?_⟩
  · exact fun hi => onPort_of_bandAbsent hp hi _
  · intro hi hv
    rw [exec, execSetgn, onPort_of_bandPresent hp hi, if_pos hv, raiseErr_eq]
  · exact fun hi hv => ⟨_, exec_setgn_of_notNaN hp hi hv, State.storeGain_writes hs hi (normalisedGain _ _)⟩

/-! ### GETG and GETF (rules R156 and R157) -/

/-- Settles O17: the index is the only check. -/
theorem getgReadsAGain : Obligations.GetgReadsAGain := fun _ _ _ hp =>
  ⟨fun hi => onPort_of_bandAbsent hp hi _, fun hi => onPort_of_bandPresent hp hi _⟩

theorem exec_getf_of_bandPresent (hp : s.port = .cp) (hi : i < s.params.numBands) :
    exec (.getf i) s = .next (s.respond .ok (s.num.toBits32 (s.band i).freq)) := onPort_of_bandPresent hp hi _

/-- END leaves the band registers alone, whether it is refused or not (rule R153). -/
theorem exec_end_keeps_bands (h : exec .end_ s = .next t) :
    t.port = s.port ∧ t.params = s.params ∧ t.bands = s.bands := by
  cases exec_effect h with
  | answer => exact ⟨rfl, rfl, rfl⟩
  | release => exact ⟨rfl, rfl, rfl⟩

/-- Settles O18: GETF reads `FREQ`, which reset clears and END keeps. -/
theorem getfReadsTheCentreFrequency : Obligations.GetfReadsTheCentreFrequency := by
  refine ⟨fun i s hp => ⟨?_, exec_getf_of_bandPresent hp⟩, fun p k i hi => ⟨?_, fun hn => ?_⟩, fun i s t hp hi h => ?_⟩
  · exact fun hi => onPort_of_bandAbsent hp hi _
  · rw [exec_getf_of_bandPresent rfl hi, resetOf_band k hi]
    rfl
  · rw [num_of_binary32 hn]
    show (Flt.ofBits (fconst32 0 1)).bits = 0
    rw [Flt.bits_ofBits]
    decide
  · obtain ⟨hport, hparams, hbands⟩ := exec_end_keeps_bands h
    rw [exec_getf_of_bandPresent (hport.trans hp) (hparams ▸ hi), State.num, State.band, hparams, hbands]
    rfl

/-! ### SETAUTO and RDCSR (rules R158 and R159) -/

/-- Settles O20, by one frame for all that SETAUTO leaves alone. -/
theorem setautoWritesOnlyAuto : Obligations.SetautoWritesOnlyAuto := fun en s hp =>
  ⟨State.respond { s with autoUpdate := en } .ok 0, onPort_same hp _, rfl, rfl, rfl⟩

theorem exec_rdcsr_of_mapped {r : Nat} (hp : s.port = .cp) (hr : r < 8) :
    exec (.rdcsr r) s = .next (s.respond .ok (s.csr r)) := by
  rw [exec, execRdcsr, onPort_same hp, if_neg (Nat.not_le.mpr hr), respond_eq]

theorem Buffer.bit_eq_decide (b : Buffer) : b.bit = decide (b = .bufB) := by cases b <;> rfl

/-- Settles O21, register by register; `STATUS` by its bits. -/
theorem rdcsrReadsTheRegisterMap : Obligations.RdcsrReadsTheRegisterMap := by
  refine fun r s hp => ⟨fun hr => ?_, fun hr => ⟨s.csr r, exec_rdcsr_of_mapped hp hr, ?_, ?_, ?_, ?_, ?_, ?_, ?_, ?_⟩⟩
  · rw [exec, execRdcsr, onPort_same hp, if_pos hr, raiseErr_eq]
  · rintro rfl
    rw [← Buffer.bit_eq_decide]
    exact s.statusWord_bits
  all_goals
    rintro rfl
    rfl

end Sys2Proof.Machine

/-! PROOF. BEGIN and END (rules R151 to R153): all that a successful one writes, and what it leaves alone. -/

namespace Sys2Proof.Machine

variable {s : State}

theorem State.krefValid_of_invalid (h : (s.channel 0).kref.valid = false) : s.krefValid = false := by
  rw [State.krefValid, h, Bool.and_false]

/-! ### What BEGIN writes -/

/-- The band plan has a frequency for every band, so each band takes in its own. -/
theorem State.configure_band {i : Nat} (nch : Nat) (sr : Word) (hs : s.Shaped) (hi : i < s.params.numBands) :
    (s.configure nch sr).band i =
      { s.band i with freq := (bandPlan s.num (BitVec.toInt sr) s.params.numBands).getD i ⟨0⟩ } := by
  obtain ⟨hb, -, -⟩ := hs
  have hplan : i < (bandPlan s.num (BitVec.toInt sr) s.params.numBands).length := (bandPlan_length ..).symm ▸ hi
  have hband : i < s.bands.length := hb.symm ▸ hi
  simp [State.band, sampleRateOf, List.getD_eq_getElem?_getD, hplan, hband]

/-- A channel that BEGIN does not make exist keeps ring and cursor. -/
theorem State.configure_channel_above {nch ch : Nat} (sr : Word) (h : nch ≤ ch) :
    ((s.configure nch sr).channel ch).cur = (s.channel ch).cur ∧
    ((s.configure nch sr).channel ch).hist = (s.channel ch).hist := by
  rw [State.configure_channel, State.clearHistories_channel_above _ _ _ h, State.clearKrefs_channel]
  exact ⟨rfl, rfl⟩

/-- Both buffers hold the identity kernel after BEGIN. -/
theorem State.configure_kmem_read {n : Nat} (nch : Nat) (sr : Word) (b : Buffer) (hn : n < s.params.numTaps) :
    ((s.configure nch sr).kmem b).read n = some (identityKernel s.params.numTaps n) := by
  have hb : (s.configure nch sr).kmem b =
      (s.kmem b).writeAll (identityKernel s.params.numTaps) s.params.numTaps := by cases b <;> rfl
  rw [hb, Memory.read_writeAll, if_pos hn]

/-- Past its checks BEGIN configures, and its rebuild request always starts one: it is forced, the machine is now
configured, and no rebuild is in flight. -/
theorem exec_begin_of_legal {nch : Nat} {sr : Word} (hp : s.port = .cp) (hsr : 0 < BitVec.toInt sr) (h1 : 1 ≤ nch)
    (hn : nch ≤ s.params.maxChannels) (hu : s.isUpdating = false) :
    exec (.begin_ nch sr) s = .next ((s.configure nch sr).claim.respond .ok 0) := by
  have hr : rebuildRequest true (s.configure nch sr) = (.started, (s.configure nch sr).claim) :=
    rebuildRequest_of_needed ((configured_iff _).mpr hsr) hu (.inl rfl)
  rw [exec, execBegin, onPort_same hp, sampleRateOf, if_neg (Int.not_le.mpr hsr), if_neg (by omega),
    if_neg (by simp [hu]), hr, respond_eq]

/-- Settles O12: the three checks in their order, then element by element what is written, and one frame. -/
theorem beginConfiguresTheBlock : Obligations.BeginConfiguresTheBlock := by
  intro nch sr s hp hs
  refine ⟨fun hsr => ?_, fun hsr hn => ?_, fun hsr h1 hn hu => ?_, fun hsr h1 hn hu => ?_⟩
  · rw [exec, execBegin, onPort_same hp, sampleRateOf, if_pos hsr, raiseErr_eq]
  · rw [exec, execBegin, onPort_same hp, sampleRateOf, if_neg (Int.not_le.mpr hsr), if_pos hn, raiseErr_eq]
  · rw [exec, execBegin, onPort_same hp, sampleRateOf, if_neg (Int.not_le.mpr hsr), if_neg (by omega), if_pos hu,
      raiseErr_eq]
  · have invalid := s.configure_channel_valid nch sr
    refine ⟨_, exec_begin_of_legal hp hsr h1 hn hu, rfl, rfl, fun i hi => ?_, rfl, invalid, fun ch hch => ?_,
      fun ch => State.configure_channel_above sr, fun b n hb => ?_, rfl, rfl, (configured_iff _).mpr hsr,
      State.krefValid_of_invalid (invalid 0), rfl⟩
    · rw [State.respond_band, State.claim_band, State.configure_band nch sr hs hi]
      exact ⟨rfl, rfl, rfl⟩
    · obtain ⟨-, -, hl⟩ := hs
      obtain ⟨hcur, hhist⟩ := State.configure_channel_below sr hch (hl ▸ hch.trans_le hn)
      refine ⟨hcur, fun j hj => ?_⟩
      rw [State.respond_channel, State.claim_channel, hhist, Memory.read_writeAll, if_pos hj]
    · rw [State.respond_kmem, State.claim_kmem, State.configure_kmem_read nch sr b hb]
      rfl

/-! ### END (rule R153) -/

/-- What END makes of the state before it answers. -/
def State.released (s : State) : State := State.clearKrefs { s with srate := 0, nchan := 0 }

theorem exec_end_of_updating (hp : s.port = .cp) (hu : s.isUpdating = true) :
    exec .end_ s = .next (s.respond .busy 0) := by
  rw [exec, execEnd, onPort_same hp, if_pos hu, raiseErr_eq]

theorem exec_end_of_rest (hp : s.port = .cp) (hu : s.isUpdating = false) :
    exec .end_ s = .next (s.released.respond .ok 0) := by
  rw [exec, execEnd, onPort_same hp, if_neg (by simp [hu]), respond_eq, State.released]

theorem State.released_channel (s : State) (ch : Nat) :
    s.released.channel ch = { s.channel ch with kref := { (s.channel ch).kref with valid := false } } :=
  State.clearKrefs_channel _ ch

theorem exec_krd_of_notConfigured {n : Nat} (ksel : KSel) (hp : s.port = .cp) (hn : n < s.params.numTaps)
    (hc : s.configured = false) : exec (.krd ksel n) s = .next (s.respond .errNotCfg 0) := by
  rw [exec, execKrd, onPort_same hp, if_neg (Nat.not_le.mpr hn), if_pos hc, raiseErr_eq]

/-- Not configured, a machine that meets the invariant has what END would write: no rate, no channels and no kernel
reference (rules R16, R17 and R27). -/
theorem State.Inv.released_eq (h : s.Inv) (hc : s.configured = false) : s.released = s := by
  have hrate : s.srate = 0 := BitVec.eq_of_toInt_eq (((not_configured_iff s).mp hc).antisymm h.rateNonneg)
  have hchan : s.nchan = 0 := Nat.eq_zero_of_not_pos fun hpos =>
    absurd (hc.symm.trans (h.channelsConfigured.mp hpos)) nofun
  have hkref : s.clearKrefs.channels = s.channels := by
    refine List.ext_getElem (by simp) fun ch _ hch => ?_
    have hinv : s.channels[ch].kref.valid = false := by
      rw [← List.getD_eq_getElem _ _ hch]
      exact h.krefAbsent ch (hchan ▸ Nat.zero_le ch)
    simp [← hinv]
  calc s.released = { s with srate := 0, nchan := 0, channels := s.clearKrefs.channels } := rfl
    _ = s := by rw [hkref, ← hrate, ← hchan]

/-- Settles O13: what END writes, and that PROC, UPDATE and KRD then find no channel and no rate; an END of a machine
that is not configured writes what is there. -/
theorem endReleasesTheChannels : Obligations.EndReleasesTheChannels := by
  refine fun s hp => ⟨exec_end_of_updating hp, fun hu => ?_, fun hi hc => ?_⟩
  · have hchannel := s.released_channel
    have hvalid : ∀ ch, (s.released.channel ch).kref.valid = false := fun ch => by rw [hchannel]
    have hc : (s.released.respond .ok 0).configured = false := rfl
    refine ⟨_, exec_end_of_rest hp hu, rfl, rfl, hc, State.krefValid_of_invalid (hvalid 0), fun ch => ?_, rfl,
      fun ch x => ?_, fun force => ?_, fun ksel n hn => ?_⟩
    · rw [State.respond_channel, hchannel]
      exact ⟨rfl, rfl, rfl⟩
    · exact exec_proc_of_absent rfl (Nat.zero_le ch)
    · exact exec_update_of_request (s := s.released.respond .ok 0) hp (rebuildRequest_of_notConfigured force hc)
    · exact exec_krd_of_notConfigured ksel hp hn hc
  · have hu : s.isUpdating = false := Bool.eq_false_iff.mpr fun hu =>
      absurd (hc.symm.trans (hi.updatingConfigured hu)) nofun
    rw [exec_end_of_rest hp hu, hi.released_eq hc]

end Sys2Proof.Machine

/-! PROOF. A command that fails has no effect but its answer (rules R7, R171 and R176). -/

namespace Sys2Proof.Machine

/-- Settles O49: the only answer that a command gives is the one it completes with, and a failing one is given to the
state as it was; the BLOCK that holds the port gives none. -/
theorem failedCommandHasNoEffect : Obligations.FailedCommandHasNoEffect := by
  intro i s t st rw h hst ha
  rcases exec_cases h with ⟨st', rw', u, rfl, fails, hcp, hap, hport, -⟩ | ⟨-, -, -, -, -, rfl⟩
  · rw [← hport, u.respond_answers, State.portOf_congr hcp hap] at ha
    obtain ⟨rfl, rfl⟩ := Answer.mk.inj (List.cons.inj ha).1
    obtain ⟨rfl, rfl⟩ := fails hst
    exact ⟨rfl, rfl⟩
  · rw [s.hold_portOf] at ha
    exact absurd ha.symm (List.cons_ne_self _ _)

end Sys2Proof.Machine

/-! PROOF. The reset event (rule R190): it takes the machine to a reset state, in which the ports and the turns are
those of before (log 13). -/

namespace Sys2Proof.Machine

/-- Settles O10, from the values of the reset state. -/
theorem resetEventAbandonsEverything : Obligations.ResetEventAbandonsEverything := fun s _ ht =>
  ⟨_, step_of_resetTurn (nextTurn_of_turns ht), rfl, rfl, rfl, rfl, rfl, rfl, rfl, rfl,
    fun _ => resetOf_band s.freeCount, resetOf_channel_valid s.params s.freeCount, rfl, rfl, rfl, rfl⟩

end Sys2Proof.Machine

/-! PROOF. The dirty mark that is lost (rule R200): a gain stored after E-COMMIT is not among the gains that E-DESIGN
reads, and E-SWAP clears the mark all the same. -/

namespace Sys2Proof.Machine

variable {s : State}

/-! ### A pending gain is no input of the designer -/

theorem State.storeGain_committed (s : State) (i : Nat) (g : Flt) :
    (s.storeGain i g).bands.map Band.gc = s.bands.map Band.gc := by
  rw [State.storeGain_bands]
  refine List.ext_getElem (by simp) fun n _ _ => ?_
  simp only [List.getElem_map, List.getElem_modify]
  split <;> rfl

theorem State.storeGain_designed (s : State) (i : Nat) (g : Flt) : (s.storeGain i g).designed = s.designed := by
  simp only [State.designed, State.storeGain_committed, State.storeGain_freqs, State.storeGain_params,
    State.storeGain_num, State.storeGain_srate, State.storeGain_win]

theorem State.storeGain_kmem (s : State) (i : Nat) (g : Flt) (b : Buffer) : (s.storeGain i g).kmem b = s.kmem b := by
  cases b <;> rfl

/-- E-DESIGN writes the same kernel, whatever gain is pending (rule R117). -/
theorem State.storeGain_eDesign_kmem (s : State) (i : Nat) (g : Flt) (b : Buffer) :
    (s.storeGain i g).eDesign.kmem b = s.eDesign.kmem b := by
  simp only [State.eDesign_kmem, State.storeGain_designed, State.storeGain_kmem, State.storeGain_asel,
    State.storeGain_params]

theorem State.respond_eDesign (s : State) (st : Status) (rw : Word) :
    (s.respond st rw).eDesign = s.eDesign.respond st rw := rfl

/-! ### The engine steps that finish a rebuild after E-COMMIT -/

/-- The state that E-SWAP starts from: E-DESIGN is taken first, if it has not been (rule R115). -/
def State.staged (s : State) : State := if s.phase = .design then s.eDesign else s

theorem iterate_engineStep_eq_staged_eSwap (h : s.phase = .design ∨ s.phase = .swap) :
    State.engineStep^[if s.phase = .design then 2 else 1] s = s.staged.eSwap := by
  rw [State.staged]
  rcases h with h | h
  · rw [if_pos h, if_pos h, Function.iterate_succ_apply, Function.iterate_one, engineStep_of_design h,
      engineStep_of_swap s.eDesign_phase]
  · have hd : s.phase ≠ .design := h ▸ nofun
    rw [if_neg hd, if_neg hd, Function.iterate_one, engineStep_of_swap h]

/-- What E-DESIGN writes is a kernel and the phase, not these. -/
theorem State.staged_frame (s : State) :
    s.staged.bands = s.bands ∧ s.staged.srate = s.srate ∧ s.staged.port = s.port := by
  rw [State.staged]
  split
  · exact ⟨s.eDesign_bands, s.eDesign_srate, s.eDesign_port⟩
  · exact ⟨rfl, rfl, rfl⟩

/-- The steps after E-COMMIT neither store nor commit a gain (rules R13 and R14). -/
theorem State.staged_eSwap_band (s : State) (i : Nat) : s.staged.eSwap.band i = s.band i := by
  obtain ⟨hb, -, -⟩ := s.staged_frame
  rw [State.band, State.eSwap_bands, hb, State.band]

/-- A setter between E-COMMIT and E-SWAP leaves no trace in the kernels that E-SWAP finds. -/
theorem State.storeGain_staged_kmem (s : State) (i : Nat) (g : Flt) (st : Status) (rw : Word) (b : Buffer) :
    ((s.storeGain i g).respond st rw).staged.kmem b = s.staged.kmem b := by
  rw [State.staged, State.staged, State.respond_phase, State.storeGain_phase]
  split
  · rw [State.respond_eDesign, State.respond_kmem, State.storeGain_eDesign_kmem]
  · rw [State.respond_kmem, State.storeGain_kmem]

/-- Right after E-SWAP a configured machine has nothing to rebuild (rule R113). -/
theorem exec_update_of_staged_eSwap (hp : s.port = .cp) (hc : s.configured = true) :
    exec (.update false) s.staged.eSwap = .next (s.staged.eSwap.respond .notNeeded 0) := by
  obtain ⟨-, hr, hport⟩ := s.staged_frame
  have hc' : s.staged.eSwap.configured = true := by
    rw [State.configured, State.eSwap_srate, hr]
    exact hc
  exact exec_update_of_request (s := s.staged.eSwap) (hport.trans hp)
    (rebuildRequest_of_clean hc' s.staged.eSwap_isUpdating s.staged.eSwap_gainsDirty)

/-! ### The lost mark -/

/-- A rebuild is in flight only while the machine is configured (rule R31 items 3 and 4). -/
theorem State.Inv.configured_of_rebuilding (h : s.Inv) (hph : s.phase ≠ .idle) : s.configured = true :=
  h.updatingConfigured (h.updatingPhase.mpr hph)

/-- Settles O55: both setters store a gain, which the rest of the rebuild neither reads nor commits, and its E-SWAP
clears the mark that they set. -/
theorem dirtyMarkCanBeLost : Obligations.DirtyMarkCanBeLost := by
  intro i aw s hinv hp hph hi hv c hc
  obtain ⟨g, hg, hset⟩ : ∃ g,
      (if c = .setg i aw then s.num.ofBits32 aw else normalisedGain s.num (s.num.ofBits32 aw)) = g ∧
      exec c s = .next ((s.storeGain i g).respond .ok 0) := by
    rcases hc with rfl | rfl
    · exact ⟨_, if_pos rfl, exec_setg_of_notNaN hp hi hv⟩
    · exact ⟨_, if_neg nofun, exec_setgn_of_notNaN hp hi hv⟩
  have hconf : s.configured = true := hinv.configured_of_rebuilding (by rcases hph with h | h <;> exact h ▸ nofun)
  obtain ⟨hband, -⟩ := State.storeGain_writes hinv.shaped hi g
  refine ⟨_, _, _, _, hset, rfl, (iterate_engineStep_eq_staged_eSwap (s := (s.storeGain i g).respond .ok 0) hph).symm,
    (iterate_engineStep_eq_staged_eSwap hph).symm, State.eSwap_phase _, ?_, ?_, State.eSwap_gainsDirty _,
    fun b => ?_, exec_update_of_staged_eSwap hp hconf⟩
  · rw [State.staged_eSwap_band, State.respond_band, hband, hg]
  · rw [State.staged_eSwap_band, State.respond_band, hband]
  · rw [State.eSwap_kmem, State.eSwap_kmem, State.storeGain_staged_kmem]

end Sys2Proof.Machine
